-- ==== Sys2Proof/Word.lean ====
section
/-! DEFINITION. The bit-vector widths the spec names (00_scope.md R9, R10): a byte, a 32-bit bus word, a 64-bit
counter or timestamp. -/

namespace Sys2Proof

/-- A byte, 0 to 255 (R9). -/
abbrev Byte := BitVec 8

/-- A register or bus word of 32 bits (R18, R48). -/
abbrev Word := BitVec 32

/-- COUNTER and TS (R28, R29). -/
abbrev DWord := BitVec 64

end Sys2Proof
end

