-- ==== Sys2Proof/Syntax.lean ====
section
/-! DEFINITION. The six commands of the block (30_encoding.md R63 to R70), one constructor a row of
spec/opcode_table.json. -/

namespace Sys2Proof

/-- The U bit of B32DEC: `from_user_input` false or true (R68). -/
inductive DecodeMode where
  | strict
  | user
  deriving DecidableEq, Repr

/-- The D bit of B32DEC: where the decoded bytes go (R68). -/
inductive Dest where
  | out
  | key
  deriving DecidableEq, Repr

/-- The X bit of HMAC: raw digest only, or its hex form in OUT as well (R69). -/
inductive HmacForm where
  | raw
  | hex
  deriving DecidableEq, Repr

/-- The W bit of TSTEP: the TS register, or a sample of the wall clock (R70). -/
inductive TimeSource where
  | ts
  | now
  deriving DecidableEq, Repr

/-- A command (R65). `n` of B32ENC is a count of bytes (R67). -/
inductive Instr where
  | b32enc (n : Nat)
  | b32dec (mode : DecodeMode) (dest : Dest)
  | hmac (form : HmacForm)
  | trunc
  | hotp
  | tstep (source : TimeSource)
  deriving DecidableEq, Repr

end Sys2Proof
end

