-- ==== Sys2Proof/WellFormed.lean ====
section
/-! DEFINITION. Which commands have a word: every operand inside its field (30_encoding.md R63, R67; R74's
"N decimal or 0x hex, 0 to 255"). The one-bit fields are inductive types, so only N can be out of range. -/

namespace Sys2Proof

/-- B32ENC's N is an 8-bit field, 0 to 255; a larger `n_bytes` has no encoding (R63, R67; D21, I14). -/
def Instr.wellFormed : Instr → Bool
  | .b32enc n => n < 256
  | .b32dec _ _ => true
  | .hmac _ => true
  | .trunc => true
  | .hotp => true
  | .tstep _ => true

end Sys2Proof
end

