-- ==== Sys2Proof/Decode.lean ====
section
/-! DEFINITION. The command decoder, total on 32-bit words and refusing by name (30_encoding.md R63 to R66, R71,
R73), and after it the encoder (R74). -/

namespace Sys2Proof

/-- One row of the opcode map (R65): a word spells the command when `word & mask = pat`. -/
structure Row where
  pat  : Word
  mask : Word
  deriving DecidableEq, Repr

/-- Why a word is no command (R71): a reserved opcode, or a known opcode with a bit set outside its fields. -/
inductive IllegalWord where
  | reservedOpcode
  | unusedFieldSet
  deriving DecidableEq, Repr

/-- Row of B32ENC (R65). -/
def rowB32enc : Row := ⟨0x00000001, 0xFFFF00FF⟩

/-- Row of B32DEC (R65). -/
def rowB32dec : Row := ⟨0x00000002, 0xFFFCFFFF⟩

/-- Row of HMAC (R65). -/
def rowHmac : Row := ⟨0x00000003, 0xFFFBFFFF⟩

/-- Row of TRUNC (R65). -/
def rowTrunc : Row := ⟨0x00000004, 0xFFFFFFFF⟩

/-- Row of HOTP (R65). -/
def rowHotp : Row := ⟨0x00000005, 0xFFFFFFFF⟩

/-- Row of TSTEP (R65). -/
def rowTstep : Row := ⟨0x00000006, 0xFFF7FFFF⟩

/-- The opcode map in the spec's order (R65). -/
def opcodeTable : List Row := [rowB32enc, rowB32dec, rowHmac, rowTrunc, rowHotp, rowTstep]

/-- `(word & mask) == match` (R65). -/
def Row.matchesWord (r : Row) (w : Word) : Bool := w &&& r.mask == r.pat

/-- OP, bits 7 to 0 (R63). -/
def opField (w : Word) : BitVec 8 := w.extractLsb' 0 8

/-- N, bits 15 to 8, an unsigned byte count (R63, R64). -/
def nField (w : Word) : Nat := (w.extractLsb' 8 8).toNat

/-- U, bit 16 (R63, R68). -/
def uField (w : Word) : DecodeMode := if w.getLsbD 16 then .user else .strict

/-- D, bit 17 (R63, R68). -/
def dField (w : Word) : Dest := if w.getLsbD 17 then .key else .out

/-- X, bit 18 (R63, R69). -/
def xField (w : Word) : HmacForm := if w.getLsbD 18 then .hex else .raw

/-- W, bit 19 (R63, R70). -/
def wField (w : Word) : TimeSource := if w.getLsbD 19 then .now else .ts

/-- The opcodes of the map are 0x01 to 0x06 (R65); the others are reserved (R72). -/
def knownOpcode (op : BitVec 8) : Bool := 1 ≤ op.toNat && op.toNat ≤ 6

/-- The command a word spells, or why it spells none (R73: decoding is total). -/
def decode (w : Word) : Except IllegalWord Instr :=
  if rowB32enc.matchesWord w then .ok (.b32enc (nField w))
  else if rowB32dec.matchesWord w then .ok (.b32dec (uField w) (dField w))
  else if rowHmac.matchesWord w then .ok (.hmac (xField w))
  else if rowTrunc.matchesWord w then .ok .trunc
  else if rowHotp.matchesWord w then .ok .hotp
  else if rowTstep.matchesWord w then .ok (.tstep (wField w))
  else if knownOpcode (opField w) then .error .unusedFieldSet
  else .error .reservedOpcode

/-- The command of an opcode-table word: the command word is one 32-bit bus write, so the table's bit numbers are
the word's own and no byte order enters (R22, R63). Bits above `nbits` are 0. -/
def decodeTableWord (nbits w : Nat) : Option Instr :=
  match decode (BitVec.ofNat 32 (w % 2 ^ nbits)) with
  | .ok i => some i
  | .error _ => none

/-- The opcode map's row of a command (R65). -/
def Instr.row : Instr → Row
  | .b32enc _ => rowB32enc
  | .b32dec _ _ => rowB32dec
  | .hmac _ => rowHmac
  | .trunc => rowTrunc
  | .hotp => rowHotp
  | .tstep _ => rowTstep

/-- U as a bit (R68). -/
def DecodeMode.bit : DecodeMode → Word
  | .strict => 0
  | .user => 1

/-- D as a bit (R68). -/
def Dest.bit : Dest → Word
  | .out => 0
  | .key => 1

/-- X as a bit (R69). -/
def HmacForm.bit : HmacForm → Word
  | .raw => 0
  | .hex => 1

/-- W as a bit (R70). -/
def TimeSource.bit : TimeSource → Word
  | .ts => 0
  | .now => 1

/-- The word of a well-formed command (R74's column "encodes to"). -/
def encode : Instr → Word
  | .b32enc n => 0x01 ||| (BitVec.ofNat 32 n <<< 8)
  | .b32dec mode dest => 0x02 ||| (mode.bit <<< 16) ||| (dest.bit <<< 17)
  | .hmac form => 0x03 ||| (form.bit <<< 18)
  | .trunc => 0x04
  | .hotp => 0x05
  | .tstep source => 0x06 ||| (source.bit <<< 19)

end Sys2Proof
end

