-- ==== Sys2Proof/Config.lean ====
section
/-! DEFINITION. What is fixed for this hardware (00_scope.md R8) and what the spec leaves open: the OPEN parameters
`BASE`, `RNG` and `CLOCK`, and the unspecified values a read may return. The open ones are opaque constants, so
nothing in Lean can learn a value of theirs. -/

namespace Sys2Proof.Config

/-- `B`, the hash block size in bytes (R8). -/
def blockSize : Nat := 64

/-- `DL`, the digest length in bytes (R8). -/
def digestLen : Nat := 20

/-- `STEP`, the TOTP time step in seconds (R8, R114). -/
def timeStep : Nat := 30

/-- `MOD`, the code modulus (R8, R105). -/
def codeModulus : Nat := 1000000

/-- `TXT_CAP` (R8). -/
def txtCap : Nat := 256

/-- `KEY_CAP` (R8). -/
def keyCap : Nat := 256

/-- `MSG_CAP` (R8). -/
def msgCap : Nat := 256

/-- `OUT_CAP` (R8). -/
def outCap : Nat := 512

/-- `DIG_CAP`, the size of the DIG window (R8, R34). -/
def digCap : Nat := 64

/-- The register window's size in bytes (R45). -/
def windowSize : Nat := 0x2000

/-- `BASE / 0x2000`: OPEN, for `BASE` is a multiple of 0x2000 (R8). Log entry 2. -/
opaque basePage : Nat

/-- `BASE`, the window's byte address on the host bus (R8, R45). -/
def base : Nat := windowSize * basePage

/-- `RNG`: the n-th 5-bit value the RNG collaborator returns when nothing stands in the port's feed; a free value
(R37, R80). Log entry 5. -/
opaque rng : Nat → BitVec 5

/-- `CLOCK`: the n-th sample of the clock collaborator when nothing stands in the port's feed; a free value (R38,
R113). Log entry 6. -/
opaque clock : Nat → DWord

/-- The n-th read of a buffer byte that nothing has written since reset; a free value (R44). Log entry 3. -/
opaque freeByte : Nat → Byte

/-- The n-th read of a result register or a buffer word while a command is pending; a free value (R57). Log
entry 4. -/
opaque freeWord : Nat → Word

/-- `pretty` of a string that is not 16 characters, which the spec leaves open; a free value (N18). Log entry 25. -/
opaque freePretty : List Byte → List Byte

end Sys2Proof.Config
end

