-- ==== Sys2Proof/Machine/State.lean ====
section
/-! DEFINITION. The state of the block and of the agents around it, as plain data (10_state.md R16 to R35), the
reasons a step can stop, and the state after reset (70_reset_and_hazards.md R149). -/

namespace Sys2Proof.Machine

/-- The error codes of STATUS.ERR (60_exceptions.md R130). Codes 5 to 15 are never produced, so they are no
constructors. -/
inductive ErrCode where
  /-- 0: no error. -/
  | ok
  /-- 1: E_ILLEGAL. -/
  | illegal
  /-- 2: E_DECODE. -/
  | decode
  /-- 3: E_LENGTH. -/
  | length
  /-- 4: E_DIGEST. -/
  | digest
  deriving DecidableEq, Repr

/-- The five byte buffers (R34). -/
inductive Buffer where
  | txt
  | key
  | msg
  | out
  | dig
  deriving DecidableEq, Repr

/-- The registers of the window, in the order of their offsets (R18). -/
inductive Reg where
  | ctrl
  | status
  | cmd
  | txtLen
  | keyLen
  | msgLen
  | outLen
  | digLen
  | counterLo
  | counterHi
  | tsLo
  | tsHi
  | code
  | truncBin
  | truncOff
  | param0
  | param1
  | param2
  deriving DecidableEq, Repr

/-- The width of a bus access: only a word of 32 bits is supported (20_memory.md R48). -/
inductive AccessSize where
  | byte
  | half
  | word
  | dword
  deriving DecidableEq, Repr

/-- A read, or a write of a value. An access of another width than 32 bits has no effect, so its data needs no
width of its own (R50). -/
inductive AccessKind where
  | read
  | write (v : Word)
  deriving DecidableEq, Repr

/-- One access of a bus master, at a byte address of the host bus (R45). -/
structure Access where
  size : AccessSize
  addr : Nat
  kind : AccessKind
  deriving DecidableEq, Repr

/-- What happens next around the block: a host access, a turn of the command engine, or the reset input, asserted and
released at once (00_scope.md R13; R40; R58; log entry 24). -/
inductive Event where
  | hostAccess (a : Access)
  | engineTurn
  | resetInput
  deriving DecidableEq, Repr

/-- What the bus answered to the last host access (R50: an error response, and a read returns no data). -/
inductive Response where
  | data (v : Word)
  | written
  | busError
  deriving DecidableEq, Repr

/-- Memory: the buffer bytes that something has written since reset, by their offset in the window, in one
canonical form (offsets strictly rising). An unlisted byte has no fixed value: each read of it is a fresh free
draw (R44). -/
abbrev Memory := List Host.Cell

/-- Everything the spec gives the machine. -/
@[ext]
structure State where
  /-- CTRL.IE (R19). -/
  ie : Bool
  /-- STATUS.DONE (R20). -/
  done : Bool
  /-- STATUS.OVR (R20). -/
  ovr : Bool
  /-- STATUS.ERR (R20, R130). -/
  err : ErrCode
  /-- CMD: the last accepted word (R22). -/
  cmd : Word
  /-- TXT_LEN.LEN (R23). -/
  txtLen : BitVec 16
  /-- KEY_LEN.LEN (R24). -/
  keyLen : BitVec 16
  /-- MSG_LEN.LEN (R25). -/
  msgLen : BitVec 16
  /-- OUT_LEN.LEN (R26). -/
  outLen : BitVec 16
  /-- DIG_LEN.LEN (R27). -/
  digLen : BitVec 16
  /-- COUNTER_LO (R28). -/
  counterLo : Word
  /-- COUNTER_HI (R28). -/
  counterHi : Word
  /-- TS_LO (R29). -/
  tsLo : Word
  /-- TS_HI (R29). -/
  tsHi : Word
  /-- CODE, bits 19 to 0 (R30). -/
  code : BitVec 20
  /-- TRUNC_BIN, bits 30 to 0 (R31). -/
  truncBin : BitVec 31
  /-- TRUNC_OFF, bits 3 to 0 (R32). -/
  truncOff : BitVec 4
  /-- The pending command (R35). STATUS.BUSY is the question whether there is one (R20, R128, R129), so that bit is
  stored here and nowhere else. -/
  pending : Option Word
  /-- The buffers TXT, KEY, MSG, OUT and DIG (R34, R44, R46). -/
  mem : Memory
  /-- What the agents around the block do next, first to last (R58). The model's own field: the interleaving. -/
  schedule : List Event
  /-- The bus answer to the last host access. The model's own field: the host's view (R12, R50). -/
  response : Option Response
  /-- A bus error has happened: the host fault that is recorded and never cleared (R50, R138). -/
  hostFault : Bool
  /-- Values the RNG port returns next, where the outside gives them. The model's own field (R37). -/
  rngFeed : List (BitVec 5)
  /-- Samples the clock port returns next, where the outside gives them. The model's own field (R38). -/
  clockFeed : List DWord
  /-- RNG requests made so far. The model's own field (R80). -/
  rngDraws : Nat
  /-- Clock requests made so far. The model's own field (R113). -/
  clockDraws : Nat
  /-- Reads of unwritten buffer bytes so far. The model's own field (R44). -/
  byteDraws : Nat
  /-- Unspecified words read while a command was pending so far. The model's own field (R57). -/
  wordDraws : Nat
  deriving DecidableEq, Repr

/-- Why the machine stops with a fault. -/
inductive Fault where
  /-- Raised by `step` in a state in which a host access has ended in a bus error: the spec's treatment is a host
  fault past which no claim holds (R50, R138; I5). Safe: the model stops where the block would go on. -/
  | hostBusError
  /-- Raised by a host access at an address outside the window: the block has no such address (R45). Safe: the
  access is another device's, and the model stops instead of giving it a meaning. -/
  | outsideWindow
  deriving DecidableEq, Repr

/-- Why the machine refuses. -/
inductive Refusal where
  /-- Raised by `exec` for a command that has no meaning yet; none is left. Safe. -/
  | notModelled (mnemonic : String)
  deriving DecidableEq, Repr

/-- The machine right after reset (R149). The fields that are the model's own start empty, or at 0 (log entry
11). -/
def State.reset : State where
  ie := false
  done := false
  ovr := false
  err := .ok
  cmd := 0
  txtLen := 0
  keyLen := 0
  msgLen := 0
  outLen := 0
  digLen := 0
  counterLo := 0
  counterHi := 0
  tsLo := 0
  tsHi := 0
  code := 0
  truncBin := 0
  truncOff := 0
  pending := none
  mem := []
  schedule := []
  response := none
  hostFault := false
  rngFeed := []
  clockFeed := []
  rngDraws := 0
  clockDraws := 0
  byteDraws := 0
  wordDraws := 0

end Sys2Proof.Machine
end

