-- ==== Sys2Proof/Machine/Flags.lean ====
section
/-! DEFINITION. The status flags BUSY, DONE, OVR and ERR, the STATUS word, its write-1-to-clear bits, and the
interrupt output (10_state.md R19 to R21, R39, R41; 60_exceptions.md R130, R139, R140). -/

namespace Sys2Proof.Machine

/-- STATUS.BUSY: a command is pending (R20, R35). -/
def State.busy (s : State) : Bool := s.pending.isSome

/-- The number of an error code (R130). -/
def ErrCode.number : ErrCode → BitVec 4
  | .ok => 0
  | .illegal => 1
  | .decode => 2
  | .length => 3
  | .digest => 4

/-- The STATUS word: BUSY, DONE and OVR in bits 0 to 2, ERR in bits 11 to 8, every other bit 0 (R20). -/
def State.statusWord (s : State) : Word :=
  (0 : BitVec 20) ++ s.err.number ++ (0 : BitVec 5) ++ BitVec.ofBool s.ovr ++ BitVec.ofBool s.done
    ++ BitVec.ofBool s.busy

/-- The CTRL word: IE in bit 0 (R19). -/
def State.ctrlWord (s : State) : Word := (BitVec.ofBool s.ie).setWidth 32

/-- A host write to STATUS: bit 1 clears DONE and bit 2 clears OVR; nothing else changes (R21). -/
def State.clearStatus (v : Word) (s : State) : State :=
  { s with done := s.done && !v.getLsbD 1, ovr := s.ovr && !v.getLsbD 2 }

/-- A host write to CTRL (R19). -/
def State.setCtrl (v : Word) (s : State) : State := { s with ie := v.getLsbD 0 }

/-- A host write ignored because a command is pending (R56). -/
def State.overrun (s : State) : State := { s with ovr := true }

/-- The interrupt output `CTRL.IE & STATUS.DONE` (R39). -/
def State.irq (s : State) : Bool := s.ie && s.done

end Sys2Proof.Machine
end

