-- ==== Sys2Proof/Machine/Ops.lean ====
section
/-! DEFINITION. The named operations over the buffers' memory, the accept and complete events of a command, and the
reset input (10_state.md R34, R44; 60_exceptions.md R128, R129, R134; 70_reset_and_hazards.md R149, R151). -/

namespace Sys2Proof.Machine

/-! ### Buffers -/

/-- `W(X)`, the offset of a buffer's window (R46). -/
def Buffer.base : Buffer → Nat
  | .txt => 0x0400
  | .key => 0x0800
  | .msg => 0x0C00
  | .out => 0x1000
  | .dig => 0x1400

/-- A buffer's capacity in bytes (R8, R34). -/
def Buffer.cap : Buffer → Nat
  | .txt => Config.txtCap
  | .key => Config.keyCap
  | .msg => Config.msgCap
  | .out => Config.outCap
  | .dig => Config.digCap

/-- The buffers in the order of their windows (R46). -/
def Buffer.all : List Buffer := [.txt, .key, .msg, .out, .dig]

/-- A window offset holds a byte of buffer `b` (R46, R51, R52). -/
def Buffer.holds (b : Buffer) (off : Nat) : Bool := b.base ≤ off && off < b.base + b.cap

/-! ### Memory -/

/-- The byte stored at a window offset; none where nothing has written since reset (R44). -/
def Memory.get : Memory → Nat → Option Byte
  | [], _ => none
  | (k, b) :: m, a => if k = a then some b else Memory.get m a

/-- Store a byte, keeping the offsets rising. -/
def Memory.set : Memory → Nat → Byte → Memory
  | [], a, v => [(a, v)]
  | (k, b) :: m, a, v =>
    if a < k then (a, v) :: (k, b) :: m
    else if a = k then (a, v) :: m
    else (k, b) :: Memory.set m a v

/-- Store a byte string at rising offsets. -/
def Memory.setRun : Memory → Nat → List Byte → Memory
  | m, _, [] => m
  | m, a, v :: vs => Memory.setRun (Memory.set m a v) (a + 1) vs

/-- The canonical form: the listed offsets strictly rise. An unlisted byte reads as no fixed value (R44), so no
entry can equal it. -/
def Memory.wf (m : Memory) : Bool := decide ((m.map Prod.fst).Pairwise (· < ·))

/-- Every listed offset is a byte of a buffer (R46, R52). -/
def Memory.inBuffers (m : Memory) : Bool := m.all fun c => Buffer.all.any fun b => b.holds c.1

/-! ### Reads of buffer bytes -/

/-- The bytes of `m` at rising offsets, the n-th unwritten one read being the n-th fresh free draw from draw number
`k` on (R44). -/
def Memory.bytes (m : Memory) : Nat → Nat → Nat → List Byte
  | _, 0, _ => []
  | a, n + 1, k =>
    match Memory.get m a with
    | some v => v :: Memory.bytes m (a + 1) n k
    | none => Config.freeByte k :: Memory.bytes m (a + 1) n (k + 1)

/-- How many of the `n` bytes from offset `a` on are unwritten. -/
def Memory.unwritten (m : Memory) : Nat → Nat → Nat
  | _, 0 => 0
  | a, n + 1 => (if (Memory.get m a).isNone then 1 else 0) + Memory.unwritten m (a + 1) n

/-- The `n` bytes from window offset `a` on, as one read sees them (R12's `BUF.X[a..b)`, R44). -/
def State.bytesAt (a n : Nat) (s : State) : List Byte := Memory.bytes s.mem a n s.byteDraws

/-- The state after that read: only the count of free draws moves, for a read has no side effect (R53). -/
def State.afterRead (a n : Nat) (s : State) : State :=
  { s with byteDraws := s.byteDraws + Memory.unwritten s.mem a n }

/-- Write bytes `[0, n)` of a buffer; the bytes above keep their contents (R34, D39). -/
def State.writeBuffer (b : Buffer) (bs : List Byte) (s : State) : State :=
  { s with mem := Memory.setRun s.mem b.base bs }

/-! ### The life of a command -/

/-- Acceptance of a command word (R128): OVR is unchanged and the word is not looked at. -/
def State.accept (w : Word) (s : State) : State :=
  { s with cmd := w, pending := some w, done := false, err := .ok }

/-- The end of a command, `complete(OK)` or `raise E_x` (R12, R129 step 4). It is the block's only exception entry:
a command error writes STATUS and nothing else, saves no state and changes no mode (R134, R141); there is no return
operation (R142). -/
def State.finish (code : ErrCode) (s : State) : State :=
  { s with pending := none, done := true, err := code }

/-- The reset input: every register at its reset value, the pending command aborted, every buffer byte unwritten
(R40, R149, R151). What stands outside the block stays: the schedule, the host's last answer and its recorded fault,
and the collaborators' ports (R152); the counts of free draws go on, so later draws are fresh. -/
def State.resetInput (s : State) : State :=
  { State.reset with
    schedule := s.schedule
    response := s.response
    hostFault := s.hostFault
    rngFeed := s.rngFeed
    clockFeed := s.clockFeed
    rngDraws := s.rngDraws
    clockDraws := s.clockDraws
    byteDraws := s.byteDraws
    wordDraws := s.wordDraws }

end Sys2Proof.Machine
end

