-- ==== Sys2Proof/Machine/Operands.lean ====
section
/-! DEFINITION. The operands of the commands, which are registers, buffers and collaborator ports and not fields of
the word (30_encoding.md R64), and the places their results go (10_state.md R18, R34). -/

namespace Sys2Proof.Machine

/-! ### Inputs -/

/-- `BUF.TXT[0..TXT_LEN)` (R23). -/
def State.textBytes (s : State) : List Byte := s.bytesAt Buffer.txt.base s.txtLen.toNat

/-- The state after the text is read. -/
def State.afterText (s : State) : State := s.afterRead Buffer.txt.base s.txtLen.toNat

/-- `BUF.KEY[0..KEY_LEN)` (R24). -/
def State.keyBytes (s : State) : List Byte := s.bytesAt Buffer.key.base s.keyLen.toNat

/-- The state after the key is read. -/
def State.afterKey (s : State) : State := s.afterRead Buffer.key.base s.keyLen.toNat

/-- `BUF.MSG[0..MSG_LEN)` (R25). -/
def State.msgBytes (s : State) : List Byte := s.bytesAt Buffer.msg.base s.msgLen.toNat

/-- The state after the message is read. -/
def State.afterMsg (s : State) : State := s.afterRead Buffer.msg.base s.msgLen.toNat

/-- `BUF.DIG[0..20)` (R106). -/
def State.digestBytes (s : State) : List Byte := s.bytesAt Buffer.dig.base Config.digestLen

/-- The state after the digest is read. -/
def State.afterDigest (s : State) : State := s.afterRead Buffer.dig.base Config.digestLen

/-- `COUNTER = {COUNTER_HI, COUNTER_LO}` (R28). -/
def State.counter (s : State) : DWord := s.counterHi ++ s.counterLo

/-- `TS = {TS_HI, TS_LO}` (R29). -/
def State.timestamp (s : State) : DWord := s.tsHi ++ s.tsLo

/-! ### Collaborator ports -/

/-- What the i-th RNG request from here on returns: the i-th value of the port's feed, or a free value (R37,
R80). -/
def State.rngValue (i : Nat) (s : State) : BitVec 5 :=
  match s.rngFeed[i]? with
  | some v => v
  | none => Config.rng (s.rngDraws + i)

/-- The values of the next `n` RNG requests, in the order of the requests (R80). -/
def State.rngValues (n : Nat) (s : State) : List (BitVec 5) := (List.range n).map fun i => s.rngValue i

/-- The state after `n` RNG requests (R80). -/
def State.afterRng (n : Nat) (s : State) : State :=
  { s with rngFeed := s.rngFeed.drop n, rngDraws := s.rngDraws + n }

/-- What the next clock request returns (R38, R113). -/
def State.clockValue (s : State) : DWord :=
  match s.clockFeed with
  | v :: _ => v
  | [] => Config.clock s.clockDraws

/-- The state after one clock request (R113). -/
def State.afterClock (s : State) : State :=
  { s with clockFeed := s.clockFeed.drop 1, clockDraws := s.clockDraws + 1 }

/-! ### Results -/

/-- Write a byte string to OUT and its length to OUT_LEN (R26, R34). -/
def State.storeOut (bs : List Byte) (s : State) : State :=
  { s.writeBuffer .out bs with outLen := BitVec.ofNat 16 bs.length }

/-- Write a byte string to KEY and its length to KEY_LEN (R24, R34). -/
def State.storeKey (bs : List Byte) (s : State) : State :=
  { s.writeBuffer .key bs with keyLen := BitVec.ofNat 16 bs.length }

/-- Write a digest to DIG and its length to DIG_LEN (R27, R34). -/
def State.storeDigest (d : List Byte) (s : State) : State :=
  { s.writeBuffer .dig d with digLen := BitVec.ofNat 16 d.length }

/-- The capacity of B32DEC's destination (R90). -/
def destCap : Dest → Nat
  | .out => Config.outCap
  | .key => Config.keyCap

/-- Where B32DEC writes its bytes and their length (R68, R89). -/
def State.storeDecoded (dest : Dest) (bs : List Byte) (s : State) : State :=
  match dest with
  | .out => s.storeOut bs
  | .key => s.storeKey bs

/-- The triple of the truncation unit (R102), each part at its register's width (R30 to R32). -/
structure Truncation where
  off  : BitVec 4
  bin  : BitVec 31
  code : BitVec 20
  deriving DecidableEq, Repr

/-- Write TRUNC_OFF, TRUNC_BIN and CODE (R106). -/
def State.storeTruncation (r : Truncation) (s : State) : State :=
  { s with truncOff := r.off, truncBin := r.bin, code := r.code }

/-- Write both halves of COUNTER (R28, R112). -/
def State.setCounter (c : DWord) (s : State) : State :=
  { s with counterHi := c.extractLsb' 32 32, counterLo := c.extractLsb' 0 32 }

/-- Write both halves of TS (R29, R113). -/
def State.setTimestamp (t : DWord) (s : State) : State :=
  { s with tsHi := t.extractLsb' 32 32, tsLo := t.extractLsb' 0 32 }

end Sys2Proof.Machine
end

