-- ==== Sys2Proof/Machine/Bus.lean ====
section
/-! DEFINITION. The bus slave: the window's layout, the registers' words, and the effect of one host access
(10_state.md R18 to R33, R43; 20_memory.md R45 to R57). -/

namespace Sys2Proof.Machine

/-! ### The window -/

/-- The offset of a register (R18). -/
def Reg.offset : Reg → Nat
  | .ctrl => 0x000
  | .status => 0x004
  | .cmd => 0x008
  | .txtLen => 0x00C
  | .keyLen => 0x010
  | .msgLen => 0x014
  | .outLen => 0x018
  | .digLen => 0x01C
  | .counterLo => 0x020
  | .counterHi => 0x024
  | .tsLo => 0x028
  | .tsHi => 0x02C
  | .code => 0x030
  | .truncBin => 0x034
  | .truncOff => 0x038
  | .param0 => 0x03C
  | .param1 => 0x040
  | .param2 => 0x044

/-- The registers, in the order of their offsets (R18). -/
def Reg.all : List Reg :=
  [.ctrl, .status, .cmd, .txtLen, .keyLen, .msgLen, .outLen, .digLen, .counterLo, .counterHi, .tsLo, .tsHi, .code,
    .truncBin, .truncOff, .param0, .param1, .param2]

/-- What a word access at an offset reaches: a register, a word inside a buffer's capacity (by its first byte's
index), or nothing, which reads 0 and ignores writes (R43, R46, R52). -/
inductive Target where
  | reg (r : Reg)
  | word (b : Buffer) (i : Nat)
  | nothing
  deriving DecidableEq, Repr

/-- The layout of the window (R46, R52). -/
def targetAt (off : Nat) : Target :=
  match Reg.all.find? (fun r => r.offset == off) with
  | some r => .reg r
  | none =>
    match Buffer.all.find? (fun b => b.holds off) with
    | some b => .word b (off - b.base)
    | none => .nothing

/-- `off = addr - BASE`, for an address in the window (R45). -/
def windowOffset (addr : Nat) : Option Nat :=
  if Config.base ≤ addr ∧ addr < Config.base + Config.windowSize then some (addr - Config.base) else none

/-! ### Words of registers and buffers -/

/-- PARAM0: TXT_CAP and KEY_CAP (R33). -/
def param0Word : Word := BitVec.ofNat 16 Config.keyCap ++ BitVec.ofNat 16 Config.txtCap

/-- PARAM1: MSG_CAP and OUT_CAP (R33). -/
def param1Word : Word := BitVec.ofNat 16 Config.outCap ++ BitVec.ofNat 16 Config.msgCap

/-- PARAM2: `B` and `DL` (R33). -/
def param2Word : Word := (0 : BitVec 16) ++ BitVec.ofNat 8 Config.digestLen ++ BitVec.ofNat 8 Config.blockSize

/-- The word a register reads as while no command is pending; reserved bits are 0 (R19 to R33, R43). -/
def State.regWord (r : Reg) (s : State) : Word :=
  match r with
  | .ctrl => s.ctrlWord
  | .status => s.statusWord
  | .cmd => s.cmd
  | .txtLen => s.txtLen.setWidth 32
  | .keyLen => s.keyLen.setWidth 32
  | .msgLen => s.msgLen.setWidth 32
  | .outLen => s.outLen.setWidth 32
  | .digLen => s.digLen.setWidth 32
  | .counterLo => s.counterLo
  | .counterHi => s.counterHi
  | .tsLo => s.tsLo
  | .tsHi => s.tsHi
  | .code => s.code.setWidth 32
  | .truncBin => s.truncBin.setWidth 32
  | .truncOff => s.truncOff.setWidth 32
  | .param0 => param0Word
  | .param1 => param1Word
  | .param2 => param2Word

/-- The word of 4 buffer bytes in little-endian lanes (R51). -/
def laneWord (bs : List Byte) : Word := bs.getD 3 0 ++ bs.getD 2 0 ++ bs.getD 1 0 ++ bs.getD 0 0

/-- The 4 bytes of a word in little-endian lanes (R51). -/
def laneBytes (v : Word) : List Byte :=
  [v.extractLsb' 0 8, v.extractLsb' 8 8, v.extractLsb' 16 8, v.extractLsb' 24 8]

/-! ### Reads -/

/-- The reads that return their defined value while a command is pending: CTRL, STATUS, PARAM0 to PARAM2 and every
offset that reads as zero (R57; log entry 12). -/
def Target.definedWhileBusy : Target → Bool
  | .reg .ctrl | .reg .status | .reg .param0 | .reg .param1 | .reg .param2 => true
  | .nothing => true
  | .reg _ => false
  | .word _ _ => false

/-- The value of a word read (R51, R52, R57). -/
def State.readTarget (t : Target) (s : State) : Word :=
  if s.busy && !t.definedWhileBusy then Config.freeWord s.wordDraws
  else
    match t with
    | .reg r => s.regWord r
    | .word b i => laneWord (s.bytesAt (b.base + i) 4)
    | .nothing => 0

/-- The state after a word read: no side effect on the block, only the counts of free draws move (R53). -/
def State.afterReadTarget (t : Target) (s : State) : State :=
  if s.busy && !t.definedWhileBusy then { s with wordDraws := s.wordDraws + 1 }
  else
    match t with
    | .reg _ => s
    | .word b i => s.afterRead (b.base + i) 4
    | .nothing => s

/-! ### Writes -/

/-- The writes that are ignored and set OVR while a command is pending (R56). -/
def Target.gatedWhileBusy : Target → Bool
  | .reg .cmd | .reg .txtLen | .reg .keyLen | .reg .msgLen => true
  | .reg .counterLo | .reg .counterHi | .reg .tsLo | .reg .tsHi => true
  | .word .txt _ | .word .key _ | .word .msg _ => true
  | .reg _ => false
  | .word .out _ | .word .dig _ => false
  | .nothing => false

/-- A write that reaches a register (R18, R19, R21 to R33): a CMD write accepts the word, read-only registers ignore
it, length fields keep bits 15 to 0 (R42). -/
def State.writeReg (r : Reg) (v : Word) (s : State) : State :=
  match r with
  | .ctrl => s.setCtrl v
  | .status => s.clearStatus v
  | .cmd => s.accept v
  | .txtLen => { s with txtLen := v.setWidth 16 }
  | .keyLen => { s with keyLen := v.setWidth 16 }
  | .msgLen => { s with msgLen := v.setWidth 16 }
  | .counterLo => { s with counterLo := v }
  | .counterHi => { s with counterHi := v }
  | .tsLo => { s with tsLo := v }
  | .tsHi => { s with tsHi := v }
  | .outLen | .digLen | .code | .truncBin | .truncOff => s
  | .param0 | .param1 | .param2 => s

/-- A write that reaches a buffer word; the windows OUT and DIG ignore it (R51, R53). -/
def State.writeWord (b : Buffer) (i : Nat) (v : Word) (s : State) : State :=
  match b with
  | .txt | .key | .msg => { s with mem := Memory.setRun s.mem (b.base + i) (laneBytes v) }
  | .out | .dig => s

/-- A word write (R53, R56). -/
def State.writeTarget (t : Target) (v : Word) (s : State) : State :=
  if s.busy && t.gatedWhileBusy then s.overrun
  else
    match t with
    | .reg r => s.writeReg r v
    | .word b i => s.writeWord b i v
    | .nothing => s

/-! ### One host access -/

/-- `MemRead(BASE + off, 4)`: the value (R12, R75's `lw`). -/
def State.loadValue (off : Nat) (s : State) : Word := s.readTarget (targetAt off)

/-- `MemRead(BASE + off, 4)`: the state after it, the value being the host's answer. -/
def State.load (off : Nat) (s : State) : State :=
  { s.afterReadTarget (targetAt off) with response := some (.data (s.loadValue off)) }

/-- `MemWrite(BASE + off, 4, v)` (R12, R75's `sw`). -/
def State.store (off : Nat) (v : Word) (s : State) : State :=
  { s.writeTarget (targetAt off) v with response := some .written }

/-- A bus error: an error response, the host fault recorded, and nothing else (R50, R138). -/
def State.busError (s : State) : State := { s with response := some .busError, hostFault := true }

/-- The access is one aligned 32-bit word (R48, R49). -/
def Access.supported (a : Access) (off : Nat) : Bool := a.size == .word && off % 4 == 0

/-- One access of a bus master (R45, R48 to R50, R54). -/
def hostAccess (a : Access) (s : State) : Host.Outcome State Fault Refusal :=
  match windowOffset a.addr with
  | none => .fault .outsideWindow
  | some off =>
    if a.supported off then
      match a.kind with
      | .read => .next (s.load off)
      | .write v => .next (s.store off v)
    else .next s.busError

end Sys2Proof.Machine
end

