-- ==== Sys2Proof/Machine/Base32.lean ====
section
/-! DEFINITION. B32ENC and B32DEC (40_base32_encoder.md, 41_base32_decoder.md). -/

namespace Sys2Proof.Machine

/-! ### The encoder -/

/-- `enc(v)`, the symbol map (R77). -/
def encSymbol (v : BitVec 5) : Byte :=
  if v.toNat ≤ 25 then BitVec.ofNat 8 (0x41 + v.toNat) else BitVec.ofNat 8 (0x32 + (v.toNat - 26))

/-- `L = ceil(8N/5) = (8N + 4) div 5`, the characters B32ENC writes (R79). -/
def encLength (n : Nat) : Nat := (8 * n + 4) / 5

/-- B32ENC (R78): one symbol per RNG request, in the order of the requests; no request on E_LENGTH (R134). -/
def execB32enc (n : Nat) (s : State) : Host.Outcome State Fault Refusal :=
  if encLength n > Config.outCap then .next (s.finish .length)
  else
    .next (((s.afterRng (encLength n)).storeOut ((s.rngValues (encLength n)).map encSymbol)).finish .ok)

/-! ### The decoder -/

/-- `val(c)`, the value map: letters of either case and 2 to 7 (R83; C1). -/
def symbolValue (c : Byte) : Option Nat :=
  if 0x41 ≤ c.toNat ∧ c.toNat ≤ 0x5A then some (c.toNat - 0x41)
  else if 0x61 ≤ c.toNat ∧ c.toNat ≤ 0x7A then some (c.toNat - 0x61)
  else if 0x32 ≤ c.toNat ∧ c.toNat ≤ 0x37 then some (c.toNat - 0x18)
  else none

/-- The padding byte `'='` (R85). -/
def padByte : Byte := 0x3D

/-- Space, tab, CR and LF, the whitespace the pre-pass removes, and no other (R84; N26). -/
def isStripped (c : Byte) : Bool := c == 0x20 || c == 0x09 || c == 0x0D || c == 0x0A

/-- `'0'` to `'O'`, `'1'` to `'L'`, `'8'` to `'B'` (R84). -/
def remap (c : Byte) : Byte :=
  if c = 0x30 then 0x4F else if c = 0x31 then 0x4C else if c = 0x38 then 0x42 else c

/-- The user-input pre-pass (R84). -/
def userPrep (t : List Byte) : List Byte := (t.filter fun c => !isStripped c).map remap

/-- The text the decoder processes (R84: only U = 1 applies the pre-pass). -/
def prepare : DecodeMode → List Byte → List Byte
  | .strict, t => t
  | .user, t => userPrep t

/-- The processing loop (R85 to R88) from an accumulator of `nb` bits: stop at the first `'='`, fail at a byte that
is no symbol, and emit the high-order 8 bits whenever 8 are buffered; the last bits are dropped. -/
def unpack : List Byte → Nat → Nat → Option (List Byte)
  | [], _, _ => some []
  | c :: t, acc, nb =>
    if c = padByte then some []
    else
      match symbolValue c with
      | none => none
      | some v =>
        if nb + 5 ≥ 8 then
          (unpack t ((acc <<< 5 ||| v) &&& ((1 <<< (nb + 5 - 8)) - 1)) (nb + 5 - 8)).map fun bs =>
            BitVec.ofNat 8 (((acc <<< 5 ||| v) >>> (nb + 5 - 8)) &&& 0xFF) :: bs
        else unpack t (acc <<< 5 ||| v) (nb + 5)

/-- Decode a text, or none where a processed byte is no symbol (R84 to R88). -/
def decodeText (mode : DecodeMode) (t : List Byte) : Option (List Byte) := unpack (prepare mode t) 0 0

/-- B32DEC (R89): the input length first, then the text, then the destination's capacity (R90, R136). -/
def execB32dec (mode : DecodeMode) (dest : Dest) (s : State) : Host.Outcome State Fault Refusal :=
  if s.txtLen.toNat > Config.txtCap then .next (s.finish .length)
  else
    match decodeText mode s.textBytes with
    | none => .next (s.afterText.finish .decode)
    | some bs =>
      if bs.length > destCap dest then .next (s.afterText.finish .length)
      else .next ((s.afterText.storeDecoded dest bs).finish .ok)

end Sys2Proof.Machine
end

