-- ==== Sys2Proof/Machine/Hash.lean ====
section
/-! DEFINITION. The hash collaborator `H` (10_state.md R36). The spec fixes it to SHA-1 for this hardware (R8, R93;
C4) and does not give SHA-1's definition (N5): the definition below is PRESUMED, from FIPS 180-4 (G1), and was held
against the spec's digests of 95_test_vectors.md (log entry 7). No other file opens it: the wrapper takes `H` as a
function argument. -/

namespace Sys2Proof.Machine

/-- `zeros(n)` (00_scope.md R10). -/
def zeros (n : Nat) : List Byte := List.replicate n 0

/-- `be64(c)`, the 8-byte big-endian encoding: byte `i` is `c[63-8i : 56-8i]` (00_scope.md R11). -/
def be64 (c : DWord) : List Byte := (List.range 8).map fun i => c.extractLsb' (56 - 8 * i) 8

/-- `be32(s, o)`, the big-endian value of the 4 bytes from index `o` on (00_scope.md R11). An index past the end of
`s` counts as 0; no rule reads one. -/
def be32 (s : List Byte) (o : Nat) : Nat :=
  (s.getD o 0).toNat * 2 ^ 24 + (s.getD (o + 1) 0).toNat * 2 ^ 16 + (s.getD (o + 2) 0).toNat * 2 ^ 8
    + (s.getD (o + 3) 0).toNat

/-- The five chaining words of SHA-1. -/
structure ShaState where
  a : Word
  b : Word
  c : Word
  d : Word
  e : Word
  deriving DecidableEq, Repr

/-- The initial chaining words. -/
def shaInit : ShaState := ⟨0x67452301, 0xEFCDAB89, 0x98BADCFE, 0x10325476, 0xC3D2E1F0⟩

/-- The padded message: a one bit, zero bits, and the bit length in 64 bits, to a multiple of 64 bytes. -/
def shaPad (m : List Byte) : List Byte :=
  m ++ 0x80 :: zeros ((119 - m.length % 64) % 64) ++ be64 (BitVec.ofNat 64 (8 * m.length))

/-- The round function of round `t`. -/
def shaF (t : Nat) (b c d : Word) : Word :=
  if t < 20 then (b &&& c) ||| (~~~b &&& d)
  else if t < 40 then b ^^^ c ^^^ d
  else if t < 60 then (b &&& c) ||| (b &&& d) ||| (c &&& d)
  else b ^^^ c ^^^ d

/-- The constant of round `t`. -/
def shaK (t : Nat) : Word :=
  if t < 20 then 0x5A827999
  else if t < 40 then 0x6ED9EBA1
  else if t < 60 then 0x8F1BBCDC
  else 0xCA62C1D6

/-- One round on the schedule word `w`. -/
def shaRound (t : Nat) (w : Word) (s : ShaState) : ShaState :=
  ⟨s.a.rotateLeft 5 + shaF t s.b s.c s.d + s.e + shaK t + w, s.a, s.b.rotateLeft 30, s.c, s.d⟩

/-- The schedule word 16 rounds after the first of the window. -/
def shaNext (ws : List Word) : Word :=
  (ws.getD 13 0 ^^^ ws.getD 8 0 ^^^ ws.getD 2 0 ^^^ ws.getD 0 0).rotateLeft 1

/-- `n` rounds from round `t` on, over the window of the next 16 schedule words. -/
def shaRounds : Nat → Nat → List Word → ShaState → ShaState
  | 0, _, _, s => s
  | n + 1, t, ws, s => shaRounds n (t + 1) (ws.drop 1 ++ [shaNext ws]) (shaRound t (ws.getD 0 0) s)

/-- One block of 64 bytes. -/
def shaBlock (blk : List Byte) (s : ShaState) : ShaState :=
  let r := shaRounds 80 0 ((List.range 16).map fun i => BitVec.ofNat 32 (be32 blk (4 * i))) s
  ⟨s.a + r.a, s.b + r.b, s.c + r.c, s.d + r.d, s.e + r.e⟩

/-- `n` blocks. -/
def shaBlocks : Nat → List Byte → ShaState → ShaState
  | 0, _, s => s
  | n + 1, m, s => shaBlocks n (m.drop 64) (shaBlock (m.take 64) s)

/-- The 4 bytes of a word, big-endian. -/
def wordBytes (w : Word) : List Byte :=
  [w.extractLsb' 24 8, w.extractLsb' 16 8, w.extractLsb' 8 8, w.extractLsb' 0 8]

/-- SHA-1, a byte string to 20 bytes. Irreducible, so that no proof about the wrapper opens it; the kernel still
evaluates it. -/
@[irreducible]
def sha1 (m : List Byte) : List Byte :=
  let p := shaPad m
  let s := shaBlocks (p.length / 64) p shaInit
  wordBytes s.a ++ wordBytes s.b ++ wordBytes s.c ++ wordBytes s.d ++ wordBytes s.e

/-- `H(s)`, one call of the hash collaborator: a total function of `s` alone that returns `DL` bytes (R12, R36). For
this hardware it is SHA-1 (R8). -/
def hashPort (s : List Byte) : List Byte := sha1 s

end Sys2Proof.Machine
end

