-- ==== Sys2Proof/Machine/Hmac.lean ====
section
/-! DEFINITION. The HMAC-SHA core wrapper (42_hmac.md). The construction takes the hash `H` as an argument (R36,
R93); the command gives it the collaborator port. -/

namespace Sys2Proof.Machine

/-- `s XOR p`, every byte with `p` (00_scope.md R10). -/
def xorAll (s : List Byte) (p : Byte) : List Byte := s.map (· ^^^ p)

/-- `K0`: a key longer than `B` bytes is hashed first, then zeros fill it to `B` bytes (R94, R98). -/
def paddedKey (H : List Byte → List Byte) (key : List Byte) : List Byte :=
  let k := if key.length > Config.blockSize then H key else key
  k ++ zeros (Config.blockSize - k.length)

/-- `hmac_core(key, data)`: the inner and the outer hash (R95). -/
def hmacCore (H : List Byte → List Byte) (key data : List Byte) : List Byte :=
  H (xorAll (paddedKey H key) 0x5C ++ H (xorAll (paddedKey H key) 0x36 ++ data))

/-- `hexchar(x)` of a nibble, lowercase (R97). -/
def hexChar (x : BitVec 4) : Byte :=
  if x.toNat ≤ 9 then BitVec.ofNat 8 (0x30 + x.toNat) else BitVec.ofNat 8 (0x61 + (x.toNat - 10))

/-- `hex(d)`: two characters a byte, the high nibble first (R97). -/
def hexBytes (d : List Byte) : List Byte :=
  d.flatMap fun b => [hexChar (b.extractLsb' 4 4), hexChar (b.extractLsb' 0 4)]

/-- X = 1 also writes the hex form to OUT (R96); X = 0 leaves OUT and OUT_LEN. -/
def State.storeHex (form : HmacForm) (d : List Byte) (s : State) : State :=
  match form with
  | .raw => s
  | .hex => s.storeOut (hexBytes d)

/-- The digest HMAC computes from a state: the key is read, then the message (R96). -/
def hmacDigest (s : State) : List Byte := hmacCore hashPort s.keyBytes s.afterKey.msgBytes

/-- HMAC (R96). -/
def execHmac (form : HmacForm) (s : State) : Host.Outcome State Fault Refusal :=
  if s.keyLen.toNat > Config.keyCap ∨ s.msgLen.toNat > Config.msgCap then .next (s.finish .length)
  else
    .next (((s.afterKey.afterMsg.storeDigest (hmacDigest s)).storeHex form (hmacDigest s)).finish .ok)

end Sys2Proof.Machine
end

