-- ==== Sys2Proof/Machine/Otp.lean ====
section
/-! DEFINITION. Dynamic truncation and HOTP (43_otp_truncation.md): TRUNC and HOTP. -/

namespace Sys2Proof.Machine

/-- The offset, the low 4 bits of digest byte 19 (R103). -/
def truncOffset (d : List Byte) : BitVec 4 := (d.getD 19 0).extractLsb' 0 4

/-- The 31-bit extract at the offset, `be32(d, off) & 0x7FFFFFFF` (R104). -/
def truncExtract (d : List Byte) : Nat := be32 d (truncOffset d).toNat &&& 0x7FFFFFFF

/-- `truncate(d)` of a digest of at least 20 bytes (R102, R105). -/
def truncate (d : List Byte) : Truncation where
  off := truncOffset d
  bin := BitVec.ofNat 31 (truncExtract d)
  code := BitVec.ofNat 20 (truncExtract d % Config.codeModulus)

/-- TRUNC (R106): E_DIGEST where DIG holds no 20-byte digest (R135). -/
def execTrunc (s : State) : Host.Outcome State Fault Refusal :=
  if s.digLen.toNat < 20 then .next (s.finish .digest)
  else .next ((s.afterDigest.storeTruncation (truncate s.digestBytes)).finish .ok)

/-- The digest HOTP computes from a state, over the 8-byte big-endian counter (R107, R108). -/
def hotpDigest (s : State) : List Byte := hmacCore hashPort s.keyBytes (be64 s.counter)

/-- HOTP (R108): the digest, then its truncation; COUNTER is not changed (R109). -/
def execHotp (s : State) : Host.Outcome State Fault Refusal :=
  if s.keyLen.toNat > Config.keyCap then .next (s.finish .length)
  else
    .next (((s.afterKey.storeDigest (hotpDigest s)).storeTruncation (truncate (hotpDigest s))).finish .ok)

end Sys2Proof.Machine
end

