-- ==== Sys2Proof/Machine/Totp.lean ====
section
/-! DEFINITION. The TOTP counter from a timestamp (44_totp_counter.md): TSTEP. -/

namespace Sys2Proof.Machine

/-- `t div 30`, the counter of a Unix timestamp (R111, R114). -/
def counterOf (t : DWord) : DWord := BitVec.ofNat 64 (t.toNat / Config.timeStep)

/-- With W = 1 one clock sample goes to TS first (R113); with W = 0 TS stands. -/
def State.sampleClock (source : TimeSource) (s : State) : State :=
  match source with
  | .ts => s
  | .now => s.afterClock.setTimestamp s.clockValue

/-- TSTEP (R112): no error is possible after the opcode check. -/
def execTstep (source : TimeSource) (s : State) : Host.Outcome State Fault Refusal :=
  .next (((s.sampleClock source).setCounter (counterOf (s.sampleClock source).timestamp)).finish .ok)

end Sys2Proof.Machine
end

