-- ==== Sys2Proof/Machine/Dispatch.lean ====
section
/-! DEFINITION. One arm per command: step 2 of the completion (60_exceptions.md R129). -/

namespace Sys2Proof.Machine

/-- What a command does at its completion step (R129). -/
def exec (i : Instr) (s : State) : Host.Outcome State Fault Refusal :=
  match i with
  | .b32enc n => Sys2Proof.Machine.execB32enc n s
  | .b32dec mode dest => Sys2Proof.Machine.execB32dec mode dest s
  | .hmac form => Sys2Proof.Machine.execHmac form s
  | .trunc => Sys2Proof.Machine.execTrunc s
  | .hotp => Sys2Proof.Machine.execHotp s
  | .tstep source => Sys2Proof.Machine.execTstep source s

end Sys2Proof.Machine
end

