-- ==== Sys2Proof/Machine/Engine.lean ====
section
/-! DEFINITION. The command engine's turn, and the choice of the agent that moves (00_scope.md R13; 20_memory.md
R58; 60_exceptions.md R129). -/

namespace Sys2Proof.Machine

/-- The completion step of the pending command (R129): decode it, run it, an illegal word ending in E_ILLEGAL with no
other effect (R71, R131). With nothing pending the engine has no step. -/
def engineTurn (s : State) : Host.Outcome State Fault Refusal :=
  match s.pending with
  | none => .next s
  | some w =>
    match decode w with
    | .ok i => exec i s
    | .error _ => .next (s.finish .illegal)

/-- One event around the block (R58). DESIGN CHOICE, unsafe: the reset input is one event, asserted and released at once,
so no host access falls while it is held; the spec gives the state on assertion and after release (R40, R149) and says
nothing of an access in between (log entry 24). -/
def runEvent (e : Event) (s : State) : Host.Outcome State Fault Refusal :=
  match e with
  | .hostAccess a => hostAccess a s
  | .engineTurn => engineTurn s
  | .resetInput => .next s.resetInput

/-- The agents in the order of the schedule; when no event is left the engine has its turn, so an accepted command
completes (weak fairness: R129, R150). -/
def runNext (s : State) : Host.Outcome State Fault Refusal :=
  match s.schedule with
  | [] => engineTurn s
  | e :: es => runEvent e { s with schedule := es }

/-- The state in which `w` is the accepted command and the engine's turn comes next: what a CMD write with BUSY = 0
leaves (R128). No host fault stands in it. -/
def State.withCommand (w : Word) (s : State) : State :=
  { s.accept w with schedule := .engineTurn :: s.schedule, hostFault := false }

end Sys2Proof.Machine
end

