-- ==== Sys2Proof/Machine/Step.lean ====
section
/-! DEFINITION. One step of the machine. -/

namespace Sys2Proof.Machine

/-- One step: a recorded host fault stops the machine (R50, I5); otherwise the agent that is next moves (R58). -/
def step (s : State) : Host.Outcome State Fault Refusal :=
  if s.hostFault then .fault .hostBusError else runNext s

/-- `s` with the command word of the opcode table's bits accepted, so that the next step completes it: the block
fetches no instruction, a host write to CMD supplies it (R17, R22, R128; log entry 9). -/
def State.withFetchWord (s : State) (nbits w : Nat) : State := s.withCommand (BitVec.ofNat 32 (w % 2 ^ nbits))

end Sys2Proof.Machine
end

