-- ==== Sys2Proof/Machine/Authenticator.lean ====
section
/-! DEFINITION. The host sequences of the Authenticator façade (45_host_sequences.md R116 to R127) over the block's
bus interface: software outside the block, which `step` never runs. The host polls after every command, so the order
of its accesses and the completion step is fixed, and a poll is the completion followed by the STATUS read that sees
BUSY = 0 (R75, R117). -/

namespace Sys2Proof.Machine

/-- How a host operation ends (R120, R126). -/
inductive HostResult (α : Type) where
  /-- It returns a value. -/
  | done (a : α) (s : State)
  /-- `InvalidSecretKey`, with the key text as its context (R120; N20). -/
  | invalidSecretKey (key : List Byte) (s : State)
  /-- The host refuses an input the hardware cannot represent (R120, R122; I14). -/
  | refused
  /-- A block error that a correct sequence cannot meet (R126). -/
  | hostFault
  deriving DecidableEq, Repr

/-- Go on with a returned value; the other endings end the sequence (R121). -/
def HostResult.andThen {α β : Type} (r : HostResult α) (k : α → State → HostResult β) : HostResult β :=
  match r with
  | .done a s => k a s
  | .invalidSecretKey key s => .invalidSecretKey key s
  | .refused => .refused
  | .hostFault => .hostFault

/-! ### Pseudo-operations (R75) -/

/-- `poll`: the final STATUS value. -/
def poll (s : State) : HostResult Word :=
  match engineTurn s with
  | .next t => .done (t.loadValue 0x004) (t.load 0x004)
  | .fault _ => .hostFault
  | .refused _ => .hostFault

/-- `run <command>`: the CMD write, then `poll`. -/
def runCommand (i : Instr) (s : State) : HostResult Word := poll (s.store 0x008 (encode i))

/-- STATUS bits 11 to 8 (R20). -/
def errField (status : Word) : Nat := (status.extractLsb' 8 4).toNat

/-- `run <command>` where any error is the host's fault (R126). -/
def runExpectOk (i : Instr) (s : State) : HostResult Unit :=
  (runCommand i s).andThen fun status t => if errField status = 0 then .done () t else .hostFault

/-- 4 bytes a word, the last one filled with 0x00. -/
def packWords : List Byte → List Word
  | [] => []
  | [a] => [laneWord [a]]
  | [a, b] => [laneWord [a, b]]
  | [a, b, c] => [laneWord [a, b, c]]
  | a :: b :: c :: d :: t => laneWord [a, b, c, d] :: packWords t

/-- `sw` of words at rising offsets. -/
def storeWords : Nat → List Word → State → State
  | _, [], s => s
  | off, w :: ws, s => storeWords (off + 4) ws (s.store off w)

/-- `wbuf WIN, LENOFF, bytes`. -/
def wbuf (win lenOff : Nat) (bytes : List Byte) (s : State) : State :=
  (storeWords win (packWords bytes) s).store lenOff (BitVec.ofNat 32 bytes.length)

/-- `lw` of `n` words at rising offsets: their bytes and the state after it. -/
def loadWords : Nat → Nat → State → List Byte × State
  | _, 0, s => ([], s)
  | off, n + 1, s =>
    (laneBytes (s.loadValue off) ++ (loadWords (off + 4) n (s.load off)).1,
      (loadWords (off + 4) n (s.load off)).2)

/-- `rbuf R, WIN, n`. -/
def rbuf (win n : Nat) (s : State) : List Byte × State :=
  ((loadWords win ((n + 3) / 4) s).1.take n, (loadWords win ((n + 3) / 4) s).2)

/-! ### The Authenticator -/

/-- `pretty(S)` of a 16-character secret: four groups of 4 characters, each followed by a space (R119). DESIGN CHOICE,
safe: of a string of another length it is a free value, for the spec leaves that open (N18; log entry 25). -/
def pretty (secret : List Byte) : List Byte :=
  if secret.length = 16 then
    secret.take 4 ++ [0x20] ++ (secret.drop 4).take 4 ++ [0x20] ++ (secret.drop 8).take 4 ++ [0x20]
      ++ (secret.drop 12).take 4 ++ [0x20]
  else Config.freePretty secret

/-- `generate_secret(pretty)` (R118). -/
def generateSecret (prettyForm : Bool) (s : State) : HostResult (List Byte) :=
  (runExpectOk (.b32enc 10) s).andThen fun _ t =>
    .done (if prettyForm then pretty (rbuf 0x1000 16 t).1 else (rbuf 0x1000 16 t).1) (rbuf 0x1000 16 t).2

/-- Key loading and validation (R120). -/
def loadKey (key : List Byte) (s : State) : HostResult Unit :=
  if key.length > Config.txtCap then .refused
  else
    (runCommand (.b32dec .user .key) (wbuf 0x0400 0x00C key s)).andThen fun _ t =>
      let e := errField (t.loadValue 0x004)
      let u := t.load 0x004
      let n := (u.loadValue 0x010).toNat
      let v := u.load 0x010
      if e = 2 then .invalidSecretKey key v
      else if e ≠ 0 then .hostFault
      else if n < 10 then .invalidSecretKey key v
      else .done () v

/-- The TSTEP of `get_code` and `check_code`: a given timestamp, or the wall clock (R122). A timestamp that 64
unsigned bits cannot hold is refused (D27). -/
def setCounterFrom (timestamp : Option Int) (s : State) : HostResult Unit :=
  match timestamp with
  | none => runExpectOk (.tstep .now) s
  | some t =>
    if 0 ≤ t ∧ t < 2 ^ 64 then
      runExpectOk (.tstep .ts)
        ((s.store 0x028 ((BitVec.ofInt 64 t).extractLsb' 0 32)).store 0x02C ((BitVec.ofInt 64 t).extractLsb' 32 32))
    else .refused

/-- `run hotp`, then the CODE register. -/
def readHotp (s : State) : HostResult Nat :=
  (runExpectOk .hotp s).andThen fun _ t => .done (t.loadValue 0x030).toNat (t.load 0x030)

/-- `get_code(key, timestamp)` (R122). -/
def getCode (key : List Byte) (timestamp : Option Int) (s : State) : HostResult Nat :=
  (loadKey key s).andThen fun _ t => (setCounterFrom timestamp t).andThen fun _ u => readHotp u

/-- Whether one of the counters gives the code, in order, stopping at the first that does (R123). -/
def tryCounters (code : Int) : List DWord → State → HostResult Bool
  | [], s => .done false s
  | c :: cs, s =>
    (readHotp ((s.store 0x020 (c.extractLsb' 0 32)).store 0x024 (c.extractLsb' 32 32))).andThen fun r t =>
      if (r : Int) = code then .done true t else tryCounters code cs t

/-- `c - 1`, `c`, `c + 1`, without those outside 0 to 2^64-1 (R123, R124). -/
def windowCounters (c : DWord) : List DWord :=
  (if 1 ≤ c.toNat then [c - 1] else []) ++ [c] ++ (if c.toNat + 1 < 2 ^ 64 then [c + 1] else [])

/-- `check_code(code, key, timestamp)` (R123). -/
def checkCode (code : Int) (key : List Byte) (timestamp : Option Int) (s : State) : HostResult Bool :=
  (loadKey key s).andThen fun _ t => (setCounterFrom timestamp t).andThen fun _ u =>
    let lo := u.loadValue 0x020
    let v := u.load 0x020
    let hi := v.loadValue 0x024
    tryCounters code (windowCounters (hi ++ lo)) (v.load 0x024)

/-- A code as exactly 6 decimal digits in ASCII (R125). DESIGN CHOICE, safe: of a number above 999999, which is no code
(R105), it gives the last 6 digits (log entry 25). -/
def displayCode (code : Nat) : List Byte :=
  (List.range 6).map fun i => BitVec.ofNat 8 (0x30 + code / 10 ^ (5 - i) % 10)

end Sys2Proof.Machine
end

