-- ==== Sys2Proof/Safety.lean ====
section
/-! DEFINITION. What counts as a safe run, in the terms the claims use: the events a host that keeps the bus
contract makes (20_memory.md R45, R48, R49; 45_host_sequences.md R127), and the invariant of the state. -/

namespace Sys2Proof.Machine

/-- The event keeps the bus contract: an access is one aligned 32-bit word inside the window. -/
def Event.keepsContract : Event → Bool
  | .hostAccess a =>
    match windowOffset a.addr with
    | some off => a.supported off
    | none => false
  | .engineTurn => true
  | .resetInput => true

/-- The event is not the reset input. -/
def Event.isNotReset : Event → Bool
  | .hostAccess _ => true
  | .engineTurn => true
  | .resetInput => false

/-- No host fault stands, and every event to come keeps the bus contract. -/
def State.contract (s : State) : Bool := !s.hostFault && s.schedule.all Event.keepsContract

/-- Bytes `[0, n)` of a buffer are written (R153's "inputs written"). -/
def State.written (b : Buffer) (n : Nat) (s : State) : Prop :=
  ∀ i, i < n → (Memory.get s.mem (b.base + i)).isSome = true

/-- What holds of the block at reset and after every step: memory is in its canonical form and lists buffer bytes
only; while a command is pending CMD holds its word, DONE is 0 and ERR is OK (R128); OUT_LEN is at most OUT_CAP
(R26); DIG_LEN is 0 or 20 (R27); CODE is TRUNC_BIN mod 1000000 (R105); and the bytes below OUT_LEN and DIG_LEN are
written (R34). -/
structure State.Inv (s : State) : Prop where
  memWf : Memory.wf s.mem = true
  memInBuffers : Memory.inBuffers s.mem = true
  pendingWord : ∀ w, s.pending = some w → s.cmd = w ∧ s.done = false ∧ s.err = .ok
  outLenBound : s.outLen.toNat ≤ Config.outCap
  digLenValue : s.digLen.toNat = 0 ∨ s.digLen.toNat = Config.digestLen
  codeOfBin : s.code.toNat = s.truncBin.toNat % Config.codeModulus
  outWritten : s.written .out s.outLen.toNat
  digWritten : s.written .dig s.digLen.toNat

/-! ### Values the claims speak of -/

/-- A symbol string read as one number, the first symbol in the most significant place (R55, R86). -/
def symbolsNumber (vs : List Nat) : Nat := vs.foldl (fun n v => n * 32 + v) 0

/-- A byte string read as one big-endian number. -/
def bytesNumber (bs : List Byte) : Nat := bs.foldl (fun n b => n * 256 + b.toNat) 0

/-- The bytes B32DEC processes: those before the first `'='` of the prepared text (R84, R85, R91). -/
def processed (mode : DecodeMode) (t : List Byte) : List Byte := (prepare mode t).takeWhile (· != padByte)

/-- The base of the window B32DEC writes (R68). -/
def destBase : Dest → Nat
  | .out => 0x1000
  | .key => 0x0800

/-- The length register B32DEC writes (R68). -/
def State.destLen (dest : Dest) (s : State) : BitVec 16 :=
  match dest with
  | .out => s.outLen
  | .key => s.keyLen

/-- The code of a key and a counter: `generate(raw_key, counter)` (R15, R108). -/
def hotpCode (key : List Byte) (c : DWord) : Nat := (truncate (hmacCore hashPort key (be64 c))).code.toNat

end Sys2Proof.Machine
end

