-- ==== Sys2Proof/Certificates/Slice0/Obligations.lean ====
section
/-! DEFINITION. The statements for the provers. Buffer bytes are named by their window offsets: TXT at 0x0400, KEY at
0x0800, MSG at 0x0C00, OUT at 0x1000, DIG at 0x1400 (20_memory.md R46). A frame is written as an equation: the state
after is the state before but for the fields named. The fields `byteDraws`, `wordDraws`, `rngDraws`, `clockDraws`,
`rngFeed`, `clockFeed`, `schedule` and `response` are the model's own (log entries 3 to 6, 10). -/

open Sys2Proof Sys2Proof.Machine

/-! ### Encoding -/

/-- Words written out from R74's examples and from the fields of R63, and illegal words of R66 and R71. -/
def Obligations.ExampleWordsDecode : Prop :=
  decode 0x00000A01 = .ok (.b32enc 10) ∧ decode 0x0000FF01 = .ok (.b32enc 255) ∧
  decode 0x00010002 = .ok (.b32dec .user .out) ∧ decode 0x00020002 = .ok (.b32dec .strict .key) ∧
  decode 0x00040003 = .ok (.hmac .hex) ∧ decode 0x00000004 = .ok .trunc ∧ decode 0x00000005 = .ok .hotp ∧
  decode 0x00080006 = .ok (.tstep .now) ∧
  decode 0x00010001 = .error .unusedFieldSet ∧ decode 0x00000102 = .error .unusedFieldSet ∧
  decode 0x80000005 = .error .unusedFieldSet ∧ decode 0x00000000 = .error .reservedOpcode ∧
  decode 0x00000007 = .error .reservedOpcode

/-- Decoding the word of a well-formed command gives the command back, with every operand. -/
def Obligations.DecodeOfEncodeIsTheCommand : Prop :=
  ∀ i : Instr, i.wellFormed = true → decode (encode i) = .ok i

/-- A word that decodes is the word its command encodes to: no bit of it is dropped, and the command is
well-formed. -/
def Obligations.EncodeOfDecodeIsTheWord : Prop :=
  ∀ (w : Word) (i : Instr), decode w = .ok i → i.wellFormed = true ∧ encode i = w

/-- The decoder follows the opcode map (R65, R73): no word matches two rows, a word spells a command exactly when it
matches a row, the row is that command's, and the operands are the bits of their fields (R64). -/
def Obligations.DecodeFollowsTheOpcodeMap : Prop :=
  ∀ w : Word,
    (∀ r ∈ opcodeTable, ∀ q ∈ opcodeTable, w &&& r.mask = r.pat → w &&& q.mask = q.pat → r = q) ∧
    ((∃ i, decode w = .ok i) ↔ ∃ r ∈ opcodeTable, w &&& r.mask = r.pat) ∧
    (∀ i, decode w = .ok i → w &&& i.row.mask = i.row.pat) ∧
    (∀ n, decode w = .ok (.b32enc n) → n = w.toNat / 2 ^ 8 % 2 ^ 8) ∧
    (∀ m d, decode w = .ok (.b32dec m d) →
      (m = .user ↔ w.toNat / 2 ^ 16 % 2 = 1) ∧ (d = .key ↔ w.toNat / 2 ^ 17 % 2 = 1)) ∧
    (∀ f, decode w = .ok (.hmac f) → (f = .hex ↔ w.toNat / 2 ^ 18 % 2 = 1)) ∧
    (∀ c, decode w = .ok (.tstep c) → (c = .now ↔ w.toNat / 2 ^ 19 % 2 = 1))

/-- From R66: 266 words are legal. -/
def Obligations.LegalWordsAreTwoHundredSixtySix : Prop :=
  ∃ words : List Word, words.Nodup ∧ words.length = 266 ∧ ∀ w, w ∈ words ↔ ∃ i, decode w = .ok i

/-! ### The life of a command -/

/-- The engine's step runs the decoded pending command (R129), when its turn stands in the schedule; of a word that
matches no row of the opcode map it is the completion with E_ILLEGAL (R71, R129, R131). Whatever is pending, a step at
the engine's turn is `engineTurn`, of which the command statements speak, and with nothing pending that turn changes
nothing. Three clauses are the model's choice: that the engine has its turn when no event is left, and that a turn with
nothing pending is a step (log entry 10), and that a word placed by `withFetchWord`, which also takes a host fault away,
is the command the next step runs (log entry 9). -/
def Obligations.StepRunsThePendingCommand : Prop :=
  (∀ (s : State) (w : Word) (i : Instr), s.hostFault = false → s.pending = some w → decode w = .ok i →
    (s.schedule = [] → step s = exec i s) ∧
    ∀ es, s.schedule = .engineTurn :: es → step s = exec i { s with schedule := es }) ∧
  (∀ (s : State) (w : Word) (es : List Event), s.hostFault = false → s.pending = some w →
    (∀ r ∈ opcodeTable, w &&& r.mask ≠ r.pat) → s.schedule = .engineTurn :: es →
    step s = .next { s with schedule := es, pending := none, done := true, err := .illegal }) ∧
  (∀ s : State, s.hostFault = false →
    (s.schedule = [] → step s = engineTurn s) ∧
    ∀ es, s.schedule = .engineTurn :: es → step s = engineTurn { s with schedule := es }) ∧
  (∀ s : State, s.pending = none → engineTurn s = .next s) ∧
  ∀ (s : State) (w : Word) (i : Instr), decode w = .ok i →
    step (s.withFetchWord 32 w.toNat) =
      exec i { s with cmd := w, pending := some w, done := false, err := .ok, hostFault := false }

/-- R128 and R56 for CMD: a write with BUSY = 0 accepts the word, whatever it is; one with BUSY = 1 is ignored and
sets OVR. -/
def Obligations.CmdWriteIsAcceptance : Prop :=
  ∀ (s : State) (v : Word),
    (s.pending = none →
      s.store 0x008 v =
        { s with cmd := v, pending := some v, done := false, err := .ok, response := some .written }) ∧
    (s.pending ≠ none → s.store 0x008 v = { s with ovr := true, response := some .written })

/-- Every command completes (R129): it answers a next state with BUSY = 0 and DONE = 1, and leaves alone what no
command writes: CTRL, OVR, CMD, TXT_LEN, MSG_LEN, and every byte outside KEY, OUT and DIG (R18's "written by", R34).
No command of the map ends in E_ILLEGAL. -/
def Obligations.EveryCommandCompletes : Prop :=
  ∀ (i : Instr) (s : State), ∃ t, exec i s = .next t ∧
    t.pending = none ∧ t.done = true ∧ t.err ≠ .illegal ∧
    t.ie = s.ie ∧ t.ovr = s.ovr ∧ t.cmd = s.cmd ∧ t.txtLen = s.txtLen ∧ t.msgLen = s.msgLen ∧
    t.schedule = s.schedule ∧ t.response = s.response ∧ t.hostFault = s.hostFault ∧
    ∀ a, Buffer.key.holds a = false → Buffer.out.holds a = false → Buffer.dig.holds a = false →
      Memory.get t.mem a = Memory.get s.mem a

/-- R134: a command that raises an error writes nothing but STATUS (BUSY, DONE, ERR). The count of free draws for
unwritten bytes, the model's own, may move: the failed command has read its text (log entry 17). -/
def Obligations.ErrorWritesOnlyStatus : Prop :=
  ∀ (s t : State) (w : Word), s.pending = some w → engineTurn s = .next t → t.err ≠ .ok →
    t = { s with pending := none, done := true, err := t.err, byteDraws := t.byteDraws }

/-- R131: E_ILLEGAL is reported exactly when the pending word matches no row of the opcode map, and then nothing but
STATUS changes. -/
def Obligations.IllegalWordEndsInEIllegal : Prop :=
  ∀ (s : State) (w : Word), s.pending = some w →
    ((∀ r ∈ opcodeTable, w &&& r.mask ≠ r.pat) →
      engineTurn s = .next { s with pending := none, done := true, err := .illegal }) ∧
    ∀ t, engineTurn s = .next t → t.err = .illegal → ∀ r ∈ opcodeTable, w &&& r.mask ≠ r.pat

/-- R133: E_LENGTH is reported in exactly these cases. -/
def Obligations.LengthErrorCases : Prop :=
  ∀ (i : Instr) (s t : State), exec i s = .next t →
    (t.err = .length ↔
      (∃ n, i = .b32enc n ∧ 512 < (8 * n + 4) / 5) ∨
      (∃ m d, i = .b32dec m d ∧
        (256 < s.txtLen.toNat ∨ ∃ bs, decodeText m s.textBytes = some bs ∧ destCap d < bs.length)) ∨
      (∃ f, i = .hmac f ∧ (256 < s.keyLen.toNat ∨ 256 < s.msgLen.toNat)) ∨
      (i = .hotp ∧ 256 < s.keyLen.toNat)) ∧
    (i.wellFormed = true → t.err = .length →
      (∃ m d, i = .b32dec m d ∧ 256 < s.txtLen.toNat) ∨
      (∃ f, i = .hmac f ∧ (256 < s.keyLen.toNat ∨ 256 < s.msgLen.toNat)) ∨
      (i = .hotp ∧ 256 < s.keyLen.toNat))

/-- R132, with R136's order: E_DECODE is reported only by B32DEC, exactly when TXT_LEN is within the capacity and a
byte before the first `'='` of the pre-passed text is no base32 symbol; and then there is no partial result. -/
def Obligations.DecodeErrorCases : Prop :=
  ∀ (i : Instr) (s t : State), exec i s = .next t →
    (t.err = .decode ↔
      ∃ m d, i = .b32dec m d ∧ s.txtLen.toNat ≤ 256 ∧
        ∃ c ∈ (prepare m s.textBytes).takeWhile (· != 0x3D), symbolValue c = none) ∧
    (t.err = .decode → t = { s with pending := none, done := true, err := .decode, byteDraws := t.byteDraws })

/-- From R135: E_DIGEST is reported only by TRUNC, when DIG_LEN < 20. -/
def Obligations.DigestErrorCases : Prop :=
  ∀ (i : Instr) (s t : State), exec i s = .next t →
    (t.err = .digest ↔ i = .trunc ∧ s.digLen.toNat < 20)

/-! ### B32ENC -/

/-- R77: the symbol map, and that the decoder's value map undoes it on uppercase letters and digits. -/
def Obligations.EncoderSymbolMap : Prop :=
  (∀ v : BitVec 5,
    (v.toNat ≤ 25 → (encSymbol v).toNat = 0x41 + v.toNat) ∧
    (26 ≤ v.toNat → (encSymbol v).toNat = 0x18 + v.toNat) ∧
    symbolValue (encSymbol v) = some v.toNat) ∧
  ∀ (c : Byte) (v : Nat), symbolValue c = some v → ¬ (0x61 ≤ c.toNat ∧ c.toNat ≤ 0x7A) →
    ∃ u : BitVec 5, u.toNat = v ∧ encSymbol u = c

/-- From R78 to R81, in every state: B32ENC makes one RNG request a character, request i giving character i, writes
exactly bytes [0, L) of OUT and OUT_LEN = L, and changes nothing else; none of its bytes is `'='`. Every N of the 8-bit
field has an output that fits. What the statement says of an N above 255, which no word encodes, is the model's choice
(log entry 22): the same effect where L is at most 512, and E_LENGTH with no request above that. -/
def Obligations.B32encWritesOneSymbolPerRequest : Prop :=
  (∀ n : Nat, (Instr.b32enc n).wellFormed = true → (8 * n + 4) / 5 ≤ 408) ∧
  ∀ (n : Nat) (s : State),
    ((8 * n + 4) / 5 ≤ 512 →
      ∃ t, exec (.b32enc n) s = .next t ∧
        t.outLen.toNat = (8 * n + 4) / 5 ∧
        (∀ i, i < (8 * n + 4) / 5 →
          Memory.get t.mem (0x1000 + i) = some (encSymbol (s.rngValue i)) ∧ encSymbol (s.rngValue i) ≠ 0x3D) ∧
        (∀ a, a < 0x1000 ∨ 0x1000 + (8 * n + 4) / 5 ≤ a → Memory.get t.mem a = Memory.get s.mem a) ∧
        t = { s with
          outLen := t.outLen, mem := t.mem
          rngFeed := s.rngFeed.drop ((8 * n + 4) / 5), rngDraws := s.rngDraws + (8 * n + 4) / 5
          pending := none, done := true, err := .ok }) ∧
    (512 < (8 * n + 4) / 5 →
      exec (.b32enc n) s = .next { s with pending := none, done := true, err := .length })

/-- From R82: the text B32ENC leaves in OUT, copied to TXT and decoded in either mode, gives exactly N bytes and no error,
and they are the first 8N bits of the drawn bits. TXT holds at most 256 characters. -/
def Obligations.EncodedTextDecodesToNBytes : Prop :=
  ∀ (n : Nat) (mode : DecodeMode) (dest : Dest) (s t u : State), (8 * n + 4) / 5 ≤ 256 →
    exec (.b32enc n) s = .next t →
    u.txtLen = t.outLen →
    (∀ i, i < t.outLen.toNat → Memory.get u.mem (0x0400 + i) = Memory.get t.mem (0x1000 + i)) →
    ∃ (v : State) (bs : List Byte), exec (.b32dec mode dest) u = .next v ∧ v.err = .ok ∧
      bs.length = n ∧ (v.destLen dest).toNat = n ∧
      (∀ i, i < n → Memory.get v.mem (destBase dest + i) = bs[i]?) ∧
      bytesNumber bs =
        symbolsNumber ((s.rngValues ((8 * n + 4) / 5)).map BitVec.toNat) / 2 ^ (5 * ((8 * n + 4) / 5) - 8 * n)

/-! ### B32DEC -/

/-- R83: the value map, case-insensitive in every mode. -/
def Obligations.DecoderValueMap : Prop :=
  ∀ (c : Byte) (v : Nat), symbolValue c = some v ↔
    v ≤ 25 ∧ (c.toNat = 0x41 + v ∨ c.toNat = 0x61 + v) ∨ 26 ≤ v ∧ v ≤ 31 ∧ c.toNat = 0x18 + v

/-- R84: the user-input pre-pass byte by byte, its absence in strict mode, and that its two sub-steps may change
places. -/
def Obligations.UserPrePass : Prop :=
  ∀ t : List Byte,
    prepare .strict t = t ∧
    prepare .user t = t.flatMap (fun c =>
      if c = 0x20 ∨ c = 0x09 ∨ c = 0x0D ∨ c = 0x0A then []
      else if c = 0x30 then [0x4F] else if c = 0x31 then [0x4C] else if c = 0x38 then [0x42] else [c]) ∧
    prepare .user t = (t.map remap).filter (fun c => !isStripped c)

/-- From R85 to R88 and R91: a text with an invalid byte before the first `'='` fails as a whole; any other gives
floor(5k/8) bytes for its k processed symbols, and those bytes, read as one number, are the symbols' bits,
most significant first, without the trailing 5k mod 8. -/
def Obligations.DecoderComputesTheBitString : Prop :=
  ∀ (mode : DecodeMode) (t : List Byte),
    ((∃ c ∈ processed mode t, symbolValue c = none) → decodeText mode t = none) ∧
    ∀ vs : List Nat, (processed mode t).map symbolValue = vs.map some →
      ∃ bs, decodeText mode t = some bs ∧ bs.length = 5 * vs.length / 8 ∧
        bytesNumber bs = symbolsNumber vs / 2 ^ (5 * vs.length % 8)

/-- From R89 and R92: with TXT_LEN within the capacity and a text that decodes, B32DEC completes without error, stores the
bytes and their length at the destination, and changes nothing else. With this hardware's capacities the bytes
always fit. -/
def Obligations.B32decStoresTheDecodedBytes : Prop :=
  ∀ (mode : DecodeMode) (dest : Dest) (s : State) (bs : List Byte), s.txtLen.toNat ≤ 256 →
    decodeText mode s.textBytes = some bs →
    bs.length ≤ 160 ∧
    ∃ t, exec (.b32dec mode dest) s = .next t ∧
      (t.destLen dest).toNat = bs.length ∧
      (∀ i, i < bs.length → Memory.get t.mem (destBase dest + i) = bs[i]?) ∧
      (∀ a, a < destBase dest ∨ destBase dest + bs.length ≤ a → Memory.get t.mem a = Memory.get s.mem a) ∧
      (dest = .out →
        t = { s with
          outLen := t.outLen, mem := t.mem, byteDraws := t.byteDraws
          pending := none, done := true, err := .ok }) ∧
      (dest = .key →
        t = { s with
          keyLen := t.keyLen, mem := t.mem, byteDraws := t.byteDraws
          pending := none, done := true, err := .ok })

/-- From R88 and R136: a TXT_LEN above the capacity ends in E_LENGTH before the text is read, and an invalid text in
E_DECODE; neither writes OUT, OUT_LEN, KEY, KEY_LEN or any byte. -/
def Obligations.B32decErrorsLeaveTheDestination : Prop :=
  ∀ (mode : DecodeMode) (dest : Dest) (s : State),
    (256 < s.txtLen.toNat →
      exec (.b32dec mode dest) s = .next { s with pending := none, done := true, err := .length }) ∧
    (s.txtLen.toNat ≤ 256 → decodeText mode s.textBytes = none →
      ∃ t, exec (.b32dec mode dest) s = .next t ∧
        t = { s with pending := none, done := true, err := .decode, byteDraws := t.byteDraws })

/-! ### HMAC -/

/-- R94, R95 and R98 for every hash with 20-byte digests: a key of at most 64 bytes is filled with zeros, a longer one
is hashed first, and the two hashes are taken over the padded key. -/
def Obligations.HmacConstruction : Prop :=
  ∀ (H : List Byte → List Byte) (key data : List Byte), (∀ m, (H m).length = 20) →
    (key.length ≤ 64 → ∃ k0, k0 = key ++ List.replicate (64 - key.length) 0 ∧ k0.length = 64 ∧
      hmacCore H key data = H (k0.map (· ^^^ 0x5C) ++ H (k0.map (· ^^^ 0x36) ++ data))) ∧
    (64 < key.length → ∃ k0, k0 = H key ++ List.replicate 44 0 ∧ k0.length = 64 ∧
      hmacCore H key data = H (k0.map (· ^^^ 0x5C) ++ H (k0.map (· ^^^ 0x36) ++ data)))

/-- R97: the hex form of a digest, two lowercase characters a byte, the high nibble first. -/
def Obligations.HexFormOfADigest : Prop :=
  ∀ d : List Byte, (hexBytes d).length = 2 * d.length ∧
    (∀ i (h : i < d.length),
      (hexBytes d)[2 * i]? = some (hexChar (d[i].extractLsb' 4 4)) ∧
      (hexBytes d)[2 * i + 1]? = some (hexChar (d[i].extractLsb' 0 4))) ∧
    ∀ x : BitVec 4, (x.toNat ≤ 9 → (hexChar x).toNat = 0x30 + x.toNat) ∧
      (10 ≤ x.toNat → (hexChar x).toNat = 0x61 + (x.toNat - 10))

/-- From R96: with both lengths within their capacities HMAC completes, writes the 20-byte HMAC of KEY and MSG to DIG and
20 to DIG_LEN, with X = 1 also its hex form to OUT and 40 to OUT_LEN, and changes nothing else; a longer key or message
ends in E_LENGTH with no other effect. -/
def Obligations.HmacWritesTheDigest : Prop :=
  ∀ (form : HmacForm) (s : State),
    (s.keyLen.toNat ≤ 256 → s.msgLen.toNat ≤ 256 →
      ∃ (t : State) (d : List Byte), exec (.hmac form) s = .next t ∧
        d = hmacCore hashPort s.keyBytes s.afterKey.msgBytes ∧ d.length = 20 ∧ t.digLen.toNat = 20 ∧
        (∀ i, i < 20 → Memory.get t.mem (0x1400 + i) = d[i]?) ∧
        (form = .hex → t.outLen.toNat = 40 ∧ ∀ i, i < 40 → Memory.get t.mem (0x1000 + i) = (hexBytes d)[i]?) ∧
        (form = .raw → t.outLen = s.outLen) ∧
        (∀ a, (a < 0x1400 ∨ 0x1400 + 20 ≤ a) → (form = .raw ∨ a < 0x1000 ∨ 0x1000 + 40 ≤ a) →
          Memory.get t.mem a = Memory.get s.mem a) ∧
        t = { s with
          digLen := t.digLen, outLen := t.outLen, mem := t.mem, byteDraws := t.byteDraws
          pending := none, done := true, err := .ok }) ∧
    (256 < s.keyLen.toNat ∨ 256 < s.msgLen.toNat →
      exec (.hmac form) s = .next { s with pending := none, done := true, err := .length })

/-! ### TRUNC and HOTP -/

/-- R103 to R105 on numbers, for every digest of at least 20 bytes: the offset is byte 19 mod 16, the extract is the
big-endian value of the 4 bytes there without bit 31, the code is the extract mod 1000000. -/
def Obligations.TruncationOfADigest : Prop :=
  ∀ d : List Byte, 20 ≤ d.length →
    ∃ b0 b1 b2 b3 b19 : Byte, d[19]? = some b19 ∧
      (truncate d).off.toNat = b19.toNat % 16 ∧
      d[(truncate d).off.toNat]? = some b0 ∧ d[(truncate d).off.toNat + 1]? = some b1 ∧
      d[(truncate d).off.toNat + 2]? = some b2 ∧ d[(truncate d).off.toNat + 3]? = some b3 ∧
      (truncate d).off.toNat + 3 ≤ 18 ∧
      (truncate d).bin.toNat =
        (b0.toNat * 2 ^ 24 + b1.toNat * 2 ^ 16 + b2.toNat * 2 ^ 8 + b3.toNat) % 2 ^ 31 ∧
      (truncate d).code.toNat = (truncate d).bin.toNat % 1000000

/-- From R106: with DIG_LEN at least 20, TRUNC completes and writes the truncation of DIG[0..20) to TRUNC_OFF, TRUNC_BIN
and CODE, and nothing else; with a smaller DIG_LEN it ends in E_DIGEST. -/
def Obligations.TruncWritesTheTruncation : Prop :=
  ∀ s : State,
    (20 ≤ s.digLen.toNat →
      ∃ t, exec .trunc s = .next t ∧
        t.truncOff = (truncate s.digestBytes).off ∧ t.truncBin = (truncate s.digestBytes).bin ∧
        t.code = (truncate s.digestBytes).code ∧ t.code.toNat ≤ 999999 ∧
        t = { s with
          truncOff := t.truncOff, truncBin := t.truncBin, code := t.code, byteDraws := t.byteDraws
          pending := none, done := true, err := .ok }) ∧
    (s.digLen.toNat < 20 → exec .trunc s = .next { s with pending := none, done := true, err := .digest })

/-- From R106's corner case: TRUNC does not change DIG, so a repeated TRUNC over a written digest gives the same state. -/
def Obligations.RepeatedTruncGivesTheSame : Prop :=
  ∀ s t : State, 20 ≤ s.digLen.toNat → s.written .dig 20 → exec .trunc s = .next t → exec .trunc t = .next t

/-- R107: the counter's 8 bytes, most significant first. -/
def Obligations.CounterMessageIsBigEndian : Prop :=
  ∀ c : DWord, (be64 c).length = 8 ∧ bytesNumber (be64 c) = c.toNat ∧
    ∀ i, i < 8 → (be64 c)[i]? = some (c.extractLsb' (56 - 8 * i) 8)

/-- From R108: with KEY_LEN within the capacity HOTP completes, writes the HMAC of KEY over the counter's 8 bytes to DIG
with DIG_LEN = 20, its truncation to TRUNC_OFF, TRUNC_BIN and CODE, and changes nothing else: COUNTER, MSG and OUT
stand. A longer key ends in E_LENGTH. -/
def Obligations.HotpWritesTheCode : Prop :=
  ∀ s : State,
    (s.keyLen.toNat ≤ 256 →
      ∃ (t : State) (d : List Byte), exec .hotp s = .next t ∧
        d = hmacCore hashPort s.keyBytes (be64 (s.counterHi ++ s.counterLo)) ∧ d.length = 20 ∧
        t.digLen.toNat = 20 ∧ (∀ i, i < 20 → Memory.get t.mem (0x1400 + i) = d[i]?) ∧
        (∀ a, a < 0x1400 ∨ 0x1400 + 20 ≤ a → Memory.get t.mem a = Memory.get s.mem a) ∧
        t.truncOff = (truncate d).off ∧ t.truncBin = (truncate d).bin ∧ t.code = (truncate d).code ∧
        t.code.toNat ≤ 999999 ∧
        t = { s with
          digLen := t.digLen, truncOff := t.truncOff, truncBin := t.truncBin, code := t.code, mem := t.mem
          byteDraws := t.byteDraws, pending := none, done := true, err := .ok }) ∧
    (256 < s.keyLen.toNat → exec .hotp s = .next { s with pending := none, done := true, err := .length })

/-- R109: HOTP is a function of KEY[0..KEY_LEN) and COUNTER: two states that agree on those, all else free, give
identical DIG bytes, TRUNC_OFF, TRUNC_BIN and CODE. -/
def Obligations.HotpDependsOnKeyAndCounterOnly : Prop :=
  ∀ s s' t t' : State, s.keyLen = s'.keyLen → s.keyLen.toNat ≤ 256 → s.counter = s'.counter →
    s.written .key s.keyLen.toNat →
    (∀ i, i < s.keyLen.toNat → Memory.get s.mem (0x0800 + i) = Memory.get s'.mem (0x0800 + i)) →
    exec .hotp s = .next t → exec .hotp s' = .next t' →
    t.truncOff = t'.truncOff ∧ t.truncBin = t'.truncBin ∧ t.code = t'.code ∧
    ∀ i, i < 20 → Memory.get t.mem (0x1400 + i) = Memory.get t'.mem (0x1400 + i)

/-- From R101: HOTP is HMAC over the counter's 8 bytes, then TRUNC. With those bytes in MSG and the key written, the two
ways give the same DIG, DIG_LEN, TRUNC_OFF, TRUNC_BIN and CODE. -/
def Obligations.HotpIsHmacThenTrunc : Prop :=
  ∀ s : State, s.keyLen.toNat ≤ 256 → s.written .key s.keyLen.toNat → s.msgLen.toNat = 8 →
    (∀ i, i < 8 → Memory.get s.mem (0x0C00 + i) = (be64 s.counter)[i]?) →
    ∃ t u v, exec (.hmac .raw) s = .next t ∧ exec .trunc t = .next u ∧ exec .hotp s = .next v ∧
      u.err = .ok ∧ v.err = .ok ∧
      u.digLen = v.digLen ∧ u.truncOff = v.truncOff ∧ u.truncBin = v.truncBin ∧ u.code = v.code ∧
      ∀ a, Memory.get u.mem a = Memory.get v.mem a

/-! ### TSTEP -/

/-- From R111 and R114: the counter of a timestamp is its floor quotient by 30, which always fits; the largest is
0x0888888888888888. R115: the timestamps 30c to 30c + 29 are those of the counter c. -/
def Obligations.TimestampBuckets : Prop :=
  ∀ t : DWord,
    (counterOf t).toNat = t.toNat / 30 ∧ (counterOf t).toNat ≤ 0x0888888888888888 ∧
    counterOf (BitVec.ofNat 64 (2 ^ 64 - 1)) = 0x0888888888888888 ∧
    ∀ c : Nat, (counterOf t).toNat = c ↔ 30 * c ≤ t.toNat ∧ t.toNat ≤ 30 * c + 29

/-- R112 and R113: TSTEP always completes. With W = 0 it writes COUNTER = TS div 30 and nothing else; with W = 1 it
makes one clock request, stores the sample in TS and writes COUNTER from it, and nothing else. -/
def Obligations.TstepWritesTheCounter : Prop :=
  ∀ s : State,
    (∃ t, exec (.tstep .ts) s = .next t ∧ t.counter.toNat = s.timestamp.toNat / 30 ∧
      t = { s with counterHi := t.counterHi, counterLo := t.counterLo, pending := none, done := true, err := .ok }) ∧
    (∃ t, exec (.tstep .now) s = .next t ∧ t.timestamp = s.clockValue ∧
      t.counter.toNat = s.clockValue.toNat / 30 ∧
      t = { s with
        tsHi := t.tsHi, tsLo := t.tsLo, counterHi := t.counterHi, counterLo := t.counterLo
        clockFeed := s.clockFeed.drop 1, clockDraws := s.clockDraws + 1
        pending := none, done := true, err := .ok })

/-! ### The bus -/

/-- R51, and R53 for the read-only windows: with BUSY = 0 a word written inside TXT, KEY or MSG lands in its four
bytes, lowest byte in the lowest lane, and touches nothing else; the windows OUT and DIG ignore it; and a word of any
buffer reads as its four written bytes in those lanes. -/
def Obligations.BufferWordsUseLittleEndianLanes : Prop :=
  ∀ (b : Buffer) (j : Nat) (v : Word) (s : State), s.pending = none → 4 * j < b.cap →
    (b = .txt ∨ b = .key ∨ b = .msg →
      ∃ t, s.store (b.base + 4 * j) v = t ∧
        (∀ k, k < 4 → Memory.get t.mem (b.base + 4 * j + k) = some (v.extractLsb' (8 * k) 8)) ∧
        (∀ a, a < b.base + 4 * j ∨ b.base + 4 * j + 4 ≤ a → Memory.get t.mem a = Memory.get s.mem a) ∧
        t = { s with mem := t.mem, response := some .written }) ∧
    (b = .out ∨ b = .dig → s.store (b.base + 4 * j) v = { s with response := some .written }) ∧
    ∀ b0 b1 b2 b3 : Byte,
      Memory.get s.mem (b.base + 4 * j) = some b0 → Memory.get s.mem (b.base + 4 * j + 1) = some b1 →
      Memory.get s.mem (b.base + 4 * j + 2) = some b2 → Memory.get s.mem (b.base + 4 * j + 3) = some b3 →
      s.loadValue (b.base + 4 * j) = b3 ++ b2 ++ b1 ++ b0

/-- From R43, R52 and R53: at a reserved offset, or above a buffer's capacity inside its window, a read gives 0 and a write
is ignored without OVR, whatever BUSY is. The reads above a capacity while BUSY = 1 rest on log entry 12. -/
def Obligations.ReservedOffsetsReadZeroIgnoreWrites : Prop :=
  ∀ (off : Nat) (v : Word) (s : State),
    (0x48 ≤ off ∧ off < 0x400) ∨ (0x500 ≤ off ∧ off < 0x800) ∨ (0x900 ≤ off ∧ off < 0xC00) ∨
      (0xD00 ≤ off ∧ off < 0x1000) ∨ (0x1200 ≤ off ∧ off < 0x1400) ∨ (0x1440 ≤ off ∧ off < 0x2000) →
    s.loadValue off = 0 ∧ s.load off = { s with response := some (.data 0) } ∧
      s.store off v = { s with response := some .written }

/-- From R53 and R56: a write to a read-only register or a read-only window is ignored, without OVR, whatever BUSY is. -/
def Obligations.ReadOnlyWritesAreIgnored : Prop :=
  ∀ (off : Nat) (v : Word) (s : State),
    off ∈ [0x018, 0x01C, 0x030, 0x034, 0x038, 0x03C, 0x040, 0x044] ∨ (0x1000 ≤ off ∧ off < 0x1800) →
    s.store off v = { s with response := some .written }

/-- R56: while BUSY = 1 a write to CMD, an input register or a word inside TXT, KEY or MSG changes nothing but OVR,
which it sets; writes to CTRL and STATUS take effect as ever; writes to read-only registers, read-only windows and
reserved offsets are ignored without OVR. -/
def Obligations.BusyWritesSetOverrun : Prop :=
  ∀ (off : Nat) (v : Word) (s : State), s.pending ≠ none →
    (off ∈ [0x008, 0x00C, 0x010, 0x014, 0x020, 0x024, 0x028, 0x02C] ∨ (0x400 ≤ off ∧ off < 0x500) ∨
        (0x800 ≤ off ∧ off < 0x900) ∨ (0xC00 ≤ off ∧ off < 0xD00) →
      s.store off v = { s with ovr := true, response := some .written }) ∧
    (off ∈ [0x018, 0x01C, 0x030, 0x034, 0x038, 0x03C, 0x040, 0x044] ∨ (0x48 ≤ off ∧ off < 0x400) ∨
        (0x1000 ≤ off ∧ off < 0x2000) →
      s.store off v = { s with response := some .written }) ∧
    s.store 0x000 v = { s with ie := v.getLsbD 0, response := some .written } ∧
    s.store 0x004 v =
      { s with
        done := s.done && !v.getLsbD 1, ovr := s.ovr && !v.getLsbD 2, response := some .written }

/-- From R57: while BUSY = 1 a read of CTRL, STATUS, PARAM0 to PARAM2 or a reserved offset gives its defined value; of any
other register or buffer word it gives a fresh free draw. -/
def Obligations.BusyReadsAreFreeDraws : Prop :=
  ∀ (off : Nat) (s : State), s.pending ≠ none →
    (off ∈ [0x008, 0x00C, 0x010, 0x014, 0x018, 0x01C, 0x020, 0x024, 0x028, 0x02C, 0x030, 0x034, 0x038] ∨
        (∃ b : Buffer, b.holds off = true) →
      s.loadValue off = Config.freeWord s.wordDraws ∧
        s.load off =
          { s with response := some (.data (s.loadValue off)), wordDraws := s.wordDraws + 1 }) ∧
    s.loadValue 0x000 = (BitVec.ofBool s.ie).setWidth 32 ∧ s.loadValue 0x004 = s.statusWord ∧
    s.loadValue 0x03C = 0x01000100 ∧ s.loadValue 0x040 = 0x02000100 ∧ s.loadValue 0x044 = 0x00001440 ∧
    ((0x48 ≤ off ∧ off < 0x400) ∨ (0x1800 ≤ off ∧ off < 0x2000) → s.loadValue off = 0)

/-- From R53: a read has no side effect: every field but the host's answer and the counts of free draws stands, and with
BUSY = 0 a second read of a register or of written bytes gives the same. -/
def Obligations.ReadsHaveNoSideEffect : Prop :=
  ∀ (off : Nat) (s : State),
    s.load off =
      { s with
        response := some (.data (s.loadValue off))
        byteDraws := (s.load off).byteDraws
        wordDraws := (s.load off).wordDraws } ∧
    (s.pending = none →
      (off < 0x400 ∨ ∀ k, k < 4 → (Memory.get s.mem (off + k)).isSome = true) →
      (s.load off).loadValue off = s.loadValue off)

/-- R49 and R50: a misaligned access, or one of another width than 32 bits, at any offset of the window changes no
register, buffer or flag, gives the host an error response and no data, and is recorded as a host fault, which no
event clears. -/
def Obligations.BusErrorsHaveNoEffect : Prop :=
  (∀ (off : Nat) (size : AccessSize) (kind : AccessKind) (s : State), off < 0x2000 →
    size ≠ .word ∨ off % 4 ≠ 0 →
    hostAccess ⟨size, Config.base + off, kind⟩ s =
      .next { s with response := some .busError, hostFault := true }) ∧
  ∀ (e : Event) (s t : State), s.hostFault = true → runEvent e s = .next t → t.hostFault = true

/-- From R45, R48, R53 and R54: an aligned access of one 32-bit word inside the window is what the load and store
statements speak of. A read answers the host with the word at its offset, a write stores, both as `State.load` and
`State.store` do, and both complete; and a step whose next event is the access makes exactly it. -/
def Obligations.SupportedAccessesLoadAndStore : Prop :=
  ∀ (off : Nat) (v : Word) (s : State), off < 0x2000 → off % 4 = 0 →
    hostAccess ⟨.word, Config.base + off, .read⟩ s = .next (s.load off) ∧
    hostAccess ⟨.word, Config.base + off, .write v⟩ s = .next (s.store off v) ∧
    (s.load off).response = some (.data (s.loadValue off)) ∧
    ∀ es : List Event, s.hostFault = false →
      step ({ s with schedule := .hostAccess ⟨.word, Config.base + off, .read⟩ :: es } : State) =
        .next (({ s with schedule := es } : State).load off) ∧
      step ({ s with schedule := .hostAccess ⟨.word, Config.base + off, .write v⟩ :: es } : State) =
        .next (({ s with schedule := es } : State).store off v)

/-- R20, R130 and R21: STATUS reads BUSY, DONE, OVR in bits 0 to 2 and ERR in bits 11 to 8, every other bit 0, whatever
BUSY is; ERR is 0 for OK, 1 for E_ILLEGAL, 2 for E_DECODE, 3 for E_LENGTH and 4 for E_DIGEST; a write clears DONE by bit 1 and OVR by bit 2 and changes nothing else. -/
def Obligations.StatusLayoutAndClear : Prop :=
  ∀ (s : State) (v : Word),
    (s.loadValue 0x004).toNat =
      (if s.pending = none then 0 else 1) + (if s.done then 2 else 0) + (if s.ovr then 4 else 0) +
        256 * ((if s.err = .illegal then 1 else 0) + (if s.err = .decode then 2 else 0) +
          (if s.err = .length then 3 else 0) + (if s.err = .digest then 4 else 0)) ∧
    (s.err = .ok → (s.loadValue 0x004).extractLsb' 8 4 = 0) ∧
    s.store 0x004 v =
      { s with
        done := s.done && !v.getLsbD 1, ovr := s.ovr && !v.getLsbD 2, response := some .written }

/-- R39 and R139: IRQ is asserted exactly while CTRL bit 0 and STATUS bit 1, as the host reads them, are both 1. R140:
a completion raises it under IE = 1, writing IE = 0 masks it without clearing DONE, writing IE = 1 with DONE = 1
asserts it, a write of 1 to STATUS bit 1 drops it, and so does an acceptance. -/
def Obligations.InterruptFollowsDone : Prop :=
  ∀ s : State,
    (s.irq = true ↔ (s.loadValue 0x000).getLsbD 0 = true ∧ (s.loadValue 0x004).getLsbD 1 = true) ∧
    (∀ t, s.pending ≠ none → engineTurn s = .next t → t.irq = s.ie) ∧
    (∀ v : Word, v.getLsbD 0 = false → (s.store 0x000 v).irq = false ∧ (s.store 0x000 v).done = s.done) ∧
    (∀ v : Word, v.getLsbD 0 = true → (s.store 0x000 v).irq = s.done) ∧
    (∀ v : Word, v.getLsbD 1 = true → (s.store 0x004 v).irq = false) ∧
    ∀ v : Word, s.pending = none → (s.store 0x008 v).irq = false

/-- R42 for the length registers; R28 and R29 for COUNTER and TS; R19 for CTRL; R22, R26, R27 and R30 to R32 for the
other registers that hold a value: with BUSY = 0 every register of these reads what it holds, its reserved
bits 0 (R57's last sentence); a write is read back, a length unclamped in its 16 bits, and changes that register only. -/
def Obligations.WrittenRegistersReadBack : Prop :=
  ∀ (s : State) (v : Word), s.pending = none →
    (s.loadValue 0x00C = s.txtLen.setWidth 32 ∧ s.loadValue 0x010 = s.keyLen.setWidth 32 ∧
      s.loadValue 0x014 = s.msgLen.setWidth 32 ∧ s.loadValue 0x020 = s.counterLo ∧ s.loadValue 0x024 = s.counterHi ∧
      s.loadValue 0x028 = s.tsLo ∧ s.loadValue 0x02C = s.tsHi) ∧
    (s.loadValue 0x008 = s.cmd ∧ s.loadValue 0x018 = s.outLen.setWidth 32 ∧ s.loadValue 0x01C = s.digLen.setWidth 32 ∧
      s.loadValue 0x030 = s.code.setWidth 32 ∧ s.loadValue 0x034 = s.truncBin.setWidth 32 ∧
      s.loadValue 0x038 = s.truncOff.setWidth 32) ∧
    ((s.store 0x00C v).loadValue 0x00C = v &&& 0xFFFF ∧
      s.store 0x00C v = { s with txtLen := v.setWidth 16, response := some .written }) ∧
    ((s.store 0x010 v).loadValue 0x010 = v &&& 0xFFFF ∧
      s.store 0x010 v = { s with keyLen := v.setWidth 16, response := some .written }) ∧
    ((s.store 0x014 v).loadValue 0x014 = v &&& 0xFFFF ∧
      s.store 0x014 v = { s with msgLen := v.setWidth 16, response := some .written }) ∧
    ((s.store 0x020 v).loadValue 0x020 = v ∧
      s.store 0x020 v = { s with counterLo := v, response := some .written }) ∧
    ((s.store 0x024 v).loadValue 0x024 = v ∧
      s.store 0x024 v = { s with counterHi := v, response := some .written }) ∧
    ((s.store 0x028 v).loadValue 0x028 = v ∧
      s.store 0x028 v = { s with tsLo := v, response := some .written }) ∧
    ((s.store 0x02C v).loadValue 0x02C = v ∧
      s.store 0x02C v = { s with tsHi := v, response := some .written }) ∧
    ((s.store 0x000 v).loadValue 0x000 = v &&& 1 ∧
      s.store 0x000 v = { s with ie := v.getLsbD 0, response := some .written })

/-- R33: the parameter registers read as their constants in every state, and writes to them are ignored. -/
def Obligations.ParameterRegisters : Prop :=
  ∀ (s : State) (v : Word),
    s.loadValue 0x03C = 0x01000100 ∧ s.loadValue 0x040 = 0x02000100 ∧ s.loadValue 0x044 = 0x00001440 ∧
    s.store 0x03C v = { s with response := some .written } ∧
    s.store 0x040 v = { s with response := some .written } ∧
    s.store 0x044 v = { s with response := some .written }

/-- From R44: a buffer byte that something has written is read as written; the first unwritten byte of a read is the next
free draw, and a read makes one draw for each unwritten byte. The idle host's read of a buffer word (R51, R53) is such a
read of its four bytes, written or not, in little-endian lanes. How the draws are counted is the model's (log
entry 3). -/
def Obligations.WrittenBytesAreRead : Prop :=
  ∀ (a n : Nat) (s : State),
    (s.bytesAt a n).length = n ∧
    (∀ i v, i < n → Memory.get s.mem (a + i) = some v → (s.bytesAt a n)[i]? = some v) ∧
    (∀ i, i < n → Memory.get s.mem (a + i) = none →
      (s.bytesAt a n)[i]? = some (Config.freeByte (s.byteDraws + Memory.unwritten s.mem a i))) ∧
    s.afterRead a n = { s with byteDraws := s.byteDraws + Memory.unwritten s.mem a n } ∧
    ((∀ i, i < n → (Memory.get s.mem (a + i)).isSome = true) → s.afterRead a n = s) ∧
    ∀ (b : Buffer) (j : Nat), s.pending = none → 4 * j < b.cap →
      s.loadValue (b.base + 4 * j) = laneWord (s.bytesAt (b.base + 4 * j) 4) ∧
      (∀ k, k < 4 →
        (s.bytesAt (b.base + 4 * j) 4)[k]? = some ((s.loadValue (b.base + 4 * j)).extractLsb' (8 * k) 8)) ∧
      s.load (b.base + 4 * j) =
        { s with
          response := some (.data (s.loadValue (b.base + 4 * j)))
          byteDraws := s.byteDraws + Memory.unwritten s.mem (b.base + 4 * j) 4 }

/-! ### Reset -/

/-- R149: what reset leaves: every register reads 0 but PARAM0 to PARAM2, no command is pending, IRQ is 0 and no buffer
byte has a value. -/
def Obligations.ResetValues : Prop :=
  (∀ r : Reg, State.reset.loadValue r.offset =
    if r = .param0 then 0x01000100 else if r = .param1 then 0x02000100 else if r = .param2 then 0x00001440
    else 0) ∧
  State.reset.pending = none ∧ State.reset.irq = false ∧ State.reset.counter = 0 ∧ State.reset.timestamp = 0 ∧
  ∀ a, Memory.get State.reset.mem a = none

/-- R40 and R151: the reset input in any state, a command pending or not, puts every register at its reset value, aborts
the command without DONE or IRQ and unwrites every buffer byte; R152: it makes no request to a collaborator. What the
model's own fields hold after it is left open. -/
def Obligations.ResetInputAbortsAndClears : Prop :=
  ∀ (s : State) (es : List Event), s.hostFault = false → s.schedule = .resetInput :: es →
    ∃ t, step s = .next t ∧ t.done = false ∧ t.irq = false ∧ (∀ a, Memory.get t.mem a = none) ∧
      t = { State.reset with
        schedule := t.schedule, response := t.response, byteDraws := t.byteDraws, wordDraws := t.wordDraws
        rngFeed := s.rngFeed, clockFeed := s.clockFeed, rngDraws := s.rngDraws, clockDraws := s.clockDraws }

/-! ### The whole machine -/

/-- The invariant of the block holds at reset. -/
def Obligations.ResetMeetsTheInvariant : Prop := State.reset.Inv

/-- Every step that answers a next state keeps the invariant of the block, from every state that has it. -/
def Obligations.StepKeepsTheInvariant : Prop :=
  ∀ s t : State, s.Inv → step s = .next t → t.Inv

/-- From R129's "these equal the values at acceptance" (derived there): while a command is pending, no host access changes
the pending word, a register the command reads or writes, or a buffer byte. -/
def Obligations.PendingInputsAreFrozen : Prop :=
  ∀ (s t : State) (a : Access), s.pending ≠ none → s.done = false → hostAccess a s = .next t →
    t = { s with
      ie := t.ie, ovr := t.ovr, response := t.response, hostFault := t.hostFault
      byteDraws := t.byteDraws, wordDraws := t.wordDraws }

/-- From R41: what sets and what clears each flag, over every step: BUSY is set by an accepted CMD write only and cleared by
a completion or reset; DONE is set by a completion only and cleared by an acceptance, a write of 1 to STATUS bit 1 or
reset; OVR is set by a write to CMD, an input register or a word inside TXT, KEY or MSG while BUSY = 1 (R56) and cleared
by a write of 1 to STATUS bit 2 or reset; ERR changes at a
completion, at an acceptance (to OK) or at reset; CTRL changes by a write to it or reset. That a completion also comes
with no event left is the model's choice (log entry 10). -/
def Obligations.FlagsChangeAsTheTableSays : Prop :=
  ∀ s t : State, step s = .next t →
    (∃ es, s.schedule = .resetInput :: es) ∨
    (s.pending ≠ none ∧ (s.schedule = [] ∨ ∃ es, s.schedule = .engineTurn :: es) ∧
      t.pending = none ∧ t.done = true ∧ t.ovr = s.ovr ∧ t.ie = s.ie) ∨
    (∃ v es, s.pending = none ∧ s.schedule = .hostAccess ⟨.word, Config.base + 0x008, .write v⟩ :: es ∧
      t.pending = some v ∧ t.cmd = v ∧ t.done = false ∧ t.err = .ok ∧ t.ovr = s.ovr ∧ t.ie = s.ie) ∨
    (∃ v es, s.schedule = .hostAccess ⟨.word, Config.base + 0x004, .write v⟩ :: es ∧
      t.pending = s.pending ∧ t.err = s.err ∧ t.ie = s.ie ∧
      t.done = (s.done && !v.getLsbD 1) ∧ t.ovr = (s.ovr && !v.getLsbD 2)) ∨
    (∃ v es, s.schedule = .hostAccess ⟨.word, Config.base + 0x000, .write v⟩ :: es ∧
      t.pending = s.pending ∧ t.err = s.err ∧ t.done = s.done ∧ t.ovr = s.ovr ∧ t.ie = v.getLsbD 0) ∨
    (∃ off v es, s.pending ≠ none ∧ s.schedule = .hostAccess ⟨.word, Config.base + off, .write v⟩ :: es ∧
      (off ∈ [0x008, 0x00C, 0x010, 0x014, 0x020, 0x024, 0x028, 0x02C] ∨ (0x400 ≤ off ∧ off < 0x500) ∨
        (0x800 ≤ off ∧ off < 0x900) ∨ (0xC00 ≤ off ∧ off < 0xD00)) ∧
      t.pending = s.pending ∧ t.err = s.err ∧ t.done = s.done ∧ t.ovr = true ∧ t.ie = s.ie) ∨
    (t.pending = s.pending ∧ t.err = s.err ∧ t.done = s.done ∧ t.ovr = s.ovr ∧ t.ie = s.ie)

/-- R137: a CMD write and the completion step in either order. If the write comes first it is ignored, with OVR set,
and the first command completes with the ERR it has without the write; if the completion comes first, the write is
accepted as a new command. -/
def Obligations.CmdWriteRacesCompletion : Prop :=
  ∀ (s : State) (w v : Word), s.hostFault = false → s.pending = some w → s.cmd = w →
    (∃ t u : State, core.run 2
        ({ s with schedule := [.hostAccess ⟨.word, Config.base + 0x008, .write v⟩, .engineTurn] } : State) = .next t ∧
      core.run 1 ({ s with schedule := [.engineTurn] } : State) = .next u ∧
      t.pending = none ∧ t.done = true ∧ t.err = u.err ∧ t.cmd = w ∧ t.ovr = true) ∧
    (∃ t : State, core.run 2
        ({ s with schedule := [.engineTurn, .hostAccess ⟨.word, Config.base + 0x008, .write v⟩] } : State) = .next t ∧
      t.pending = some v ∧ t.done = false ∧ t.err = .ok ∧ t.cmd = v ∧ t.ovr = s.ovr)

/-- From R129 and R150: an accepted command completes. Whatever the host does meanwhile within the bus contract, if the block
is not reset the command's completion comes within the events to come and one turn more, the turn the engine has when no
event is left (log entry 10). -/
def Obligations.AcceptedCommandCompletes : Prop :=
  ∀ s : State, s.pending ≠ none → s.contract = true → (s.schedule.all Event.isNotReset) = true →
    ∃ (k : Nat) (t : State), k ≤ s.schedule.length + 1 ∧ core.run k s = .next t ∧ t.pending = none ∧ t.done = true

/-- A host that keeps the bus contract never stops the machine: every step answers a next state in which the contract
still stands. Whatever the host does, a step stops only on a recorded bus error, on which it always stops, or an
address outside the window, and never refuses. The two stops are the model's (log entries 8 and 13; I5). -/
def Obligations.ContractNeverStops : Prop :=
  (∀ s : State, s.contract = true → ∃ t, step s = .next t ∧ t.contract = true) ∧
  (∀ s : State, s.hostFault = true → step s = .fault .hostBusError) ∧
  (∀ (s : State) (f : Fault), step s = .fault f →
    (f = .hostBusError ∧ s.hostFault = true) ∨
      (f = .outsideWindow ∧ ∃ a es, s.schedule = .hostAccess a :: es ∧ windowOffset a.addr = none)) ∧
  ∀ (s : State) (r : Refusal), step s ≠ .refused r

/-! ### The host's sequences -/

/-- From R118 and R119: generate_secret on an idle block returns the 16 characters of the next 16 RNG values, the pretty form
returns them in four groups each followed by a space, and both decode in user mode to the same 10 bytes. The host has the block to itself
(log entry 18). -/
def Obligations.GeneratedSecretsDecode : Prop :=
  ∀ s : State, s.pending = none →
    ∃ (t : State) (secret k : List Byte),
      generateSecret false s = .done secret t ∧ generateSecret true s = .done (pretty secret) t ∧
      secret = (s.rngValues 16).map encSymbol ∧ (pretty secret).length = 20 ∧
      decodeText .user secret = some k ∧ decodeText .user (pretty secret) = some k ∧ k.length = 10

/-- From R120 and R121: a key text that fails to decode, or decodes to fewer than 10 bytes, raises InvalidSecretKey with the
text, and get_code and check_code end there, with COUNTER and the digest as they were; a text longer than TXT_CAP is
refused by all three. The host has the block to itself (log entry 18). -/
def Obligations.InvalidKeysShortCircuit : Prop :=
  ∀ (key : List Byte) (s : State), s.pending = none →
    (key.length ≤ 256 →
      (decodeText .user key = none ∨ ∃ k, decodeText .user key = some k ∧ k.length < 10) →
      ∃ t, loadKey key s = .invalidSecretKey key t ∧
        (∀ ts, getCode key ts s = .invalidSecretKey key t) ∧
        (∀ code ts, checkCode code key ts s = .invalidSecretKey key t) ∧
        t.counter = s.counter ∧ t.digLen = s.digLen ∧ t.code = s.code ∧
        ∀ i, i < 64 → Memory.get t.mem (0x1400 + i) = Memory.get s.mem (0x1400 + i)) ∧
    (256 < key.length →
      loadKey key s = .refused ∧ (∀ ts, getCode key ts s = .refused) ∧ ∀ code ts, checkCode code key ts s = .refused)

/-- From R122: get_code on an idle block returns the code of the decoded key at the timestamp's counter, the timestamp given
or sampled from the wall clock; a timestamp that 64 unsigned bits cannot hold is refused. The host polls after each
command and has the block to itself (log entry 18). -/
def Obligations.GetCodeIsTheTimestampsCode : Prop :=
  ∀ (key k : List Byte) (s : State), s.pending = none → key.length ≤ 256 → decodeText .user key = some k →
    10 ≤ k.length →
    (∀ ts : Nat, ts < 2 ^ 64 →
      ∃ t, getCode key (some ts) s = .done (hotpCode k (BitVec.ofNat 64 (ts / 30))) t) ∧
    (∃ t, getCode key none s = .done (hotpCode k (BitVec.ofNat 64 (s.clockValue.toNat / 30))) t) ∧
    ∀ ts : Int, ts < 0 ∨ 2 ^ 64 ≤ ts → getCode key (some ts) s = .refused

/-- From R123 and R124: check_code on an idle block accepts exactly a code of the counters before, at and after the
timestamp's, leaving out counters outside 0 to 2^64-1; the timestamp is given, or sampled from the wall clock; one that
64 unsigned bits cannot hold is refused. The host polls after each command and has the block to itself (log entry
18). -/
def Obligations.CheckCodeAcceptsTheWindow : Prop :=
  ∀ (key k : List Byte) (code : Int) (s : State), s.pending = none → key.length ≤ 256 →
    decodeText .user key = some k → 10 ≤ k.length →
    (∀ ts : Nat, ts < 2 ^ 64 →
      ∃ (b : Bool) (t : State), checkCode code key (some ts) s = .done b t ∧
        (b = true ↔
          ∃ c : Nat, c < 2 ^ 64 ∧ c ≤ ts / 30 + 1 ∧ ts / 30 ≤ c + 1 ∧
            (hotpCode k (BitVec.ofNat 64 c) : Int) = code)) ∧
    (∃ (b : Bool) (t : State), checkCode code key none s = .done b t ∧
      (b = true ↔
        ∃ c : Nat, c < 2 ^ 64 ∧ c ≤ s.clockValue.toNat / 30 + 1 ∧ s.clockValue.toNat / 30 ≤ c + 1 ∧
          (hotpCode k (BitVec.ofNat 64 c) : Int) = code)) ∧
    ∀ ts : Int, ts < 0 ∨ 2 ^ 64 ≤ ts → checkCode code key (some ts) s = .refused

/-- R125: a code is shown as exactly 6 decimal digits, leading zeros kept. -/
def Obligations.CodesShowSixDigits : Prop :=
  ∀ code : Nat, code ≤ 999999 →
    (displayCode code).length = 6 ∧ (∀ b ∈ displayCode code, 0x30 ≤ b.toNat ∧ b.toNat ≤ 0x39) ∧
    (displayCode code).foldl (fun n b => n * 10 + (b.toNat - 0x30)) 0 = code
end

