-- ==== Sys2Proof/Laws/State.lean ====
section
/-! SUPPORT. What each named update does to each field of State: one lemma per field per update, so that no later
proof unfolds an update. -/

namespace Sys2Proof.Machine

variable (s : State)

/-! ### clearStatus -/

@[simp] theorem State.clearStatus_ie (v : Word) : (s.clearStatus v).ie = s.ie := (rfl)
@[simp] theorem State.clearStatus_done (v : Word) : (s.clearStatus v).done = (s.done && !v.getLsbD 1) := (rfl)
@[simp] theorem State.clearStatus_ovr (v : Word) : (s.clearStatus v).ovr = (s.ovr && !v.getLsbD 2) := (rfl)
@[simp] theorem State.clearStatus_err (v : Word) : (s.clearStatus v).err = s.err := (rfl)
@[simp] theorem State.clearStatus_cmd (v : Word) : (s.clearStatus v).cmd = s.cmd := (rfl)
@[simp] theorem State.clearStatus_txtLen (v : Word) : (s.clearStatus v).txtLen = s.txtLen := (rfl)
@[simp] theorem State.clearStatus_keyLen (v : Word) : (s.clearStatus v).keyLen = s.keyLen := (rfl)
@[simp] theorem State.clearStatus_msgLen (v : Word) : (s.clearStatus v).msgLen = s.msgLen := (rfl)
@[simp] theorem State.clearStatus_outLen (v : Word) : (s.clearStatus v).outLen = s.outLen := (rfl)
@[simp] theorem State.clearStatus_digLen (v : Word) : (s.clearStatus v).digLen = s.digLen := (rfl)
@[simp] theorem State.clearStatus_counterLo (v : Word) : (s.clearStatus v).counterLo = s.counterLo := (rfl)
@[simp] theorem State.clearStatus_counterHi (v : Word) : (s.clearStatus v).counterHi = s.counterHi := (rfl)
@[simp] theorem State.clearStatus_tsLo (v : Word) : (s.clearStatus v).tsLo = s.tsLo := (rfl)
@[simp] theorem State.clearStatus_tsHi (v : Word) : (s.clearStatus v).tsHi = s.tsHi := (rfl)
@[simp] theorem State.clearStatus_code (v : Word) : (s.clearStatus v).code = s.code := (rfl)
@[simp] theorem State.clearStatus_truncBin (v : Word) : (s.clearStatus v).truncBin = s.truncBin := (rfl)
@[simp] theorem State.clearStatus_truncOff (v : Word) : (s.clearStatus v).truncOff = s.truncOff := (rfl)
@[simp] theorem State.clearStatus_pending (v : Word) : (s.clearStatus v).pending = s.pending := (rfl)
@[simp] theorem State.clearStatus_mem (v : Word) : (s.clearStatus v).mem = s.mem := (rfl)
@[simp] theorem State.clearStatus_schedule (v : Word) : (s.clearStatus v).schedule = s.schedule := (rfl)
@[simp] theorem State.clearStatus_response (v : Word) : (s.clearStatus v).response = s.response := (rfl)
@[simp] theorem State.clearStatus_hostFault (v : Word) : (s.clearStatus v).hostFault = s.hostFault := (rfl)
@[simp] theorem State.clearStatus_rngFeed (v : Word) : (s.clearStatus v).rngFeed = s.rngFeed := (rfl)
@[simp] theorem State.clearStatus_clockFeed (v : Word) : (s.clearStatus v).clockFeed = s.clockFeed := (rfl)
@[simp] theorem State.clearStatus_rngDraws (v : Word) : (s.clearStatus v).rngDraws = s.rngDraws := (rfl)
@[simp] theorem State.clearStatus_clockDraws (v : Word) : (s.clearStatus v).clockDraws = s.clockDraws := (rfl)
@[simp] theorem State.clearStatus_byteDraws (v : Word) : (s.clearStatus v).byteDraws = s.byteDraws := (rfl)
@[simp] theorem State.clearStatus_wordDraws (v : Word) : (s.clearStatus v).wordDraws = s.wordDraws := (rfl)

/-! ### setCtrl -/

@[simp] theorem State.setCtrl_ie (v : Word) : (s.setCtrl v).ie = v.getLsbD 0 := (rfl)
@[simp] theorem State.setCtrl_done (v : Word) : (s.setCtrl v).done = s.done := (rfl)
@[simp] theorem State.setCtrl_ovr (v : Word) : (s.setCtrl v).ovr = s.ovr := (rfl)
@[simp] theorem State.setCtrl_err (v : Word) : (s.setCtrl v).err = s.err := (rfl)
@[simp] theorem State.setCtrl_cmd (v : Word) : (s.setCtrl v).cmd = s.cmd := (rfl)
@[simp] theorem State.setCtrl_txtLen (v : Word) : (s.setCtrl v).txtLen = s.txtLen := (rfl)
@[simp] theorem State.setCtrl_keyLen (v : Word) : (s.setCtrl v).keyLen = s.keyLen := (rfl)
@[simp] theorem State.setCtrl_msgLen (v : Word) : (s.setCtrl v).msgLen = s.msgLen := (rfl)
@[simp] theorem State.setCtrl_outLen (v : Word) : (s.setCtrl v).outLen = s.outLen := (rfl)
@[simp] theorem State.setCtrl_digLen (v : Word) : (s.setCtrl v).digLen = s.digLen := (rfl)
@[simp] theorem State.setCtrl_counterLo (v : Word) : (s.setCtrl v).counterLo = s.counterLo := (rfl)
@[simp] theorem State.setCtrl_counterHi (v : Word) : (s.setCtrl v).counterHi = s.counterHi := (rfl)
@[simp] theorem State.setCtrl_tsLo (v : Word) : (s.setCtrl v).tsLo = s.tsLo := (rfl)
@[simp] theorem State.setCtrl_tsHi (v : Word) : (s.setCtrl v).tsHi = s.tsHi := (rfl)
@[simp] theorem State.setCtrl_code (v : Word) : (s.setCtrl v).code = s.code := (rfl)
@[simp] theorem State.setCtrl_truncBin (v : Word) : (s.setCtrl v).truncBin = s.truncBin := (rfl)
@[simp] theorem State.setCtrl_truncOff (v : Word) : (s.setCtrl v).truncOff = s.truncOff := (rfl)
@[simp] theorem State.setCtrl_pending (v : Word) : (s.setCtrl v).pending = s.pending := (rfl)
@[simp] theorem State.setCtrl_mem (v : Word) : (s.setCtrl v).mem = s.mem := (rfl)
@[simp] theorem State.setCtrl_schedule (v : Word) : (s.setCtrl v).schedule = s.schedule := (rfl)
@[simp] theorem State.setCtrl_response (v : Word) : (s.setCtrl v).response = s.response := (rfl)
@[simp] theorem State.setCtrl_hostFault (v : Word) : (s.setCtrl v).hostFault = s.hostFault := (rfl)
@[simp] theorem State.setCtrl_rngFeed (v : Word) : (s.setCtrl v).rngFeed = s.rngFeed := (rfl)
@[simp] theorem State.setCtrl_clockFeed (v : Word) : (s.setCtrl v).clockFeed = s.clockFeed := (rfl)
@[simp] theorem State.setCtrl_rngDraws (v : Word) : (s.setCtrl v).rngDraws = s.rngDraws := (rfl)
@[simp] theorem State.setCtrl_clockDraws (v : Word) : (s.setCtrl v).clockDraws = s.clockDraws := (rfl)
@[simp] theorem State.setCtrl_byteDraws (v : Word) : (s.setCtrl v).byteDraws = s.byteDraws := (rfl)
@[simp] theorem State.setCtrl_wordDraws (v : Word) : (s.setCtrl v).wordDraws = s.wordDraws := (rfl)

/-! ### overrun -/

@[simp] theorem State.overrun_ie : (s.overrun).ie = s.ie := (rfl)
@[simp] theorem State.overrun_done : (s.overrun).done = s.done := (rfl)
@[simp] theorem State.overrun_ovr : (s.overrun).ovr = true := (rfl)
@[simp] theorem State.overrun_err : (s.overrun).err = s.err := (rfl)
@[simp] theorem State.overrun_cmd : (s.overrun).cmd = s.cmd := (rfl)
@[simp] theorem State.overrun_txtLen : (s.overrun).txtLen = s.txtLen := (rfl)
@[simp] theorem State.overrun_keyLen : (s.overrun).keyLen = s.keyLen := (rfl)
@[simp] theorem State.overrun_msgLen : (s.overrun).msgLen = s.msgLen := (rfl)
@[simp] theorem State.overrun_outLen : (s.overrun).outLen = s.outLen := (rfl)
@[simp] theorem State.overrun_digLen : (s.overrun).digLen = s.digLen := (rfl)
@[simp] theorem State.overrun_counterLo : (s.overrun).counterLo = s.counterLo := (rfl)
@[simp] theorem State.overrun_counterHi : (s.overrun).counterHi = s.counterHi := (rfl)
@[simp] theorem State.overrun_tsLo : (s.overrun).tsLo = s.tsLo := (rfl)
@[simp] theorem State.overrun_tsHi : (s.overrun).tsHi = s.tsHi := (rfl)
@[simp] theorem State.overrun_code : (s.overrun).code = s.code := (rfl)
@[simp] theorem State.overrun_truncBin : (s.overrun).truncBin = s.truncBin := (rfl)
@[simp] theorem State.overrun_truncOff : (s.overrun).truncOff = s.truncOff := (rfl)
@[simp] theorem State.overrun_pending : (s.overrun).pending = s.pending := (rfl)
@[simp] theorem State.overrun_mem : (s.overrun).mem = s.mem := (rfl)
@[simp] theorem State.overrun_schedule : (s.overrun).schedule = s.schedule := (rfl)
@[simp] theorem State.overrun_response : (s.overrun).response = s.response := (rfl)
@[simp] theorem State.overrun_hostFault : (s.overrun).hostFault = s.hostFault := (rfl)
@[simp] theorem State.overrun_rngFeed : (s.overrun).rngFeed = s.rngFeed := (rfl)
@[simp] theorem State.overrun_clockFeed : (s.overrun).clockFeed = s.clockFeed := (rfl)
@[simp] theorem State.overrun_rngDraws : (s.overrun).rngDraws = s.rngDraws := (rfl)
@[simp] theorem State.overrun_clockDraws : (s.overrun).clockDraws = s.clockDraws := (rfl)
@[simp] theorem State.overrun_byteDraws : (s.overrun).byteDraws = s.byteDraws := (rfl)
@[simp] theorem State.overrun_wordDraws : (s.overrun).wordDraws = s.wordDraws := (rfl)

/-! ### accept -/

@[simp] theorem State.accept_ie (w : Word) : (s.accept w).ie = s.ie := (rfl)
@[simp] theorem State.accept_done (w : Word) : (s.accept w).done = false := (rfl)
@[simp] theorem State.accept_ovr (w : Word) : (s.accept w).ovr = s.ovr := (rfl)
@[simp] theorem State.accept_err (w : Word) : (s.accept w).err = .ok := (rfl)
@[simp] theorem State.accept_cmd (w : Word) : (s.accept w).cmd = w := (rfl)
@[simp] theorem State.accept_txtLen (w : Word) : (s.accept w).txtLen = s.txtLen := (rfl)
@[simp] theorem State.accept_keyLen (w : Word) : (s.accept w).keyLen = s.keyLen := (rfl)
@[simp] theorem State.accept_msgLen (w : Word) : (s.accept w).msgLen = s.msgLen := (rfl)
@[simp] theorem State.accept_outLen (w : Word) : (s.accept w).outLen = s.outLen := (rfl)
@[simp] theorem State.accept_digLen (w : Word) : (s.accept w).digLen = s.digLen := (rfl)
@[simp] theorem State.accept_counterLo (w : Word) : (s.accept w).counterLo = s.counterLo := (rfl)
@[simp] theorem State.accept_counterHi (w : Word) : (s.accept w).counterHi = s.counterHi := (rfl)
@[simp] theorem State.accept_tsLo (w : Word) : (s.accept w).tsLo = s.tsLo := (rfl)
@[simp] theorem State.accept_tsHi (w : Word) : (s.accept w).tsHi = s.tsHi := (rfl)
@[simp] theorem State.accept_code (w : Word) : (s.accept w).code = s.code := (rfl)
@[simp] theorem State.accept_truncBin (w : Word) : (s.accept w).truncBin = s.truncBin := (rfl)
@[simp] theorem State.accept_truncOff (w : Word) : (s.accept w).truncOff = s.truncOff := (rfl)
@[simp] theorem State.accept_pending (w : Word) : (s.accept w).pending = some w := (rfl)
@[simp] theorem State.accept_mem (w : Word) : (s.accept w).mem = s.mem := (rfl)
@[simp] theorem State.accept_schedule (w : Word) : (s.accept w).schedule = s.schedule := (rfl)
@[simp] theorem State.accept_response (w : Word) : (s.accept w).response = s.response := (rfl)
@[simp] theorem State.accept_hostFault (w : Word) : (s.accept w).hostFault = s.hostFault := (rfl)
@[simp] theorem State.accept_rngFeed (w : Word) : (s.accept w).rngFeed = s.rngFeed := (rfl)
@[simp] theorem State.accept_clockFeed (w : Word) : (s.accept w).clockFeed = s.clockFeed := (rfl)
@[simp] theorem State.accept_rngDraws (w : Word) : (s.accept w).rngDraws = s.rngDraws := (rfl)
@[simp] theorem State.accept_clockDraws (w : Word) : (s.accept w).clockDraws = s.clockDraws := (rfl)
@[simp] theorem State.accept_byteDraws (w : Word) : (s.accept w).byteDraws = s.byteDraws := (rfl)
@[simp] theorem State.accept_wordDraws (w : Word) : (s.accept w).wordDraws = s.wordDraws := (rfl)

/-! ### finish -/

@[simp] theorem State.finish_ie (c : ErrCode) : (s.finish c).ie = s.ie := (rfl)
@[simp] theorem State.finish_done (c : ErrCode) : (s.finish c).done = true := (rfl)
@[simp] theorem State.finish_ovr (c : ErrCode) : (s.finish c).ovr = s.ovr := (rfl)
@[simp] theorem State.finish_err (c : ErrCode) : (s.finish c).err = c := (rfl)
@[simp] theorem State.finish_cmd (c : ErrCode) : (s.finish c).cmd = s.cmd := (rfl)
@[simp] theorem State.finish_txtLen (c : ErrCode) : (s.finish c).txtLen = s.txtLen := (rfl)
@[simp] theorem State.finish_keyLen (c : ErrCode) : (s.finish c).keyLen = s.keyLen := (rfl)
@[simp] theorem State.finish_msgLen (c : ErrCode) : (s.finish c).msgLen = s.msgLen := (rfl)
@[simp] theorem State.finish_outLen (c : ErrCode) : (s.finish c).outLen = s.outLen := (rfl)
@[simp] theorem State.finish_digLen (c : ErrCode) : (s.finish c).digLen = s.digLen := (rfl)
@[simp] theorem State.finish_counterLo (c : ErrCode) : (s.finish c).counterLo = s.counterLo := (rfl)
@[simp] theorem State.finish_counterHi (c : ErrCode) : (s.finish c).counterHi = s.counterHi := (rfl)
@[simp] theorem State.finish_tsLo (c : ErrCode) : (s.finish c).tsLo = s.tsLo := (rfl)
@[simp] theorem State.finish_tsHi (c : ErrCode) : (s.finish c).tsHi = s.tsHi := (rfl)
@[simp] theorem State.finish_code (c : ErrCode) : (s.finish c).code = s.code := (rfl)
@[simp] theorem State.finish_truncBin (c : ErrCode) : (s.finish c).truncBin = s.truncBin := (rfl)
@[simp] theorem State.finish_truncOff (c : ErrCode) : (s.finish c).truncOff = s.truncOff := (rfl)
@[simp] theorem State.finish_pending (c : ErrCode) : (s.finish c).pending = none := (rfl)
@[simp] theorem State.finish_mem (c : ErrCode) : (s.finish c).mem = s.mem := (rfl)
@[simp] theorem State.finish_schedule (c : ErrCode) : (s.finish c).schedule = s.schedule := (rfl)
@[simp] theorem State.finish_response (c : ErrCode) : (s.finish c).response = s.response := (rfl)
@[simp] theorem State.finish_hostFault (c : ErrCode) : (s.finish c).hostFault = s.hostFault := (rfl)
@[simp] theorem State.finish_rngFeed (c : ErrCode) : (s.finish c).rngFeed = s.rngFeed := (rfl)
@[simp] theorem State.finish_clockFeed (c : ErrCode) : (s.finish c).clockFeed = s.clockFeed := (rfl)
@[simp] theorem State.finish_rngDraws (c : ErrCode) : (s.finish c).rngDraws = s.rngDraws := (rfl)
@[simp] theorem State.finish_clockDraws (c : ErrCode) : (s.finish c).clockDraws = s.clockDraws := (rfl)
@[simp] theorem State.finish_byteDraws (c : ErrCode) : (s.finish c).byteDraws = s.byteDraws := (rfl)
@[simp] theorem State.finish_wordDraws (c : ErrCode) : (s.finish c).wordDraws = s.wordDraws := (rfl)

/-! ### afterRead -/

@[simp] theorem State.afterRead_ie (a n : Nat) : (s.afterRead a n).ie = s.ie := (rfl)
@[simp] theorem State.afterRead_done (a n : Nat) : (s.afterRead a n).done = s.done := (rfl)
@[simp] theorem State.afterRead_ovr (a n : Nat) : (s.afterRead a n).ovr = s.ovr := (rfl)
@[simp] theorem State.afterRead_err (a n : Nat) : (s.afterRead a n).err = s.err := (rfl)
@[simp] theorem State.afterRead_cmd (a n : Nat) : (s.afterRead a n).cmd = s.cmd := (rfl)
@[simp] theorem State.afterRead_txtLen (a n : Nat) : (s.afterRead a n).txtLen = s.txtLen := (rfl)
@[simp] theorem State.afterRead_keyLen (a n : Nat) : (s.afterRead a n).keyLen = s.keyLen := (rfl)
@[simp] theorem State.afterRead_msgLen (a n : Nat) : (s.afterRead a n).msgLen = s.msgLen := (rfl)
@[simp] theorem State.afterRead_outLen (a n : Nat) : (s.afterRead a n).outLen = s.outLen := (rfl)
@[simp] theorem State.afterRead_digLen (a n : Nat) : (s.afterRead a n).digLen = s.digLen := (rfl)
@[simp] theorem State.afterRead_counterLo (a n : Nat) : (s.afterRead a n).counterLo = s.counterLo := (rfl)
@[simp] theorem State.afterRead_counterHi (a n : Nat) : (s.afterRead a n).counterHi = s.counterHi := (rfl)
@[simp] theorem State.afterRead_tsLo (a n : Nat) : (s.afterRead a n).tsLo = s.tsLo := (rfl)
@[simp] theorem State.afterRead_tsHi (a n : Nat) : (s.afterRead a n).tsHi = s.tsHi := (rfl)
@[simp] theorem State.afterRead_code (a n : Nat) : (s.afterRead a n).code = s.code := (rfl)
@[simp] theorem State.afterRead_truncBin (a n : Nat) : (s.afterRead a n).truncBin = s.truncBin := (rfl)
@[simp] theorem State.afterRead_truncOff (a n : Nat) : (s.afterRead a n).truncOff = s.truncOff := (rfl)
@[simp] theorem State.afterRead_pending (a n : Nat) : (s.afterRead a n).pending = s.pending := (rfl)
@[simp] theorem State.afterRead_mem (a n : Nat) : (s.afterRead a n).mem = s.mem := (rfl)
@[simp] theorem State.afterRead_schedule (a n : Nat) : (s.afterRead a n).schedule = s.schedule := (rfl)
@[simp] theorem State.afterRead_response (a n : Nat) : (s.afterRead a n).response = s.response := (rfl)
@[simp] theorem State.afterRead_hostFault (a n : Nat) : (s.afterRead a n).hostFault = s.hostFault := (rfl)
@[simp] theorem State.afterRead_rngFeed (a n : Nat) : (s.afterRead a n).rngFeed = s.rngFeed := (rfl)
@[simp] theorem State.afterRead_clockFeed (a n : Nat) : (s.afterRead a n).clockFeed = s.clockFeed := (rfl)
@[simp] theorem State.afterRead_rngDraws (a n : Nat) : (s.afterRead a n).rngDraws = s.rngDraws := (rfl)
@[simp] theorem State.afterRead_clockDraws (a n : Nat) : (s.afterRead a n).clockDraws = s.clockDraws := (rfl)
@[simp] theorem State.afterRead_byteDraws (a n : Nat) : (s.afterRead a n).byteDraws = s.byteDraws + Memory.unwritten s.mem a n := (rfl)
@[simp] theorem State.afterRead_wordDraws (a n : Nat) : (s.afterRead a n).wordDraws = s.wordDraws := (rfl)

/-! ### writeBuffer -/

@[simp] theorem State.writeBuffer_ie (b : Buffer) (bs : List Byte) : (s.writeBuffer b bs).ie = s.ie := (rfl)
@[simp] theorem State.writeBuffer_done (b : Buffer) (bs : List Byte) : (s.writeBuffer b bs).done = s.done := (rfl)
@[simp] theorem State.writeBuffer_ovr (b : Buffer) (bs : List Byte) : (s.writeBuffer b bs).ovr = s.ovr := (rfl)
@[simp] theorem State.writeBuffer_err (b : Buffer) (bs : List Byte) : (s.writeBuffer b bs).err = s.err := (rfl)
@[simp] theorem State.writeBuffer_cmd (b : Buffer) (bs : List Byte) : (s.writeBuffer b bs).cmd = s.cmd := (rfl)
@[simp] theorem State.writeBuffer_txtLen (b : Buffer) (bs : List Byte) : (s.writeBuffer b bs).txtLen = s.txtLen := (rfl)
@[simp] theorem State.writeBuffer_keyLen (b : Buffer) (bs : List Byte) : (s.writeBuffer b bs).keyLen = s.keyLen := (rfl)
@[simp] theorem State.writeBuffer_msgLen (b : Buffer) (bs : List Byte) : (s.writeBuffer b bs).msgLen = s.msgLen := (rfl)
@[simp] theorem State.writeBuffer_outLen (b : Buffer) (bs : List Byte) : (s.writeBuffer b bs).outLen = s.outLen := (rfl)
@[simp] theorem State.writeBuffer_digLen (b : Buffer) (bs : List Byte) : (s.writeBuffer b bs).digLen = s.digLen := (rfl)
@[simp] theorem State.writeBuffer_counterLo (b : Buffer) (bs : List Byte) : (s.writeBuffer b bs).counterLo = s.counterLo := (rfl)
@[simp] theorem State.writeBuffer_counterHi (b : Buffer) (bs : List Byte) : (s.writeBuffer b bs).counterHi = s.counterHi := (rfl)
@[simp] theorem State.writeBuffer_tsLo (b : Buffer) (bs : List Byte) : (s.writeBuffer b bs).tsLo = s.tsLo := (rfl)
@[simp] theorem State.writeBuffer_tsHi (b : Buffer) (bs : List Byte) : (s.writeBuffer b bs).tsHi = s.tsHi := (rfl)
@[simp] theorem State.writeBuffer_code (b : Buffer) (bs : List Byte) : (s.writeBuffer b bs).code = s.code := (rfl)
@[simp] theorem State.writeBuffer_truncBin (b : Buffer) (bs : List Byte) : (s.writeBuffer b bs).truncBin = s.truncBin := (rfl)
@[simp] theorem State.writeBuffer_truncOff (b : Buffer) (bs : List Byte) : (s.writeBuffer b bs).truncOff = s.truncOff := (rfl)
@[simp] theorem State.writeBuffer_pending (b : Buffer) (bs : List Byte) : (s.writeBuffer b bs).pending = s.pending := (rfl)
@[simp] theorem State.writeBuffer_mem (b : Buffer) (bs : List Byte) : (s.writeBuffer b bs).mem = Memory.setRun s.mem b.base bs := (rfl)
@[simp] theorem State.writeBuffer_schedule (b : Buffer) (bs : List Byte) : (s.writeBuffer b bs).schedule = s.schedule := (rfl)
@[simp] theorem State.writeBuffer_response (b : Buffer) (bs : List Byte) : (s.writeBuffer b bs).response = s.response := (rfl)
@[simp] theorem State.writeBuffer_hostFault (b : Buffer) (bs : List Byte) : (s.writeBuffer b bs).hostFault = s.hostFault := (rfl)
@[simp] theorem State.writeBuffer_rngFeed (b : Buffer) (bs : List Byte) : (s.writeBuffer b bs).rngFeed = s.rngFeed := (rfl)
@[simp] theorem State.writeBuffer_clockFeed (b : Buffer) (bs : List Byte) : (s.writeBuffer b bs).clockFeed = s.clockFeed := (rfl)
@[simp] theorem State.writeBuffer_rngDraws (b : Buffer) (bs : List Byte) : (s.writeBuffer b bs).rngDraws = s.rngDraws := (rfl)
@[simp] theorem State.writeBuffer_clockDraws (b : Buffer) (bs : List Byte) : (s.writeBuffer b bs).clockDraws = s.clockDraws := (rfl)
@[simp] theorem State.writeBuffer_byteDraws (b : Buffer) (bs : List Byte) : (s.writeBuffer b bs).byteDraws = s.byteDraws := (rfl)
@[simp] theorem State.writeBuffer_wordDraws (b : Buffer) (bs : List Byte) : (s.writeBuffer b bs).wordDraws = s.wordDraws := (rfl)

/-! ### afterText -/

@[simp] theorem State.afterText_ie : (s.afterText).ie = s.ie := (rfl)
@[simp] theorem State.afterText_done : (s.afterText).done = s.done := (rfl)
@[simp] theorem State.afterText_ovr : (s.afterText).ovr = s.ovr := (rfl)
@[simp] theorem State.afterText_err : (s.afterText).err = s.err := (rfl)
@[simp] theorem State.afterText_cmd : (s.afterText).cmd = s.cmd := (rfl)
@[simp] theorem State.afterText_txtLen : (s.afterText).txtLen = s.txtLen := (rfl)
@[simp] theorem State.afterText_keyLen : (s.afterText).keyLen = s.keyLen := (rfl)
@[simp] theorem State.afterText_msgLen : (s.afterText).msgLen = s.msgLen := (rfl)
@[simp] theorem State.afterText_outLen : (s.afterText).outLen = s.outLen := (rfl)
@[simp] theorem State.afterText_digLen : (s.afterText).digLen = s.digLen := (rfl)
@[simp] theorem State.afterText_counterLo : (s.afterText).counterLo = s.counterLo := (rfl)
@[simp] theorem State.afterText_counterHi : (s.afterText).counterHi = s.counterHi := (rfl)
@[simp] theorem State.afterText_tsLo : (s.afterText).tsLo = s.tsLo := (rfl)
@[simp] theorem State.afterText_tsHi : (s.afterText).tsHi = s.tsHi := (rfl)
@[simp] theorem State.afterText_code : (s.afterText).code = s.code := (rfl)
@[simp] theorem State.afterText_truncBin : (s.afterText).truncBin = s.truncBin := (rfl)
@[simp] theorem State.afterText_truncOff : (s.afterText).truncOff = s.truncOff := (rfl)
@[simp] theorem State.afterText_pending : (s.afterText).pending = s.pending := (rfl)
@[simp] theorem State.afterText_mem : (s.afterText).mem = s.mem := (rfl)
@[simp] theorem State.afterText_schedule : (s.afterText).schedule = s.schedule := (rfl)
@[simp] theorem State.afterText_response : (s.afterText).response = s.response := (rfl)
@[simp] theorem State.afterText_hostFault : (s.afterText).hostFault = s.hostFault := (rfl)
@[simp] theorem State.afterText_rngFeed : (s.afterText).rngFeed = s.rngFeed := (rfl)
@[simp] theorem State.afterText_clockFeed : (s.afterText).clockFeed = s.clockFeed := (rfl)
@[simp] theorem State.afterText_rngDraws : (s.afterText).rngDraws = s.rngDraws := (rfl)
@[simp] theorem State.afterText_clockDraws : (s.afterText).clockDraws = s.clockDraws := (rfl)
@[simp] theorem State.afterText_byteDraws : (s.afterText).byteDraws = s.byteDraws + Memory.unwritten s.mem Buffer.txt.base s.txtLen.toNat := (rfl)
@[simp] theorem State.afterText_wordDraws : (s.afterText).wordDraws = s.wordDraws := (rfl)

/-! ### afterKey -/

@[simp] theorem State.afterKey_ie : (s.afterKey).ie = s.ie := (rfl)
@[simp] theorem State.afterKey_done : (s.afterKey).done = s.done := (rfl)
@[simp] theorem State.afterKey_ovr : (s.afterKey).ovr = s.ovr := (rfl)
@[simp] theorem State.afterKey_err : (s.afterKey).err = s.err := (rfl)
@[simp] theorem State.afterKey_cmd : (s.afterKey).cmd = s.cmd := (rfl)
@[simp] theorem State.afterKey_txtLen : (s.afterKey).txtLen = s.txtLen := (rfl)
@[simp] theorem State.afterKey_keyLen : (s.afterKey).keyLen = s.keyLen := (rfl)
@[simp] theorem State.afterKey_msgLen : (s.afterKey).msgLen = s.msgLen := (rfl)
@[simp] theorem State.afterKey_outLen : (s.afterKey).outLen = s.outLen := (rfl)
@[simp] theorem State.afterKey_digLen : (s.afterKey).digLen = s.digLen := (rfl)
@[simp] theorem State.afterKey_counterLo : (s.afterKey).counterLo = s.counterLo := (rfl)
@[simp] theorem State.afterKey_counterHi : (s.afterKey).counterHi = s.counterHi := (rfl)
@[simp] theorem State.afterKey_tsLo : (s.afterKey).tsLo = s.tsLo := (rfl)
@[simp] theorem State.afterKey_tsHi : (s.afterKey).tsHi = s.tsHi := (rfl)
@[simp] theorem State.afterKey_code : (s.afterKey).code = s.code := (rfl)
@[simp] theorem State.afterKey_truncBin : (s.afterKey).truncBin = s.truncBin := (rfl)
@[simp] theorem State.afterKey_truncOff : (s.afterKey).truncOff = s.truncOff := (rfl)
@[simp] theorem State.afterKey_pending : (s.afterKey).pending = s.pending := (rfl)
@[simp] theorem State.afterKey_mem : (s.afterKey).mem = s.mem := (rfl)
@[simp] theorem State.afterKey_schedule : (s.afterKey).schedule = s.schedule := (rfl)
@[simp] theorem State.afterKey_response : (s.afterKey).response = s.response := (rfl)
@[simp] theorem State.afterKey_hostFault : (s.afterKey).hostFault = s.hostFault := (rfl)
@[simp] theorem State.afterKey_rngFeed : (s.afterKey).rngFeed = s.rngFeed := (rfl)
@[simp] theorem State.afterKey_clockFeed : (s.afterKey).clockFeed = s.clockFeed := (rfl)
@[simp] theorem State.afterKey_rngDraws : (s.afterKey).rngDraws = s.rngDraws := (rfl)
@[simp] theorem State.afterKey_clockDraws : (s.afterKey).clockDraws = s.clockDraws := (rfl)
@[simp] theorem State.afterKey_byteDraws : (s.afterKey).byteDraws = s.byteDraws + Memory.unwritten s.mem Buffer.key.base s.keyLen.toNat := (rfl)
@[simp] theorem State.afterKey_wordDraws : (s.afterKey).wordDraws = s.wordDraws := (rfl)

/-! ### afterMsg -/

@[simp] theorem State.afterMsg_ie : (s.afterMsg).ie = s.ie := (rfl)
@[simp] theorem State.afterMsg_done : (s.afterMsg).done = s.done := (rfl)
@[simp] theorem State.afterMsg_ovr : (s.afterMsg).ovr = s.ovr := (rfl)
@[simp] theorem State.afterMsg_err : (s.afterMsg).err = s.err := (rfl)
@[simp] theorem State.afterMsg_cmd : (s.afterMsg).cmd = s.cmd := (rfl)
@[simp] theorem State.afterMsg_txtLen : (s.afterMsg).txtLen = s.txtLen := (rfl)
@[simp] theorem State.afterMsg_keyLen : (s.afterMsg).keyLen = s.keyLen := (rfl)
@[simp] theorem State.afterMsg_msgLen : (s.afterMsg).msgLen = s.msgLen := (rfl)
@[simp] theorem State.afterMsg_outLen : (s.afterMsg).outLen = s.outLen := (rfl)
@[simp] theorem State.afterMsg_digLen : (s.afterMsg).digLen = s.digLen := (rfl)
@[simp] theorem State.afterMsg_counterLo : (s.afterMsg).counterLo = s.counterLo := (rfl)
@[simp] theorem State.afterMsg_counterHi : (s.afterMsg).counterHi = s.counterHi := (rfl)
@[simp] theorem State.afterMsg_tsLo : (s.afterMsg).tsLo = s.tsLo := (rfl)
@[simp] theorem State.afterMsg_tsHi : (s.afterMsg).tsHi = s.tsHi := (rfl)
@[simp] theorem State.afterMsg_code : (s.afterMsg).code = s.code := (rfl)
@[simp] theorem State.afterMsg_truncBin : (s.afterMsg).truncBin = s.truncBin := (rfl)
@[simp] theorem State.afterMsg_truncOff : (s.afterMsg).truncOff = s.truncOff := (rfl)
@[simp] theorem State.afterMsg_pending : (s.afterMsg).pending = s.pending := (rfl)
@[simp] theorem State.afterMsg_mem : (s.afterMsg).mem = s.mem := (rfl)
@[simp] theorem State.afterMsg_schedule : (s.afterMsg).schedule = s.schedule := (rfl)
@[simp] theorem State.afterMsg_response : (s.afterMsg).response = s.response := (rfl)
@[simp] theorem State.afterMsg_hostFault : (s.afterMsg).hostFault = s.hostFault := (rfl)
@[simp] theorem State.afterMsg_rngFeed : (s.afterMsg).rngFeed = s.rngFeed := (rfl)
@[simp] theorem State.afterMsg_clockFeed : (s.afterMsg).clockFeed = s.clockFeed := (rfl)
@[simp] theorem State.afterMsg_rngDraws : (s.afterMsg).rngDraws = s.rngDraws := (rfl)
@[simp] theorem State.afterMsg_clockDraws : (s.afterMsg).clockDraws = s.clockDraws := (rfl)
@[simp] theorem State.afterMsg_byteDraws : (s.afterMsg).byteDraws = s.byteDraws + Memory.unwritten s.mem Buffer.msg.base s.msgLen.toNat := (rfl)
@[simp] theorem State.afterMsg_wordDraws : (s.afterMsg).wordDraws = s.wordDraws := (rfl)

/-! ### afterDigest -/

@[simp] theorem State.afterDigest_ie : (s.afterDigest).ie = s.ie := by simp only [State.afterDigest, State.afterRead]
@[simp] theorem State.afterDigest_done : (s.afterDigest).done = s.done := by simp only [State.afterDigest, State.afterRead]
@[simp] theorem State.afterDigest_ovr : (s.afterDigest).ovr = s.ovr := by simp only [State.afterDigest, State.afterRead]
@[simp] theorem State.afterDigest_err : (s.afterDigest).err = s.err := by simp only [State.afterDigest, State.afterRead]
@[simp] theorem State.afterDigest_cmd : (s.afterDigest).cmd = s.cmd := by simp only [State.afterDigest, State.afterRead]
@[simp] theorem State.afterDigest_txtLen : (s.afterDigest).txtLen = s.txtLen := by simp only [State.afterDigest, State.afterRead]
@[simp] theorem State.afterDigest_keyLen : (s.afterDigest).keyLen = s.keyLen := by simp only [State.afterDigest, State.afterRead]
@[simp] theorem State.afterDigest_msgLen : (s.afterDigest).msgLen = s.msgLen := by simp only [State.afterDigest, State.afterRead]
@[simp] theorem State.afterDigest_outLen : (s.afterDigest).outLen = s.outLen := by simp only [State.afterDigest, State.afterRead]
@[simp] theorem State.afterDigest_digLen : (s.afterDigest).digLen = s.digLen := by simp only [State.afterDigest, State.afterRead]
@[simp] theorem State.afterDigest_counterLo : (s.afterDigest).counterLo = s.counterLo := by simp only [State.afterDigest, State.afterRead]
@[simp] theorem State.afterDigest_counterHi : (s.afterDigest).counterHi = s.counterHi := by simp only [State.afterDigest, State.afterRead]
@[simp] theorem State.afterDigest_tsLo : (s.afterDigest).tsLo = s.tsLo := by simp only [State.afterDigest, State.afterRead]
@[simp] theorem State.afterDigest_tsHi : (s.afterDigest).tsHi = s.tsHi := by simp only [State.afterDigest, State.afterRead]
@[simp] theorem State.afterDigest_code : (s.afterDigest).code = s.code := by simp only [State.afterDigest, State.afterRead]
@[simp] theorem State.afterDigest_truncBin : (s.afterDigest).truncBin = s.truncBin := by simp only [State.afterDigest, State.afterRead]
@[simp] theorem State.afterDigest_truncOff : (s.afterDigest).truncOff = s.truncOff := by simp only [State.afterDigest, State.afterRead]
@[simp] theorem State.afterDigest_pending : (s.afterDigest).pending = s.pending := by simp only [State.afterDigest, State.afterRead]
@[simp] theorem State.afterDigest_mem : (s.afterDigest).mem = s.mem := by simp only [State.afterDigest, State.afterRead]
@[simp] theorem State.afterDigest_schedule : (s.afterDigest).schedule = s.schedule := by simp only [State.afterDigest, State.afterRead]
@[simp] theorem State.afterDigest_response : (s.afterDigest).response = s.response := by simp only [State.afterDigest, State.afterRead]
@[simp] theorem State.afterDigest_hostFault : (s.afterDigest).hostFault = s.hostFault := by simp only [State.afterDigest, State.afterRead]
@[simp] theorem State.afterDigest_rngFeed : (s.afterDigest).rngFeed = s.rngFeed := by simp only [State.afterDigest, State.afterRead]
@[simp] theorem State.afterDigest_clockFeed : (s.afterDigest).clockFeed = s.clockFeed := by simp only [State.afterDigest, State.afterRead]
@[simp] theorem State.afterDigest_rngDraws : (s.afterDigest).rngDraws = s.rngDraws := by simp only [State.afterDigest, State.afterRead]
@[simp] theorem State.afterDigest_clockDraws : (s.afterDigest).clockDraws = s.clockDraws := by simp only [State.afterDigest, State.afterRead]
@[simp] theorem State.afterDigest_byteDraws : (s.afterDigest).byteDraws = s.byteDraws + Memory.unwritten s.mem Buffer.dig.base Config.digestLen := by simp only [State.afterDigest, State.afterRead]
@[simp] theorem State.afterDigest_wordDraws : (s.afterDigest).wordDraws = s.wordDraws := by simp only [State.afterDigest, State.afterRead]

/-! ### afterRng -/

@[simp] theorem State.afterRng_ie (n : Nat) : (s.afterRng n).ie = s.ie := (rfl)
@[simp] theorem State.afterRng_done (n : Nat) : (s.afterRng n).done = s.done := (rfl)
@[simp] theorem State.afterRng_ovr (n : Nat) : (s.afterRng n).ovr = s.ovr := (rfl)
@[simp] theorem State.afterRng_err (n : Nat) : (s.afterRng n).err = s.err := (rfl)
@[simp] theorem State.afterRng_cmd (n : Nat) : (s.afterRng n).cmd = s.cmd := (rfl)
@[simp] theorem State.afterRng_txtLen (n : Nat) : (s.afterRng n).txtLen = s.txtLen := (rfl)
@[simp] theorem State.afterRng_keyLen (n : Nat) : (s.afterRng n).keyLen = s.keyLen := (rfl)
@[simp] theorem State.afterRng_msgLen (n : Nat) : (s.afterRng n).msgLen = s.msgLen := (rfl)
@[simp] theorem State.afterRng_outLen (n : Nat) : (s.afterRng n).outLen = s.outLen := (rfl)
@[simp] theorem State.afterRng_digLen (n : Nat) : (s.afterRng n).digLen = s.digLen := (rfl)
@[simp] theorem State.afterRng_counterLo (n : Nat) : (s.afterRng n).counterLo = s.counterLo := (rfl)
@[simp] theorem State.afterRng_counterHi (n : Nat) : (s.afterRng n).counterHi = s.counterHi := (rfl)
@[simp] theorem State.afterRng_tsLo (n : Nat) : (s.afterRng n).tsLo = s.tsLo := (rfl)
@[simp] theorem State.afterRng_tsHi (n : Nat) : (s.afterRng n).tsHi = s.tsHi := (rfl)
@[simp] theorem State.afterRng_code (n : Nat) : (s.afterRng n).code = s.code := (rfl)
@[simp] theorem State.afterRng_truncBin (n : Nat) : (s.afterRng n).truncBin = s.truncBin := (rfl)
@[simp] theorem State.afterRng_truncOff (n : Nat) : (s.afterRng n).truncOff = s.truncOff := (rfl)
@[simp] theorem State.afterRng_pending (n : Nat) : (s.afterRng n).pending = s.pending := (rfl)
@[simp] theorem State.afterRng_mem (n : Nat) : (s.afterRng n).mem = s.mem := (rfl)
@[simp] theorem State.afterRng_schedule (n : Nat) : (s.afterRng n).schedule = s.schedule := (rfl)
@[simp] theorem State.afterRng_response (n : Nat) : (s.afterRng n).response = s.response := (rfl)
@[simp] theorem State.afterRng_hostFault (n : Nat) : (s.afterRng n).hostFault = s.hostFault := (rfl)
@[simp] theorem State.afterRng_rngFeed (n : Nat) : (s.afterRng n).rngFeed = s.rngFeed.drop n := (rfl)
@[simp] theorem State.afterRng_clockFeed (n : Nat) : (s.afterRng n).clockFeed = s.clockFeed := (rfl)
@[simp] theorem State.afterRng_rngDraws (n : Nat) : (s.afterRng n).rngDraws = s.rngDraws + n := (rfl)
@[simp] theorem State.afterRng_clockDraws (n : Nat) : (s.afterRng n).clockDraws = s.clockDraws := (rfl)
@[simp] theorem State.afterRng_byteDraws (n : Nat) : (s.afterRng n).byteDraws = s.byteDraws := (rfl)
@[simp] theorem State.afterRng_wordDraws (n : Nat) : (s.afterRng n).wordDraws = s.wordDraws := (rfl)

/-! ### afterClock -/

@[simp] theorem State.afterClock_ie : (s.afterClock).ie = s.ie := (rfl)
@[simp] theorem State.afterClock_done : (s.afterClock).done = s.done := (rfl)
@[simp] theorem State.afterClock_ovr : (s.afterClock).ovr = s.ovr := (rfl)
@[simp] theorem State.afterClock_err : (s.afterClock).err = s.err := (rfl)
@[simp] theorem State.afterClock_cmd : (s.afterClock).cmd = s.cmd := (rfl)
@[simp] theorem State.afterClock_txtLen : (s.afterClock).txtLen = s.txtLen := (rfl)
@[simp] theorem State.afterClock_keyLen : (s.afterClock).keyLen = s.keyLen := (rfl)
@[simp] theorem State.afterClock_msgLen : (s.afterClock).msgLen = s.msgLen := (rfl)
@[simp] theorem State.afterClock_outLen : (s.afterClock).outLen = s.outLen := (rfl)
@[simp] theorem State.afterClock_digLen : (s.afterClock).digLen = s.digLen := (rfl)
@[simp] theorem State.afterClock_counterLo : (s.afterClock).counterLo = s.counterLo := (rfl)
@[simp] theorem State.afterClock_counterHi : (s.afterClock).counterHi = s.counterHi := (rfl)
@[simp] theorem State.afterClock_tsLo : (s.afterClock).tsLo = s.tsLo := (rfl)
@[simp] theorem State.afterClock_tsHi : (s.afterClock).tsHi = s.tsHi := (rfl)
@[simp] theorem State.afterClock_code : (s.afterClock).code = s.code := (rfl)
@[simp] theorem State.afterClock_truncBin : (s.afterClock).truncBin = s.truncBin := (rfl)
@[simp] theorem State.afterClock_truncOff : (s.afterClock).truncOff = s.truncOff := (rfl)
@[simp] theorem State.afterClock_pending : (s.afterClock).pending = s.pending := (rfl)
@[simp] theorem State.afterClock_mem : (s.afterClock).mem = s.mem := (rfl)
@[simp] theorem State.afterClock_schedule : (s.afterClock).schedule = s.schedule := (rfl)
@[simp] theorem State.afterClock_response : (s.afterClock).response = s.response := (rfl)
@[simp] theorem State.afterClock_hostFault : (s.afterClock).hostFault = s.hostFault := (rfl)
@[simp] theorem State.afterClock_rngFeed : (s.afterClock).rngFeed = s.rngFeed := (rfl)
@[simp] theorem State.afterClock_clockFeed : (s.afterClock).clockFeed = s.clockFeed.drop 1 := (rfl)
@[simp] theorem State.afterClock_rngDraws : (s.afterClock).rngDraws = s.rngDraws := (rfl)
@[simp] theorem State.afterClock_clockDraws : (s.afterClock).clockDraws = s.clockDraws + 1 := (rfl)
@[simp] theorem State.afterClock_byteDraws : (s.afterClock).byteDraws = s.byteDraws := (rfl)
@[simp] theorem State.afterClock_wordDraws : (s.afterClock).wordDraws = s.wordDraws := (rfl)

/-! ### storeOut -/

@[simp] theorem State.storeOut_ie (bs : List Byte) : (s.storeOut bs).ie = s.ie := (rfl)
@[simp] theorem State.storeOut_done (bs : List Byte) : (s.storeOut bs).done = s.done := (rfl)
@[simp] theorem State.storeOut_ovr (bs : List Byte) : (s.storeOut bs).ovr = s.ovr := (rfl)
@[simp] theorem State.storeOut_err (bs : List Byte) : (s.storeOut bs).err = s.err := (rfl)
@[simp] theorem State.storeOut_cmd (bs : List Byte) : (s.storeOut bs).cmd = s.cmd := (rfl)
@[simp] theorem State.storeOut_txtLen (bs : List Byte) : (s.storeOut bs).txtLen = s.txtLen := (rfl)
@[simp] theorem State.storeOut_keyLen (bs : List Byte) : (s.storeOut bs).keyLen = s.keyLen := (rfl)
@[simp] theorem State.storeOut_msgLen (bs : List Byte) : (s.storeOut bs).msgLen = s.msgLen := (rfl)
@[simp] theorem State.storeOut_outLen (bs : List Byte) : (s.storeOut bs).outLen = BitVec.ofNat 16 bs.length := (rfl)
@[simp] theorem State.storeOut_digLen (bs : List Byte) : (s.storeOut bs).digLen = s.digLen := (rfl)
@[simp] theorem State.storeOut_counterLo (bs : List Byte) : (s.storeOut bs).counterLo = s.counterLo := (rfl)
@[simp] theorem State.storeOut_counterHi (bs : List Byte) : (s.storeOut bs).counterHi = s.counterHi := (rfl)
@[simp] theorem State.storeOut_tsLo (bs : List Byte) : (s.storeOut bs).tsLo = s.tsLo := (rfl)
@[simp] theorem State.storeOut_tsHi (bs : List Byte) : (s.storeOut bs).tsHi = s.tsHi := (rfl)
@[simp] theorem State.storeOut_code (bs : List Byte) : (s.storeOut bs).code = s.code := (rfl)
@[simp] theorem State.storeOut_truncBin (bs : List Byte) : (s.storeOut bs).truncBin = s.truncBin := (rfl)
@[simp] theorem State.storeOut_truncOff (bs : List Byte) : (s.storeOut bs).truncOff = s.truncOff := (rfl)
@[simp] theorem State.storeOut_pending (bs : List Byte) : (s.storeOut bs).pending = s.pending := (rfl)
@[simp] theorem State.storeOut_mem (bs : List Byte) : (s.storeOut bs).mem = Memory.setRun s.mem Buffer.out.base bs := (rfl)
@[simp] theorem State.storeOut_schedule (bs : List Byte) : (s.storeOut bs).schedule = s.schedule := (rfl)
@[simp] theorem State.storeOut_response (bs : List Byte) : (s.storeOut bs).response = s.response := (rfl)
@[simp] theorem State.storeOut_hostFault (bs : List Byte) : (s.storeOut bs).hostFault = s.hostFault := (rfl)
@[simp] theorem State.storeOut_rngFeed (bs : List Byte) : (s.storeOut bs).rngFeed = s.rngFeed := (rfl)
@[simp] theorem State.storeOut_clockFeed (bs : List Byte) : (s.storeOut bs).clockFeed = s.clockFeed := (rfl)
@[simp] theorem State.storeOut_rngDraws (bs : List Byte) : (s.storeOut bs).rngDraws = s.rngDraws := (rfl)
@[simp] theorem State.storeOut_clockDraws (bs : List Byte) : (s.storeOut bs).clockDraws = s.clockDraws := (rfl)
@[simp] theorem State.storeOut_byteDraws (bs : List Byte) : (s.storeOut bs).byteDraws = s.byteDraws := (rfl)
@[simp] theorem State.storeOut_wordDraws (bs : List Byte) : (s.storeOut bs).wordDraws = s.wordDraws := (rfl)

/-! ### storeKey -/

@[simp] theorem State.storeKey_ie (bs : List Byte) : (s.storeKey bs).ie = s.ie := (rfl)
@[simp] theorem State.storeKey_done (bs : List Byte) : (s.storeKey bs).done = s.done := (rfl)
@[simp] theorem State.storeKey_ovr (bs : List Byte) : (s.storeKey bs).ovr = s.ovr := (rfl)
@[simp] theorem State.storeKey_err (bs : List Byte) : (s.storeKey bs).err = s.err := (rfl)
@[simp] theorem State.storeKey_cmd (bs : List Byte) : (s.storeKey bs).cmd = s.cmd := (rfl)
@[simp] theorem State.storeKey_txtLen (bs : List Byte) : (s.storeKey bs).txtLen = s.txtLen := (rfl)
@[simp] theorem State.storeKey_keyLen (bs : List Byte) : (s.storeKey bs).keyLen = BitVec.ofNat 16 bs.length := (rfl)
@[simp] theorem State.storeKey_msgLen (bs : List Byte) : (s.storeKey bs).msgLen = s.msgLen := (rfl)
@[simp] theorem State.storeKey_outLen (bs : List Byte) : (s.storeKey bs).outLen = s.outLen := (rfl)
@[simp] theorem State.storeKey_digLen (bs : List Byte) : (s.storeKey bs).digLen = s.digLen := (rfl)
@[simp] theorem State.storeKey_counterLo (bs : List Byte) : (s.storeKey bs).counterLo = s.counterLo := (rfl)
@[simp] theorem State.storeKey_counterHi (bs : List Byte) : (s.storeKey bs).counterHi = s.counterHi := (rfl)
@[simp] theorem State.storeKey_tsLo (bs : List Byte) : (s.storeKey bs).tsLo = s.tsLo := (rfl)
@[simp] theorem State.storeKey_tsHi (bs : List Byte) : (s.storeKey bs).tsHi = s.tsHi := (rfl)
@[simp] theorem State.storeKey_code (bs : List Byte) : (s.storeKey bs).code = s.code := (rfl)
@[simp] theorem State.storeKey_truncBin (bs : List Byte) : (s.storeKey bs).truncBin = s.truncBin := (rfl)
@[simp] theorem State.storeKey_truncOff (bs : List Byte) : (s.storeKey bs).truncOff = s.truncOff := (rfl)
@[simp] theorem State.storeKey_pending (bs : List Byte) : (s.storeKey bs).pending = s.pending := (rfl)
@[simp] theorem State.storeKey_mem (bs : List Byte) : (s.storeKey bs).mem = Memory.setRun s.mem Buffer.key.base bs := (rfl)
@[simp] theorem State.storeKey_schedule (bs : List Byte) : (s.storeKey bs).schedule = s.schedule := (rfl)
@[simp] theorem State.storeKey_response (bs : List Byte) : (s.storeKey bs).response = s.response := (rfl)
@[simp] theorem State.storeKey_hostFault (bs : List Byte) : (s.storeKey bs).hostFault = s.hostFault := (rfl)
@[simp] theorem State.storeKey_rngFeed (bs : List Byte) : (s.storeKey bs).rngFeed = s.rngFeed := (rfl)
@[simp] theorem State.storeKey_clockFeed (bs : List Byte) : (s.storeKey bs).clockFeed = s.clockFeed := (rfl)
@[simp] theorem State.storeKey_rngDraws (bs : List Byte) : (s.storeKey bs).rngDraws = s.rngDraws := (rfl)
@[simp] theorem State.storeKey_clockDraws (bs : List Byte) : (s.storeKey bs).clockDraws = s.clockDraws := (rfl)
@[simp] theorem State.storeKey_byteDraws (bs : List Byte) : (s.storeKey bs).byteDraws = s.byteDraws := (rfl)
@[simp] theorem State.storeKey_wordDraws (bs : List Byte) : (s.storeKey bs).wordDraws = s.wordDraws := (rfl)

/-! ### storeDigest -/

@[simp] theorem State.storeDigest_ie (d : List Byte) : (s.storeDigest d).ie = s.ie := (rfl)
@[simp] theorem State.storeDigest_done (d : List Byte) : (s.storeDigest d).done = s.done := (rfl)
@[simp] theorem State.storeDigest_ovr (d : List Byte) : (s.storeDigest d).ovr = s.ovr := (rfl)
@[simp] theorem State.storeDigest_err (d : List Byte) : (s.storeDigest d).err = s.err := (rfl)
@[simp] theorem State.storeDigest_cmd (d : List Byte) : (s.storeDigest d).cmd = s.cmd := (rfl)
@[simp] theorem State.storeDigest_txtLen (d : List Byte) : (s.storeDigest d).txtLen = s.txtLen := (rfl)
@[simp] theorem State.storeDigest_keyLen (d : List Byte) : (s.storeDigest d).keyLen = s.keyLen := (rfl)
@[simp] theorem State.storeDigest_msgLen (d : List Byte) : (s.storeDigest d).msgLen = s.msgLen := (rfl)
@[simp] theorem State.storeDigest_outLen (d : List Byte) : (s.storeDigest d).outLen = s.outLen := (rfl)
@[simp] theorem State.storeDigest_digLen (d : List Byte) : (s.storeDigest d).digLen = BitVec.ofNat 16 d.length := (rfl)
@[simp] theorem State.storeDigest_counterLo (d : List Byte) : (s.storeDigest d).counterLo = s.counterLo := (rfl)
@[simp] theorem State.storeDigest_counterHi (d : List Byte) : (s.storeDigest d).counterHi = s.counterHi := (rfl)
@[simp] theorem State.storeDigest_tsLo (d : List Byte) : (s.storeDigest d).tsLo = s.tsLo := (rfl)
@[simp] theorem State.storeDigest_tsHi (d : List Byte) : (s.storeDigest d).tsHi = s.tsHi := (rfl)
@[simp] theorem State.storeDigest_code (d : List Byte) : (s.storeDigest d).code = s.code := (rfl)
@[simp] theorem State.storeDigest_truncBin (d : List Byte) : (s.storeDigest d).truncBin = s.truncBin := (rfl)
@[simp] theorem State.storeDigest_truncOff (d : List Byte) : (s.storeDigest d).truncOff = s.truncOff := (rfl)
@[simp] theorem State.storeDigest_pending (d : List Byte) : (s.storeDigest d).pending = s.pending := (rfl)
@[simp] theorem State.storeDigest_mem (d : List Byte) : (s.storeDigest d).mem = Memory.setRun s.mem Buffer.dig.base d := (rfl)
@[simp] theorem State.storeDigest_schedule (d : List Byte) : (s.storeDigest d).schedule = s.schedule := (rfl)
@[simp] theorem State.storeDigest_response (d : List Byte) : (s.storeDigest d).response = s.response := (rfl)
@[simp] theorem State.storeDigest_hostFault (d : List Byte) : (s.storeDigest d).hostFault = s.hostFault := (rfl)
@[simp] theorem State.storeDigest_rngFeed (d : List Byte) : (s.storeDigest d).rngFeed = s.rngFeed := (rfl)
@[simp] theorem State.storeDigest_clockFeed (d : List Byte) : (s.storeDigest d).clockFeed = s.clockFeed := (rfl)
@[simp] theorem State.storeDigest_rngDraws (d : List Byte) : (s.storeDigest d).rngDraws = s.rngDraws := (rfl)
@[simp] theorem State.storeDigest_clockDraws (d : List Byte) : (s.storeDigest d).clockDraws = s.clockDraws := (rfl)
@[simp] theorem State.storeDigest_byteDraws (d : List Byte) : (s.storeDigest d).byteDraws = s.byteDraws := (rfl)
@[simp] theorem State.storeDigest_wordDraws (d : List Byte) : (s.storeDigest d).wordDraws = s.wordDraws := (rfl)

/-! ### storeTruncation -/

@[simp] theorem State.storeTruncation_ie (r : Truncation) : (s.storeTruncation r).ie = s.ie := (rfl)
@[simp] theorem State.storeTruncation_done (r : Truncation) : (s.storeTruncation r).done = s.done := (rfl)
@[simp] theorem State.storeTruncation_ovr (r : Truncation) : (s.storeTruncation r).ovr = s.ovr := (rfl)
@[simp] theorem State.storeTruncation_err (r : Truncation) : (s.storeTruncation r).err = s.err := (rfl)
@[simp] theorem State.storeTruncation_cmd (r : Truncation) : (s.storeTruncation r).cmd = s.cmd := (rfl)
@[simp] theorem State.storeTruncation_txtLen (r : Truncation) : (s.storeTruncation r).txtLen = s.txtLen := (rfl)
@[simp] theorem State.storeTruncation_keyLen (r : Truncation) : (s.storeTruncation r).keyLen = s.keyLen := (rfl)
@[simp] theorem State.storeTruncation_msgLen (r : Truncation) : (s.storeTruncation r).msgLen = s.msgLen := (rfl)
@[simp] theorem State.storeTruncation_outLen (r : Truncation) : (s.storeTruncation r).outLen = s.outLen := (rfl)
@[simp] theorem State.storeTruncation_digLen (r : Truncation) : (s.storeTruncation r).digLen = s.digLen := (rfl)
@[simp] theorem State.storeTruncation_counterLo (r : Truncation) : (s.storeTruncation r).counterLo = s.counterLo := (rfl)
@[simp] theorem State.storeTruncation_counterHi (r : Truncation) : (s.storeTruncation r).counterHi = s.counterHi := (rfl)
@[simp] theorem State.storeTruncation_tsLo (r : Truncation) : (s.storeTruncation r).tsLo = s.tsLo := (rfl)
@[simp] theorem State.storeTruncation_tsHi (r : Truncation) : (s.storeTruncation r).tsHi = s.tsHi := (rfl)
@[simp] theorem State.storeTruncation_code (r : Truncation) : (s.storeTruncation r).code = r.code := (rfl)
@[simp] theorem State.storeTruncation_truncBin (r : Truncation) : (s.storeTruncation r).truncBin = r.bin := (rfl)
@[simp] theorem State.storeTruncation_truncOff (r : Truncation) : (s.storeTruncation r).truncOff = r.off := (rfl)
@[simp] theorem State.storeTruncation_pending (r : Truncation) : (s.storeTruncation r).pending = s.pending := (rfl)
@[simp] theorem State.storeTruncation_mem (r : Truncation) : (s.storeTruncation r).mem = s.mem := (rfl)
@[simp] theorem State.storeTruncation_schedule (r : Truncation) : (s.storeTruncation r).schedule = s.schedule := (rfl)
@[simp] theorem State.storeTruncation_response (r : Truncation) : (s.storeTruncation r).response = s.response := (rfl)
@[simp] theorem State.storeTruncation_hostFault (r : Truncation) : (s.storeTruncation r).hostFault = s.hostFault := (rfl)
@[simp] theorem State.storeTruncation_rngFeed (r : Truncation) : (s.storeTruncation r).rngFeed = s.rngFeed := (rfl)
@[simp] theorem State.storeTruncation_clockFeed (r : Truncation) : (s.storeTruncation r).clockFeed = s.clockFeed := (rfl)
@[simp] theorem State.storeTruncation_rngDraws (r : Truncation) : (s.storeTruncation r).rngDraws = s.rngDraws := (rfl)
@[simp] theorem State.storeTruncation_clockDraws (r : Truncation) : (s.storeTruncation r).clockDraws = s.clockDraws := (rfl)
@[simp] theorem State.storeTruncation_byteDraws (r : Truncation) : (s.storeTruncation r).byteDraws = s.byteDraws := (rfl)
@[simp] theorem State.storeTruncation_wordDraws (r : Truncation) : (s.storeTruncation r).wordDraws = s.wordDraws := (rfl)

/-! ### setCounter -/

@[simp] theorem State.setCounter_ie (c : DWord) : (s.setCounter c).ie = s.ie := (rfl)
@[simp] theorem State.setCounter_done (c : DWord) : (s.setCounter c).done = s.done := (rfl)
@[simp] theorem State.setCounter_ovr (c : DWord) : (s.setCounter c).ovr = s.ovr := (rfl)
@[simp] theorem State.setCounter_err (c : DWord) : (s.setCounter c).err = s.err := (rfl)
@[simp] theorem State.setCounter_cmd (c : DWord) : (s.setCounter c).cmd = s.cmd := (rfl)
@[simp] theorem State.setCounter_txtLen (c : DWord) : (s.setCounter c).txtLen = s.txtLen := (rfl)
@[simp] theorem State.setCounter_keyLen (c : DWord) : (s.setCounter c).keyLen = s.keyLen := (rfl)
@[simp] theorem State.setCounter_msgLen (c : DWord) : (s.setCounter c).msgLen = s.msgLen := (rfl)
@[simp] theorem State.setCounter_outLen (c : DWord) : (s.setCounter c).outLen = s.outLen := (rfl)
@[simp] theorem State.setCounter_digLen (c : DWord) : (s.setCounter c).digLen = s.digLen := (rfl)
@[simp] theorem State.setCounter_counterLo (c : DWord) : (s.setCounter c).counterLo = c.extractLsb' 0 32 := (rfl)
@[simp] theorem State.setCounter_counterHi (c : DWord) : (s.setCounter c).counterHi = c.extractLsb' 32 32 := (rfl)
@[simp] theorem State.setCounter_tsLo (c : DWord) : (s.setCounter c).tsLo = s.tsLo := (rfl)
@[simp] theorem State.setCounter_tsHi (c : DWord) : (s.setCounter c).tsHi = s.tsHi := (rfl)
@[simp] theorem State.setCounter_code (c : DWord) : (s.setCounter c).code = s.code := (rfl)
@[simp] theorem State.setCounter_truncBin (c : DWord) : (s.setCounter c).truncBin = s.truncBin := (rfl)
@[simp] theorem State.setCounter_truncOff (c : DWord) : (s.setCounter c).truncOff = s.truncOff := (rfl)
@[simp] theorem State.setCounter_pending (c : DWord) : (s.setCounter c).pending = s.pending := (rfl)
@[simp] theorem State.setCounter_mem (c : DWord) : (s.setCounter c).mem = s.mem := (rfl)
@[simp] theorem State.setCounter_schedule (c : DWord) : (s.setCounter c).schedule = s.schedule := (rfl)
@[simp] theorem State.setCounter_response (c : DWord) : (s.setCounter c).response = s.response := (rfl)
@[simp] theorem State.setCounter_hostFault (c : DWord) : (s.setCounter c).hostFault = s.hostFault := (rfl)
@[simp] theorem State.setCounter_rngFeed (c : DWord) : (s.setCounter c).rngFeed = s.rngFeed := (rfl)
@[simp] theorem State.setCounter_clockFeed (c : DWord) : (s.setCounter c).clockFeed = s.clockFeed := (rfl)
@[simp] theorem State.setCounter_rngDraws (c : DWord) : (s.setCounter c).rngDraws = s.rngDraws := (rfl)
@[simp] theorem State.setCounter_clockDraws (c : DWord) : (s.setCounter c).clockDraws = s.clockDraws := (rfl)
@[simp] theorem State.setCounter_byteDraws (c : DWord) : (s.setCounter c).byteDraws = s.byteDraws := (rfl)
@[simp] theorem State.setCounter_wordDraws (c : DWord) : (s.setCounter c).wordDraws = s.wordDraws := (rfl)

/-! ### setTimestamp -/

@[simp] theorem State.setTimestamp_ie (t : DWord) : (s.setTimestamp t).ie = s.ie := (rfl)
@[simp] theorem State.setTimestamp_done (t : DWord) : (s.setTimestamp t).done = s.done := (rfl)
@[simp] theorem State.setTimestamp_ovr (t : DWord) : (s.setTimestamp t).ovr = s.ovr := (rfl)
@[simp] theorem State.setTimestamp_err (t : DWord) : (s.setTimestamp t).err = s.err := (rfl)
@[simp] theorem State.setTimestamp_cmd (t : DWord) : (s.setTimestamp t).cmd = s.cmd := (rfl)
@[simp] theorem State.setTimestamp_txtLen (t : DWord) : (s.setTimestamp t).txtLen = s.txtLen := (rfl)
@[simp] theorem State.setTimestamp_keyLen (t : DWord) : (s.setTimestamp t).keyLen = s.keyLen := (rfl)
@[simp] theorem State.setTimestamp_msgLen (t : DWord) : (s.setTimestamp t).msgLen = s.msgLen := (rfl)
@[simp] theorem State.setTimestamp_outLen (t : DWord) : (s.setTimestamp t).outLen = s.outLen := (rfl)
@[simp] theorem State.setTimestamp_digLen (t : DWord) : (s.setTimestamp t).digLen = s.digLen := (rfl)
@[simp] theorem State.setTimestamp_counterLo (t : DWord) : (s.setTimestamp t).counterLo = s.counterLo := (rfl)
@[simp] theorem State.setTimestamp_counterHi (t : DWord) : (s.setTimestamp t).counterHi = s.counterHi := (rfl)
@[simp] theorem State.setTimestamp_tsLo (t : DWord) : (s.setTimestamp t).tsLo = t.extractLsb' 0 32 := (rfl)
@[simp] theorem State.setTimestamp_tsHi (t : DWord) : (s.setTimestamp t).tsHi = t.extractLsb' 32 32 := (rfl)
@[simp] theorem State.setTimestamp_code (t : DWord) : (s.setTimestamp t).code = s.code := (rfl)
@[simp] theorem State.setTimestamp_truncBin (t : DWord) : (s.setTimestamp t).truncBin = s.truncBin := (rfl)
@[simp] theorem State.setTimestamp_truncOff (t : DWord) : (s.setTimestamp t).truncOff = s.truncOff := (rfl)
@[simp] theorem State.setTimestamp_pending (t : DWord) : (s.setTimestamp t).pending = s.pending := (rfl)
@[simp] theorem State.setTimestamp_mem (t : DWord) : (s.setTimestamp t).mem = s.mem := (rfl)
@[simp] theorem State.setTimestamp_schedule (t : DWord) : (s.setTimestamp t).schedule = s.schedule := (rfl)
@[simp] theorem State.setTimestamp_response (t : DWord) : (s.setTimestamp t).response = s.response := (rfl)
@[simp] theorem State.setTimestamp_hostFault (t : DWord) : (s.setTimestamp t).hostFault = s.hostFault := (rfl)
@[simp] theorem State.setTimestamp_rngFeed (t : DWord) : (s.setTimestamp t).rngFeed = s.rngFeed := (rfl)
@[simp] theorem State.setTimestamp_clockFeed (t : DWord) : (s.setTimestamp t).clockFeed = s.clockFeed := (rfl)
@[simp] theorem State.setTimestamp_rngDraws (t : DWord) : (s.setTimestamp t).rngDraws = s.rngDraws := (rfl)
@[simp] theorem State.setTimestamp_clockDraws (t : DWord) : (s.setTimestamp t).clockDraws = s.clockDraws := (rfl)
@[simp] theorem State.setTimestamp_byteDraws (t : DWord) : (s.setTimestamp t).byteDraws = s.byteDraws := (rfl)
@[simp] theorem State.setTimestamp_wordDraws (t : DWord) : (s.setTimestamp t).wordDraws = s.wordDraws := (rfl)

/-! ### busError -/

@[simp] theorem State.busError_ie : (s.busError).ie = s.ie := (rfl)
@[simp] theorem State.busError_done : (s.busError).done = s.done := (rfl)
@[simp] theorem State.busError_ovr : (s.busError).ovr = s.ovr := (rfl)
@[simp] theorem State.busError_err : (s.busError).err = s.err := (rfl)
@[simp] theorem State.busError_cmd : (s.busError).cmd = s.cmd := (rfl)
@[simp] theorem State.busError_txtLen : (s.busError).txtLen = s.txtLen := (rfl)
@[simp] theorem State.busError_keyLen : (s.busError).keyLen = s.keyLen := (rfl)
@[simp] theorem State.busError_msgLen : (s.busError).msgLen = s.msgLen := (rfl)
@[simp] theorem State.busError_outLen : (s.busError).outLen = s.outLen := (rfl)
@[simp] theorem State.busError_digLen : (s.busError).digLen = s.digLen := (rfl)
@[simp] theorem State.busError_counterLo : (s.busError).counterLo = s.counterLo := (rfl)
@[simp] theorem State.busError_counterHi : (s.busError).counterHi = s.counterHi := (rfl)
@[simp] theorem State.busError_tsLo : (s.busError).tsLo = s.tsLo := (rfl)
@[simp] theorem State.busError_tsHi : (s.busError).tsHi = s.tsHi := (rfl)
@[simp] theorem State.busError_code : (s.busError).code = s.code := (rfl)
@[simp] theorem State.busError_truncBin : (s.busError).truncBin = s.truncBin := (rfl)
@[simp] theorem State.busError_truncOff : (s.busError).truncOff = s.truncOff := (rfl)
@[simp] theorem State.busError_pending : (s.busError).pending = s.pending := (rfl)
@[simp] theorem State.busError_mem : (s.busError).mem = s.mem := (rfl)
@[simp] theorem State.busError_schedule : (s.busError).schedule = s.schedule := (rfl)
@[simp] theorem State.busError_response : (s.busError).response = some .busError := (rfl)
@[simp] theorem State.busError_hostFault : (s.busError).hostFault = true := (rfl)
@[simp] theorem State.busError_rngFeed : (s.busError).rngFeed = s.rngFeed := (rfl)
@[simp] theorem State.busError_clockFeed : (s.busError).clockFeed = s.clockFeed := (rfl)
@[simp] theorem State.busError_rngDraws : (s.busError).rngDraws = s.rngDraws := (rfl)
@[simp] theorem State.busError_clockDraws : (s.busError).clockDraws = s.clockDraws := (rfl)
@[simp] theorem State.busError_byteDraws : (s.busError).byteDraws = s.byteDraws := (rfl)
@[simp] theorem State.busError_wordDraws : (s.busError).wordDraws = s.wordDraws := (rfl)

end Sys2Proof.Machine
end

