-- ==== Sys2Proof/Laws/Memory.lean ====
section
/-! SUPPORT. The laws of the buffers' memory: what a byte reads after a write, the canonical form, the listed
offsets, and the bytes one read sees. -/

namespace Sys2Proof.Machine

/-! ### One byte -/

@[simp] theorem Memory.get_nil (a : Nat) : Memory.get [] a = none := rfl

theorem Memory.get_cons (k : Nat) (b : Byte) (m : Memory) (a : Nat) :
    Memory.get ((k, b) :: m) a = if k = a then some b else Memory.get m a := rfl

theorem Memory.get_set (m : Memory) (a x : Nat) (v : Byte) :
    Memory.get (Memory.set m a v) x = if x = a then some v else Memory.get m x := by
  induction m with
  | nil => simp only [Memory.set, Memory.get_cons, eq_comm]
  | cons c m ih =>
    obtain ⟨k, b⟩ := c
    unfold Memory.set
    split
    · simp only [Memory.get_cons, eq_comm]
    · split
      · subst a
        by_cases h : k = x
        · simp [Memory.get_cons, h]
        · simp [Memory.get_cons, h, Ne.symm h]
      · simp only [Memory.get_cons, ih]
        by_cases h : k = x
        · subst h; simp [show ¬ k = a by omega]
        · simp [h]

@[simp] theorem Memory.get_set_same (m : Memory) (a : Nat) (v : Byte) :
    Memory.get (Memory.set m a v) a = some v := by simp [Memory.get_set]

theorem Memory.get_set_other (m : Memory) {a x : Nat} (v : Byte) (h : x ≠ a) :
    Memory.get (Memory.set m a v) x = Memory.get m x := by simp [Memory.get_set, h]

/-! ### A byte string -/

@[simp] theorem Memory.setRun_nil (m : Memory) (a : Nat) : Memory.setRun m a [] = m := rfl

theorem Memory.setRun_cons (m : Memory) (a : Nat) (v : Byte) (vs : List Byte) :
    Memory.setRun m a (v :: vs) = Memory.setRun (Memory.set m a v) (a + 1) vs := rfl

/-- What every byte reads after a byte string is stored at `a`. -/
theorem Memory.get_setRun (m : Memory) (a x : Nat) (vs : List Byte) :
    Memory.get (Memory.setRun m a vs) x = if a ≤ x ∧ x < a + vs.length then vs[x - a]? else Memory.get m x := by
  induction vs generalizing m a with
  | nil => simp
  | cons v vs ih =>
    rw [Memory.setRun_cons, ih, Memory.get_set]
    by_cases h : x = a
    · subst h; simp
    · by_cases h2 : a + 1 ≤ x ∧ x < a + 1 + vs.length
      · have h3 : a ≤ x ∧ x < a + (v :: vs).length := by simp only [List.length_cons]; omega
        rw [if_pos h2, if_pos h3, show x - a = (x - (a + 1)) + 1 by omega, List.getElem?_cons_succ]
      · have h3 : ¬ (a ≤ x ∧ x < a + (v :: vs).length) := by simp only [List.length_cons]; omega
        rw [if_neg h2, if_neg h3, if_neg h]

theorem Memory.get_setRun_inside (m : Memory) (a i : Nat) (vs : List Byte) (h : i < vs.length) :
    Memory.get (Memory.setRun m a vs) (a + i) = some vs[i] := by
  rw [Memory.get_setRun, if_pos (by omega)]
  simp [h]

theorem Memory.get_setRun_outside (m : Memory) (a x : Nat) (vs : List Byte) (h : x < a ∨ a + vs.length ≤ x) :
    Memory.get (Memory.setRun m a vs) x = Memory.get m x := by
  rw [Memory.get_setRun, if_neg (by omega)]

/-- A byte string that fits its buffer leaves every byte outside the buffer. -/
theorem Memory.get_setRun_buffer (b : Buffer) (bs : List Byte) (m : Memory) (a : Nat) (hl : bs.length ≤ b.cap)
    (h : b.holds a = false) : Memory.get (Memory.setRun m b.base bs) a = Memory.get m a := by
  refine Memory.get_setRun_outside m _ a bs ?_
  have : ¬ (b.base ≤ a ∧ a < b.base + b.cap) := by
    intro hc
    simp [Buffer.holds, hc] at h
  omega

/-! ### The canonical form -/

theorem Memory.wf_iff (m : Memory) : Memory.wf m = true ↔ (m.map Prod.fst).Pairwise (· < ·) := by
  simp [Memory.wf]

theorem Memory.mem_keys_set (m : Memory) (a : Nat) (v : Byte) (k : Nat) :
    k ∈ (Memory.set m a v).map Prod.fst ↔ k = a ∨ k ∈ m.map Prod.fst := by
  induction m with
  | nil => simp [Memory.set]
  | cons c m ih =>
    obtain ⟨j, b⟩ := c
    unfold Memory.set
    split
    · simp
    · split
      · subst a; simp
      · simp only [List.map_cons, List.mem_cons, ih]; tauto

theorem Memory.wf_set (m : Memory) (a : Nat) (v : Byte) (h : Memory.wf m = true) :
    Memory.wf (Memory.set m a v) = true := by
  rw [Memory.wf_iff] at *
  induction m with
  | nil => simp [Memory.set]
  | cons c m ih =>
    obtain ⟨j, b⟩ := c
    rw [List.map_cons, List.pairwise_cons] at h
    unfold Memory.set
    split
    · rename_i hlt
      simp only [List.map_cons, List.pairwise_cons, List.mem_cons, forall_eq_or_imp]
      exact ⟨⟨hlt, fun k hk => Nat.lt_trans hlt (h.1 k hk)⟩, h⟩
    · split
      · rename_i heq
        subst heq
        simpa using h
      · rename_i hlt hne
        simp only [List.map_cons, List.pairwise_cons]
        refine ⟨fun k hk => ?_, ih h.2⟩
        rcases (Memory.mem_keys_set m a v k).1 hk with rfl | hk
        · show j < k; omega
        · exact h.1 k hk

theorem Memory.wf_setRun (m : Memory) (a : Nat) (vs : List Byte) (h : Memory.wf m = true) :
    Memory.wf (Memory.setRun m a vs) = true := by
  induction vs generalizing m a with
  | nil => exact h
  | cons v vs ih => exact ih _ _ (Memory.wf_set m a v h)

/-- Two memories in canonical form that read alike are the same data. -/
theorem Memory.ext_of_wf {m n : Memory} (hm : Memory.wf m = true) (hn : Memory.wf n = true)
    (h : ∀ a, Memory.get m a = Memory.get n a) : m = n := by
  rw [Memory.wf_iff] at hm hn
  have below : ∀ (l : Memory) (a : Nat), (∀ k ∈ l.map Prod.fst, a < k) → Memory.get l a = none := by
    intro l a
    induction l with
    | nil => simp
    | cons c l ih =>
      obtain ⟨k, b⟩ := c
      intro hk
      have hka : a < k := hk k (by simp)
      rw [Memory.get_cons, if_neg (by omega)]
      exact ih fun k' hk' => hk k' (by simp only [List.map_cons, List.mem_cons]; exact Or.inr hk')
  induction m generalizing n with
  | nil =>
    cases n with
    | nil => rfl
    | cons c n => obtain ⟨k, b⟩ := c; simpa [Memory.get_cons] using h k
  | cons c m ih =>
    obtain ⟨k, b⟩ := c
    cases n with
    | nil => simpa [Memory.get_cons] using h k
    | cons d n =>
      obtain ⟨j, e⟩ := d
      rw [List.map_cons, List.pairwise_cons] at hm hn
      have hk := h k
      have hj := h j
      simp only [Memory.get_cons, if_true] at hk hj
      have hkj : k = j := by
        rcases Nat.lt_trichotomy k j with hlt | heq | hlt
        · rw [if_neg (by omega), below n k fun i hi => Nat.lt_trans hlt (hn.1 i hi)] at hk
          exact absurd hk (by simp)
        · exact heq
        · rw [if_neg (by omega), below m j fun i hi => Nat.lt_trans hlt (hm.1 i hi)] at hj
          exact absurd hj (by simp)
      subst hkj
      rw [if_pos rfl] at hk
      obtain rfl : b = e := by simpa using hk
      rw [ih hm.2 hn.2 fun a => ?_]
      by_cases ha : a = k
      · subst ha; rw [below m a hm.1, below n a hn.1]
      · simpa [Memory.get_cons, Ne.symm ha] using h a

/-! ### The listed offsets -/

theorem Memory.inBuffers_iff (m : Memory) :
    Memory.inBuffers m = true ↔ ∀ k ∈ m.map Prod.fst, ∃ b : Buffer, b.holds k = true := by
  simp only [Memory.inBuffers, List.all_eq_true, List.any_eq_true, List.mem_map, forall_exists_index, and_imp,
    forall_apply_eq_imp_iff₂]
  refine forall₂_congr fun c _ => ⟨fun ⟨b, _, hb⟩ => ⟨b, hb⟩, fun ⟨b, hb⟩ => ⟨b, ?_, hb⟩⟩
  cases b <;> simp [Buffer.all]

theorem Memory.inBuffers_set (m : Memory) (a : Nat) (v : Byte) (b : Buffer) (hb : b.holds a = true)
    (h : Memory.inBuffers m = true) : Memory.inBuffers (Memory.set m a v) = true := by
  rw [Memory.inBuffers_iff] at *
  intro k hk
  rcases (Memory.mem_keys_set m a v k).1 hk with rfl | hk
  · exact ⟨b, hb⟩
  · exact h k hk

theorem Memory.inBuffers_setRun (m : Memory) (a : Nat) (vs : List Byte) (b : Buffer)
    (hb : ∀ i, i < vs.length → b.holds (a + i) = true) (h : Memory.inBuffers m = true) :
    Memory.inBuffers (Memory.setRun m a vs) = true := by
  induction vs generalizing m a with
  | nil => exact h
  | cons v vs ih =>
    refine ih _ _ (fun i hi => ?_) (Memory.inBuffers_set m a v b (by simpa using hb 0 (by simp)) h)
    have := hb (i + 1) (by simpa using hi)
    rwa [show a + 1 + i = a + (i + 1) by omega]

/-! ### The bytes one read sees -/

@[simp] theorem Memory.bytes_length (m : Memory) (a n k : Nat) : (Memory.bytes m a n k).length = n := by
  induction n generalizing a k with
  | zero => rfl
  | succ n ih => unfold Memory.bytes; split <;> simp [ih]

theorem Memory.unwritten_le (m : Memory) (a n : Nat) : Memory.unwritten m a n ≤ n := by
  induction n generalizing a with
  | zero => simp [Memory.unwritten]
  | succ n ih =>
    have := ih (a + 1)
    unfold Memory.unwritten
    split <;> omega

/-- A written byte is read as it was written, whatever the draws. -/
theorem Memory.bytes_getElem? (m : Memory) (a n k i : Nat) (v : Byte) (hi : i < n)
    (h : Memory.get m (a + i) = some v) : (Memory.bytes m a n k)[i]? = some v := by
  induction n generalizing a k i with
  | zero => omega
  | succ n ih =>
    unfold Memory.bytes
    cases i with
    | zero => rw [Nat.add_zero] at h; simp [h]
    | succ i =>
      have h' : Memory.get m (a + 1 + i) = some v := by rwa [show a + 1 + i = a + (i + 1) by omega]
      split <;> simpa using ih (a + 1) _ i (by omega) h'

/-- A read of written bytes only makes no draw. -/
theorem Memory.unwritten_eq_zero (m : Memory) (a n : Nat) (h : ∀ i, i < n → (Memory.get m (a + i)).isSome = true) :
    Memory.unwritten m a n = 0 := by
  induction n generalizing a with
  | zero => rfl
  | succ n ih =>
    have h0 : (Memory.get m a).isSome = true := h 0 (by omega)
    unfold Memory.unwritten
    rw [ih (a + 1) fun i hi => by rw [show a + 1 + i = a + (i + 1) by omega]; exact h (i + 1) (by omega)]
    simp [Option.isNone_iff_eq_none, Option.isSome_iff_ne_none.1 h0]

/-- Two memories that hold the same written bytes in a range read alike there, whatever the draws. -/
theorem Memory.bytes_congr (m m' : Memory) (a a' n k k' : Nat)
    (h : ∀ i, i < n → (Memory.get m (a + i)).isSome = true ∧ Memory.get m (a + i) = Memory.get m' (a' + i)) :
    Memory.bytes m a n k = Memory.bytes m' a' n k' := by
  refine List.ext_getElem? fun i => ?_
  by_cases hi : i < n
  · obtain ⟨hs, he⟩ := h i hi
    obtain ⟨v, hv⟩ := Option.isSome_iff_exists.1 hs
    rw [Memory.bytes_getElem? m a n k i v hi hv, Memory.bytes_getElem? m' a' n k' i v hi (he ▸ hv)]
  · rw [List.getElem?_eq_none (by simpa using hi), List.getElem?_eq_none (by simpa using hi)]

/-- A read of bytes just stored gives them back. -/
theorem Memory.bytes_setRun (m : Memory) (a k : Nat) (vs : List Byte) :
    Memory.bytes (Memory.setRun m a vs) a vs.length k = vs := by
  refine List.ext_getElem? fun i => ?_
  by_cases hi : i < vs.length
  · rw [Memory.bytes_getElem? _ a _ k i vs[i] hi (Memory.get_setRun_inside m a i vs hi)]; simp [hi]
  · rw [List.getElem?_eq_none (by simpa using hi), List.getElem?_eq_none (by omega)]

end Sys2Proof.Machine
end

