-- ==== Sys2Proof/Laws/Commands.lean ====
section
/-! SUPPORT. What each command can do, once: the cases of its answer. Every later proof about a command cites these
and does not unfold the meaning. -/

namespace Sys2Proof.Machine

/-! ### Byte strings -/

@[simp] theorem zeros_length (n : Nat) : (zeros n).length = n := List.length_replicate

@[simp] theorem be64_length (c : DWord) : (be64 c).length = 8 := rfl

@[simp] theorem wordBytes_length (w : Word) : (wordBytes w).length = 4 := rfl

@[simp] theorem xorAll_length (s : List Byte) (p : Byte) : (xorAll s p).length = s.length := List.length_map ..

@[simp] theorem sha1_length (m : List Byte) : (sha1 m).length = 20 := by unfold sha1; rfl

/-- `H` returns `DL` bytes (R36). -/
@[simp] theorem hashPort_length (m : List Byte) : (hashPort m).length = 20 := sha1_length m

@[simp] theorem hexBytes_nil : hexBytes [] = [] := rfl

theorem hexBytes_cons (b : Byte) (d : List Byte) :
    hexBytes (b :: d) = hexChar (b.extractLsb' 4 4) :: hexChar (b.extractLsb' 0 4) :: hexBytes d := rfl

@[simp] theorem hexBytes_length (d : List Byte) : (hexBytes d).length = 2 * d.length := by
  induction d with
  | nil => rfl
  | cons b d ih => rw [hexBytes_cons]; simp only [List.length_cons, ih]; omega

@[simp] theorem rngValues_length (n : Nat) (s : State) : (s.rngValues n).length = n := by simp [State.rngValues]

@[simp] theorem textBytes_length (s : State) : s.textBytes.length = s.txtLen.toNat := Memory.bytes_length ..

@[simp] theorem keyBytes_length (s : State) : s.keyBytes.length = s.keyLen.toNat := Memory.bytes_length ..

@[simp] theorem msgBytes_length (s : State) : s.msgBytes.length = s.msgLen.toNat := Memory.bytes_length ..

@[simp] theorem digestBytes_length (s : State) : s.digestBytes.length = 20 := Memory.bytes_length ..

/-- The construction returns what the hash returns. -/
theorem hmacCore_length {H : List Byte → List Byte} (hH : ∀ m, (H m).length = 20) (key data : List Byte) :
    (hmacCore H key data).length = 20 := hH _

@[simp] theorem hmacDigest_length (s : State) : (hmacDigest s).length = 20 := hmacCore_length hashPort_length ..

@[simp] theorem hotpDigest_length (s : State) : (hotpDigest s).length = 20 := hmacCore_length hashPort_length ..

/-! ### Operands that select a place -/

@[simp] theorem storeDecoded_out (bs : List Byte) (s : State) : s.storeDecoded .out bs = s.storeOut bs := rfl

@[simp] theorem storeDecoded_key (bs : List Byte) (s : State) : s.storeDecoded .key bs = s.storeKey bs := rfl

@[simp] theorem storeHex_raw (d : List Byte) (s : State) : s.storeHex .raw d = s := rfl

@[simp] theorem storeHex_hex (d : List Byte) (s : State) : s.storeHex .hex d = s.storeOut (hexBytes d) := rfl

@[simp] theorem sampleClock_ts (s : State) : s.sampleClock .ts = s := rfl

@[simp] theorem sampleClock_now (s : State) : s.sampleClock .now = s.afterClock.setTimestamp s.clockValue := rfl

/-! ### The cases of each command -/

theorem execB32enc_cases (n : Nat) (s : State) :
    (Config.outCap < encLength n ∧ execB32enc n s = .next (s.finish .length)) ∨
      (encLength n ≤ Config.outCap ∧
        execB32enc n s =
          .next (((s.afterRng (encLength n)).storeOut ((s.rngValues (encLength n)).map encSymbol)).finish .ok)) := by
  unfold execB32enc
  split
  · exact Or.inl ⟨‹_›, rfl⟩
  · exact Or.inr ⟨Nat.le_of_not_lt ‹_›, rfl⟩

theorem execB32dec_cases (mode : DecodeMode) (dest : Dest) (s : State) :
    (Config.txtCap < s.txtLen.toNat ∧ execB32dec mode dest s = .next (s.finish .length)) ∨
      (s.txtLen.toNat ≤ Config.txtCap ∧
        (decodeText mode s.textBytes = none ∧ execB32dec mode dest s = .next (s.afterText.finish .decode) ∨
          ∃ bs, decodeText mode s.textBytes = some bs ∧
            (destCap dest < bs.length ∧ execB32dec mode dest s = .next (s.afterText.finish .length) ∨
              bs.length ≤ destCap dest ∧
                execB32dec mode dest s = .next ((s.afterText.storeDecoded dest bs).finish .ok)))) := by
  unfold execB32dec
  split
  · exact Or.inl ⟨‹_›, rfl⟩
  · refine Or.inr ⟨Nat.le_of_not_lt ‹_›, ?_⟩
    split
    · exact Or.inl ⟨‹_›, rfl⟩
    · refine Or.inr ⟨_, ‹_›, ?_⟩
      split
      · exact Or.inl ⟨‹_›, rfl⟩
      · exact Or.inr ⟨Nat.le_of_not_lt ‹_›, rfl⟩

theorem execHmac_cases (form : HmacForm) (s : State) :
    ((Config.keyCap < s.keyLen.toNat ∨ Config.msgCap < s.msgLen.toNat) ∧
        execHmac form s = .next (s.finish .length)) ∨
      (s.keyLen.toNat ≤ Config.keyCap ∧ s.msgLen.toNat ≤ Config.msgCap ∧
        execHmac form s =
          .next (((s.afterKey.afterMsg.storeDigest (hmacDigest s)).storeHex form (hmacDigest s)).finish .ok)) := by
  unfold execHmac
  split
  · exact Or.inl ⟨‹_›, rfl⟩
  · rename_i h
    rw [not_or] at h
    exact Or.inr ⟨Nat.le_of_not_lt h.1, Nat.le_of_not_lt h.2, rfl⟩

theorem execTrunc_cases (s : State) :
    (s.digLen.toNat < 20 ∧ execTrunc s = .next (s.finish .digest)) ∨
      (20 ≤ s.digLen.toNat ∧
        execTrunc s = .next ((s.afterDigest.storeTruncation (truncate s.digestBytes)).finish .ok)) := by
  unfold execTrunc
  split
  · exact Or.inl ⟨‹_›, rfl⟩
  · exact Or.inr ⟨Nat.le_of_not_lt ‹_›, rfl⟩

theorem execHotp_cases (s : State) :
    (Config.keyCap < s.keyLen.toNat ∧ execHotp s = .next (s.finish .length)) ∨
      (s.keyLen.toNat ≤ Config.keyCap ∧
        execHotp s =
          .next (((s.afterKey.storeDigest (hotpDigest s)).storeTruncation (truncate (hotpDigest s))).finish .ok)) := by
  unfold execHotp
  split
  · exact Or.inl ⟨‹_›, rfl⟩
  · exact Or.inr ⟨Nat.le_of_not_lt ‹_›, rfl⟩

end Sys2Proof.Machine
end

