-- ==== Sys2Proof/Laws/Base32.lean ====
section
/-! SUPPORT. The laws of the base32 codec: the two maps, and the decoder's loop, once for all its proofs. -/

namespace Sys2Proof.Machine

/-! ### Strings as numbers -/

theorem symbolsNumber_cons (v : Nat) (vs : List Nat) :
    symbolsNumber (v :: vs) = v * 32 ^ vs.length + symbolsNumber vs := by
  have go : ∀ (l : List Nat) (n : Nat),
      l.foldl (fun n v => n * 32 + v) n = n * 32 ^ l.length + l.foldl (fun n v => n * 32 + v) 0 := by
    intro l
    induction l with
    | nil => simp
    | cons x l ih =>
      intro n
      rw [List.foldl_cons, ih, List.foldl_cons, ih (0 * 32 + x), List.length_cons, Nat.pow_succ]
      ring
  unfold symbolsNumber
  rw [List.foldl_cons, go]
  simp

theorem bytesNumber_cons (b : Byte) (bs : List Byte) :
    bytesNumber (b :: bs) = b.toNat * 256 ^ bs.length + bytesNumber bs := by
  have go : ∀ (l : List Byte) (n : Nat),
      l.foldl (fun n b => n * 256 + b.toNat) n = n * 256 ^ l.length + l.foldl (fun n b => n * 256 + b.toNat) 0 := by
    intro l
    induction l with
    | nil => simp
    | cons x l ih =>
      intro n
      rw [List.foldl_cons, ih, List.foldl_cons, ih (0 * 256 + x.toNat), List.length_cons, Nat.pow_succ]
      ring
  unfold bytesNumber
  rw [List.foldl_cons, go]
  simp

/-! ### The maps -/

theorem symbolValue_lt {c : Byte} {v : Nat} (h : symbolValue c = some v) : v < 32 := by
  unfold symbolValue at h
  split at h
  · obtain rfl := Option.some.inj h; omega
  · split at h
    · obtain rfl := Option.some.inj h; omega
    · split at h
      · obtain rfl := Option.some.inj h; omega
      · exact absurd h (by simp)

/-- The decoder undoes the encoder's symbol map (R77, R83). -/
theorem symbolValue_encSymbol : ∀ v : BitVec 5, symbolValue (encSymbol v) = some v.toNat := by decide

/-- No encoded symbol is the padding byte (R81). -/
theorem encSymbol_ne_pad : ∀ v : BitVec 5, encSymbol v ≠ padByte := by decide

/-- The pre-pass keeps every encoded symbol. -/
theorem userPrep_encSymbols (vs : List (BitVec 5)) : userPrep (vs.map encSymbol) = vs.map encSymbol := by
  have h : ∀ v : BitVec 5, isStripped (encSymbol v) = false ∧ remap (encSymbol v) = encSymbol v := by decide
  induction vs with
  | nil => rfl
  | cons v vs ih =>
    unfold userPrep at *
    simp [h v, ih]

/-! ### The loop -/

/-- A processed byte that is no symbol fails the whole decode (R88). -/
theorem unpack_eq_none {t : List Byte} {acc nb : Nat}
    (h : ∃ c ∈ t.takeWhile (· != padByte), symbolValue c = none) : unpack t acc nb = none := by
  induction t generalizing acc nb with
  | nil => simp at h
  | cons c t ih =>
    by_cases hc : c = padByte
    · simp [hc] at h
    · have hp : (c != padByte) = true := by simpa using hc
      rw [List.takeWhile_cons_of_pos (p := (· != padByte)) hp] at h
      unfold unpack
      rw [if_neg hc]
      split
      · rfl
      · rename_i v hv
        obtain ⟨d, hd, hn⟩ := h
        rcases List.mem_cons.1 hd with rfl | hd
        · rw [hv] at hn; exact absurd hn (by simp)
        · split <;> simp [ih ⟨d, hd, hn⟩]

/-- What the loop emits from `nb` buffered bits `acc` (R86, R87): the bits of `acc` and of the symbols, without the
trailing ones that fill no byte. -/
theorem unpack_eq_some {t : List Byte} {vs : List Nat} {acc nb : Nat} (hnb : nb ≤ 7) (hacc : acc < 2 ^ nb)
    (h : (t.takeWhile (· != padByte)).map symbolValue = vs.map some) :
    ∃ bs, unpack t acc nb = some bs ∧ bs.length = (nb + 5 * vs.length) / 8 ∧
      bytesNumber bs = (acc * 32 ^ vs.length + symbolsNumber vs) / 2 ^ ((nb + 5 * vs.length) % 8) := by
  induction t generalizing acc nb vs with
  | nil =>
    obtain rfl : vs = [] := by simpa using h.symm
    refine ⟨[], rfl, by simp; omega, ?_⟩
    simp [symbolsNumber, bytesNumber, Nat.mod_eq_of_lt (show nb < 8 by omega), Nat.div_eq_of_lt hacc]
  | cons c t ih =>
    by_cases hc : c = padByte
    · obtain rfl : vs = [] := by simpa [hc] using h.symm
      refine ⟨[], by simp [unpack, hc], by simp; omega, ?_⟩
      simp [symbolsNumber, bytesNumber, Nat.mod_eq_of_lt (show nb < 8 by omega), Nat.div_eq_of_lt hacc]
    · have hp : (c != padByte) = true := by simpa using hc
      rw [List.takeWhile_cons_of_pos (p := (· != padByte)) hp, List.map_cons] at h
      cases vs with
      | nil => exact absurd h (by simp)
      | cons v vs =>
        simp only [List.map_cons, List.cons.injEq] at h
        obtain ⟨hv, ht⟩ := h
        have hv32 := symbolValue_lt hv
        have hx : acc <<< 5 ||| v = acc * 32 + v := by
          rw [Nat.shiftLeft_eq, Nat.mul_comm, ← Nat.two_pow_add_eq_or_of_lt (i := 5) hv32]
        unfold unpack
        rw [if_neg hc, hv]
        simp only [hx]
        rw [symbolsNumber_cons]
        by_cases h8 : nb + 5 ≥ 8
        · rw [if_pos h8]
          have hmask : ∀ x, x &&& ((1 <<< (nb + 5 - 8)) - 1) = x % 2 ^ (nb + 5 - 8) := by
            intro x; rw [Nat.one_shiftLeft, Nat.and_two_pow_sub_one_eq_mod]
          simp only [hmask, Nat.shiftRight_eq_div_pow]
          obtain ⟨bs, hb, hl, hn⟩ := ih (vs := vs) (acc := (acc * 32 + v) % 2 ^ (nb + 5 - 8)) (nb := nb + 5 - 8)
            (by omega) (Nat.mod_lt _ (by positivity)) ht
          refine ⟨_, by rw [hb]; rfl, ?_, ?_⟩
          · simp only [List.length_cons, hl]; omega
          · have hb256 : (acc * 32 + v) / 2 ^ (nb + 5 - 8) < 256 := by
              rw [Nat.div_lt_iff_lt_mul (by positivity)]
              have : 256 * 2 ^ (nb + 5 - 8) = 2 ^ nb * 32 := by
                rw [show (256 : Nat) = 2 ^ 8 by rfl, show (32 : Nat) = 2 ^ 5 by rfl, ← Nat.pow_add, ← Nat.pow_add]
                congr 1; omega
              omega
            have hand : (acc * 32 + v) / 2 ^ (nb + 5 - 8) &&& 0xFF = (acc * 32 + v) / 2 ^ (nb + 5 - 8) := by
              rw [show (0xFF : Nat) = 2 ^ 8 - 1 by rfl, Nat.and_two_pow_sub_one_eq_mod, Nat.mod_eq_of_lt hb256]
            rw [bytesNumber_cons, hand, hn, hl, List.length_cons]
            rw [BitVec.toNat_ofNat, Nat.mod_eq_of_lt (show _ < 2 ^ 8 by exact hb256)]
            have hr : (nb + 5 * (vs.length + 1)) % 8 = (nb + 5 - 8 + 5 * vs.length) % 8 := by omega
            rw [hr]
            have hsplit : acc * 32 ^ (vs.length + 1) + (v * 32 ^ vs.length + symbolsNumber vs)
                = ((acc * 32 + v) / 2 ^ (nb + 5 - 8) * 256 ^ ((nb + 5 - 8 + 5 * vs.length) / 8))
                    * 2 ^ ((nb + 5 - 8 + 5 * vs.length) % 8)
                  + ((acc * 32 + v) % 2 ^ (nb + 5 - 8) * 32 ^ vs.length + symbolsNumber vs) := by
              have hp2 : 256 ^ ((nb + 5 - 8 + 5 * vs.length) / 8) * 2 ^ ((nb + 5 - 8 + 5 * vs.length) % 8)
                  = 2 ^ (nb + 5 - 8) * 32 ^ vs.length := by
                rw [show (256 : Nat) = 2 ^ 8 by rfl, show (32 : Nat) = 2 ^ 5 by rfl, ← Nat.pow_mul, ← Nat.pow_mul,
                  ← Nat.pow_add, ← Nat.pow_add]
                congr 1; omega
              rw [Nat.mul_assoc, hp2]
              have hd := Nat.div_add_mod (acc * 32 + v) (2 ^ (nb + 5 - 8))
              calc acc * 32 ^ (vs.length + 1) + (v * 32 ^ vs.length + symbolsNumber vs)
                  = (acc * 32 + v) * 32 ^ vs.length + symbolsNumber vs := by rw [Nat.pow_succ]; ring
                _ = (2 ^ (nb + 5 - 8) * ((acc * 32 + v) / 2 ^ (nb + 5 - 8)) + (acc * 32 + v) % 2 ^ (nb + 5 - 8))
                      * 32 ^ vs.length + symbolsNumber vs := by rw [hd]
                _ = _ := by ring
            rw [hsplit, Nat.add_comm (_ * _) (_ + _), Nat.add_mul_div_right _ _ (by positivity), Nat.add_comm]
        · rw [if_neg h8]
          obtain ⟨bs, hb, hl, hn⟩ := ih (vs := vs) (acc := acc * 32 + v) (nb := nb + 5) (by omega)
            (by rw [Nat.pow_add]; omega) ht
          refine ⟨bs, hb, by rw [hl, List.length_cons]; congr 1; omega, ?_⟩
          rw [hn, List.length_cons, show nb + 5 + 5 * vs.length = nb + 5 * (vs.length + 1) by omega, Nat.pow_succ]
          congr 1
          ring

/-- A text whose processed bytes are all symbols decodes, to the bits of the symbols (R85 to R87, R91). -/
theorem decodeText_eq_some {mode : DecodeMode} {t : List Byte} {vs : List Nat}
    (h : (processed mode t).map symbolValue = vs.map some) :
    ∃ bs, decodeText mode t = some bs ∧ bs.length = 5 * vs.length / 8 ∧
      bytesNumber bs = symbolsNumber vs / 2 ^ (5 * vs.length % 8) := by
  simpa [decodeText] using unpack_eq_some (acc := 0) (nb := 0) (by omega) (by simp) h

/-- A processed byte that is no symbol fails the decode (R88). -/
theorem decodeText_eq_none {mode : DecodeMode} {t : List Byte} (h : ∃ c ∈ processed mode t, symbolValue c = none) :
    decodeText mode t = none := unpack_eq_none h

/-- The symbols of a text with no invalid processed byte. -/
theorem processed_symbols {mode : DecodeMode} {t : List Byte} (h : ∀ c ∈ processed mode t, symbolValue c ≠ none) :
    ∃ vs : List Nat, (processed mode t).map symbolValue = vs.map some := by
  refine ⟨(processed mode t).map fun c => (symbolValue c).getD 0, ?_⟩
  rw [List.map_map]
  refine List.map_congr_left fun c hc => ?_
  obtain ⟨v, hv⟩ := Option.ne_none_iff_exists'.1 (h c hc)
  simp [hv]

/-- A decode fails exactly at a processed byte that is no symbol (R88). -/
theorem decodeText_eq_none_iff {mode : DecodeMode} {t : List Byte} :
    decodeText mode t = none ↔ ∃ c ∈ processed mode t, symbolValue c = none := by
  refine ⟨fun h => ?_, decodeText_eq_none⟩
  by_contra hx
  push Not at hx
  obtain ⟨vs, hv⟩ := processed_symbols hx
  obtain ⟨bs, hb, -⟩ := decodeText_eq_some hv
  exact absurd (h.symm.trans hb) (by simp)

theorem processed_length_le (mode : DecodeMode) (t : List Byte) : (processed mode t).length ≤ t.length := by
  refine Nat.le_trans (List.takeWhile_sublist _).length_le ?_
  cases mode
  · exact Nat.le_refl _
  · exact (List.length_map ..).trans_le (List.length_filter_le ..)

/-- The decoded bytes are at most 5 for 8 characters (R91). -/
theorem decodeText_length_le {mode : DecodeMode} {t bs : List Byte} (h : decodeText mode t = some bs) :
    bs.length ≤ 5 * t.length / 8 := by
  have hx : ∀ c ∈ processed mode t, symbolValue c ≠ none := fun c hc hn => by
    rw [decodeText_eq_none ⟨c, hc, hn⟩] at h
    exact absurd h (by simp)
  obtain ⟨vs, hv⟩ := processed_symbols hx
  obtain ⟨bs', hb, hl, -⟩ := decodeText_eq_some hv
  obtain rfl : bs' = bs := Option.some.inj (hb.symm.trans h)
  have h1 : vs.length = (processed mode t).length := by simpa using (congrArg List.length hv).symm
  have := processed_length_le mode t
  omega

end Sys2Proof.Machine
end

