-- ==== Sys2Proof/Laws/Bus.lean ====
section
/-! SUPPORT. The laws of the window's layout, and what one host access can do, once. -/

namespace Sys2Proof.Machine

/-! ### Layout -/

@[simp] theorem windowOffset_base (off : Nat) (h : off < Config.windowSize) :
    windowOffset (Config.base + off) = some off := by
  unfold windowOffset
  rw [if_pos (by omega)]
  congr 1
  omega

theorem windowOffset_lt {addr off : Nat} (h : windowOffset addr = some off) : off < Config.windowSize := by
  unfold windowOffset at h
  split at h
  · obtain rfl : addr - Config.base = off := by simpa using h
    omega
  · exact absurd h (by simp)

@[simp] theorem targetAt_register (r : Reg) : targetAt r.offset = .reg r := by cases r <;> decide

theorem targetAt_reg_offset {off : Nat} {r : Reg} (h : targetAt off = .reg r) : off = r.offset := by
  unfold targetAt at h
  split at h
  · rename_i r' hf
    obtain rfl : r' = r := by simpa using h
    exact (show r'.offset = off by simpa using List.find?_some hf).symm
  · split at h <;> exact absurd h (by simp)

theorem targetAt_high {off : Nat} (h : 0x48 ≤ off) :
    targetAt off =
      (Buffer.all.find? fun b => b.holds off).elim .nothing fun b => .word b (off - b.base) := by
  unfold targetAt
  have hn : Reg.all.find? (fun r => r.offset == off) = none := by
    rw [List.find?_eq_none]
    intro r _
    have : r.offset ≤ 0x44 := by cases r <;> decide
    simp only [beq_iff_eq]
    omega
  simp only [hn]
  cases Buffer.all.find? (fun b => b.holds off) <;> rfl

theorem Buffer.holds_iff (b : Buffer) (off : Nat) : b.holds off = true ↔ b.base ≤ off ∧ off < b.base + b.cap := by
  simp [Buffer.holds]

/-- The buffers' windows and capacities as numbers (R8, R46). -/
theorem Buffer.bounds (b : Buffer) :
    b = .txt ∧ b.base = 0x400 ∧ b.cap = 256 ∨ b = .key ∧ b.base = 0x800 ∧ b.cap = 256 ∨
      b = .msg ∧ b.base = 0xC00 ∧ b.cap = 256 ∨ b = .out ∧ b.base = 0x1000 ∧ b.cap = 512 ∨
      b = .dig ∧ b.base = 0x1400 ∧ b.cap = 64 := by
  cases b <;> decide

/-- No offset is a byte of two buffers (R46). -/
theorem Buffer.holds_unique {b c : Buffer} {off : Nat} (hb : b.holds off = true) (hc : c.holds off = true) :
    b = c := by
  rw [Buffer.holds_iff] at hb hc
  rcases b.bounds with ⟨h, h1, h2⟩ | ⟨h, h1, h2⟩ | ⟨h, h1, h2⟩ | ⟨h, h1, h2⟩ | ⟨h, h1, h2⟩ <;>
    rcases c.bounds with ⟨k, k1, k2⟩ | ⟨k, k1, k2⟩ | ⟨k, k1, k2⟩ | ⟨k, k1, k2⟩ | ⟨k, k1, k2⟩ <;>
    first
      | exact h.trans k.symm
      | omega

/-- The word at index `i` of a buffer, inside its capacity (R46, R51). -/
theorem targetAt_word (b : Buffer) (i : Nat) (h : i < b.cap) : targetAt (b.base + i) = .word b i := by
  have hb : b.holds (b.base + i) = true := by rw [Buffer.holds_iff]; omega
  have h' : 0x48 ≤ b.base + i := by have := b.bounds; omega
  rw [targetAt_high h']
  cases hf : Buffer.all.find? (fun c => c.holds (b.base + i)) with
  | none =>
    rw [List.find?_eq_none] at hf
    exact absurd hb (hf b (by cases b <;> decide))
  | some c =>
    obtain rfl := Buffer.holds_unique hb (List.find?_some (p := fun c => Buffer.holds c (b.base + i)) hf)
    simp

theorem targetAt_word_holds {off i : Nat} {b : Buffer} (h : targetAt off = .word b i) :
    b.holds off = true ∧ off = b.base + i := by
  unfold targetAt at h
  split at h
  · exact absurd h (by simp)
  · split at h
    · rename_i b' hf
      obtain ⟨rfl, rfl⟩ : b' = b ∧ off - b'.base = i := by simpa using h
      have hb := List.find?_some hf
      refine ⟨hb, ?_⟩
      simp only [Buffer.holds, Bool.and_eq_true, decide_eq_true_eq] at hb
      omega
    · exact absurd h (by simp)

/-- A word at an aligned offset is wholly inside its buffer (R52). -/
theorem holds_word {off i : Nat} {b : Buffer} (h : targetAt off = .word b i) (ha : off % 4 = 0) (k : Nat)
    (hk : k < 4) : b.holds (b.base + i + k) = true := by
  obtain ⟨hb, rfl⟩ := targetAt_word_holds h
  rw [Buffer.holds_iff] at *
  have := b.bounds
  omega

/-- An offset that no register and no buffer byte has (R43, R46, R52). -/
theorem targetAt_nothing {off : Nat} (h : 0x48 ≤ off) (hb : ∀ b : Buffer, b.holds off = false) :
    targetAt off = .nothing := by
  rw [targetAt_high h, List.find?_eq_none.2 fun b _ => by simp [hb b], Option.elim_none]

/-- The target at a register's offset, the offset given as a number. -/
theorem targetAt_of_offset {r : Reg} {off : Nat} (h : r.offset = off) : targetAt off = .reg r := h ▸ targetAt_register r

/-- The target at an offset a buffer holds. -/
theorem targetAt_of_holds {b : Buffer} {off : Nat} (h : b.holds off = true) :
    targetAt off = .word b (off - b.base) := by
  rw [Buffer.holds_iff] at h
  have := targetAt_word b (off - b.base) (by omega)
  rwa [Nat.add_sub_cancel' h.1] at this

@[simp] theorem busy_of_pending_eq_none {s : State} (h : s.pending = none) : s.busy = false := by
  simp [State.busy, h]

theorem busy_of_pending_ne_none {s : State} (h : s.pending ≠ none) : s.busy = true := by
  simpa [State.busy, Option.isSome_iff_ne_none] using h

/-! ### Lanes -/

@[simp] theorem laneBytes_length (v : Word) : (laneBytes v).length = 4 := rfl

theorem laneWord_laneBytes (v : Word) : laneWord (laneBytes v) = v := by
  apply BitVec.eq_of_getElem_eq
  intro i hi
  rw [← BitVec.getLsbD_eq_getElem, ← BitVec.getLsbD_eq_getElem]
  simp only [laneWord, laneBytes, List.getD_cons_zero, List.getD_cons_succ, BitVec.getLsbD_append,
    BitVec.getLsbD_extractLsb']
  split
  · simp [*]
  · split
    · simp [show 8 + (i - 8) = i by omega, *]
    · split
      · simp [show 16 + (i - 8 - 8) = i by omega, *]
      · simp [show 24 + (i - 8 - 8 - 8) = i by omega, show i - 8 - 8 - 8 < 8 by omega]

/-! ### What one access can do -/

/-- A word read changes the counts of free draws and nothing else (R53). -/
theorem afterReadTarget_frame (t : Target) (s : State) :
    s.afterReadTarget t =
      { s with byteDraws := (s.afterReadTarget t).byteDraws, wordDraws := (s.afterReadTarget t).wordDraws } := by
  unfold State.afterReadTarget
  split
  · rfl
  · cases t <;> rfl

theorem load_frame (off : Nat) (s : State) :
    s.load off =
      { s with
        response := some (.data (s.loadValue off))
        byteDraws := (s.load off).byteDraws
        wordDraws := (s.load off).wordDraws } := by
  unfold State.load
  rw [afterReadTarget_frame]

/-- The cases of a host access that answers a next state: a read, a write, or a bus error. -/
theorem hostAccess_cases {a : Access} {s t : State} (h : hostAccess a s = .next t) :
    ∃ off, windowOffset a.addr = some off ∧
      ((a.supported off = true ∧ a.kind = .read ∧ t = s.load off) ∨
        (a.supported off = true ∧ ∃ v, a.kind = .write v ∧ t = s.store off v) ∨
        (a.supported off = false ∧ t = s.busError)) := by
  unfold hostAccess at h
  split at h
  · exact absurd h (by simp)
  · rename_i off ho
    refine ⟨off, ho, ?_⟩
    split at h
    · rename_i hs
      split at h
      · exact Or.inl ⟨hs, ‹_›, by simpa using h.symm⟩
      · exact Or.inr (Or.inl ⟨hs, _, ‹_›, by simpa using h.symm⟩)
    · exact Or.inr (Or.inr ⟨by rename_i hs; simpa using hs, by simpa using h.symm⟩)

/-- The cases of a word write: ignored with OVR, a register, a buffer word, or nothing. -/
theorem writeTarget_cases (tg : Target) (v : Word) (s : State) :
    (s.busy = true ∧ tg.gatedWhileBusy = true ∧ s.writeTarget tg v = s.overrun) ∨
      ((s.busy = false ∨ tg.gatedWhileBusy = false) ∧
        ((∃ r, tg = .reg r ∧ s.writeTarget tg v = s.writeReg r v) ∨
          (∃ b i, tg = .word b i ∧ s.writeTarget tg v = s.writeWord b i v) ∨
          (tg = .nothing ∧ s.writeTarget tg v = s))) := by
  unfold State.writeTarget
  by_cases h : (s.busy && tg.gatedWhileBusy) = true
  · rw [if_pos h]
    rw [Bool.and_eq_true] at h
    exact Or.inl ⟨h.1, h.2, rfl⟩
  · rw [if_neg h]
    refine Or.inr ⟨?_, ?_⟩
    · rw [Bool.and_eq_true, not_and_or] at h
      simpa using h
    · cases tg with
      | reg r => exact Or.inl ⟨r, rfl, rfl⟩
      | word b i => exact Or.inr (Or.inl ⟨b, i, rfl, rfl⟩)
      | nothing => exact Or.inr (Or.inr ⟨rfl, rfl⟩)

end Sys2Proof.Machine
end

