-- ==== Sys2Proof/Laws/Otp.lean ====
section
/-! SUPPORT. The laws of the truncation, of the counter's halves, and of reads of written bytes. -/

namespace Sys2Proof.Machine

/-! ### Truncation -/

/-- The big-endian value of 4 bytes that are there (R11). -/
theorem be32_eq (d : List Byte) (o : Nat) (h : o + 3 < d.length) :
    be32 d o = d[o].toNat * 2 ^ 24 + d[o + 1].toNat * 2 ^ 16 + d[o + 2].toNat * 2 ^ 8 + d[o + 3].toNat := by
  have g : ∀ k (hk : k < d.length), d.getD k 0 = d[k] := fun k hk => by simp [hk]
  unfold be32
  rw [g o (by omega), g (o + 1) (by omega), g (o + 2) (by omega), g (o + 3) h]

/-- R103 on numbers. -/
theorem truncate_off_toNat (d : List Byte) (h : 20 ≤ d.length) : (truncate d).off.toNat = d[19].toNat % 16 := by
  have : d[19]? = some d[19] := List.getElem?_eq_getElem (by omega)
  simp [truncate, truncOffset, this]

/-- R104 on numbers: bit 31 is cleared. -/
theorem truncate_bin_toNat (d : List Byte) : (truncate d).bin.toNat = be32 d (truncate d).off.toNat % 2 ^ 31 := by
  have hx : ∀ x, x &&& 0x7FFFFFFF = x % 2 ^ 31 := fun x => Nat.and_two_pow_sub_one_eq_mod x 31
  unfold truncate truncExtract
  rw [BitVec.toNat_ofNat, hx]
  exact Nat.mod_mod _ _

/-- R105 on numbers. -/
theorem truncate_code_toNat (d : List Byte) : (truncate d).code.toNat = (truncate d).bin.toNat % 1000000 := by
  have hx : ∀ x, x &&& 0x7FFFFFFF = x % 2 ^ 31 := fun x => Nat.and_two_pow_sub_one_eq_mod x 31
  have hb : truncExtract d = (truncate d).bin.toNat := by
    unfold truncate truncExtract
    rw [BitVec.toNat_ofNat, hx]
    exact (Nat.mod_mod _ _).symm
  have hl : (truncate d).bin.toNat % 1000000 < 2 ^ 20 := by omega
  rw [show (truncate d).code = BitVec.ofNat 20 (truncExtract d % 1000000) by rfl, hb, BitVec.toNat_ofNat]
  exact Nat.mod_eq_of_lt hl

theorem truncate_code_mod (d : List Byte) :
    (truncate d).code.toNat = (truncate d).bin.toNat % Config.codeModulus := by
  rw [show Config.codeModulus = 1000000 by rfl]
  exact truncate_code_toNat d

/-- A code lies in 0 to 999999 (R105). -/
theorem truncate_code_le (d : List Byte) : (truncate d).code.toNat ≤ 999999 := by
  rw [truncate_code_toNat]; omega

/-! ### Counter and timestamp -/

theorem halves_append (c : DWord) : c.extractLsb' 32 32 ++ c.extractLsb' 0 32 = c := by
  apply BitVec.eq_of_getElem_eq
  intro i hi
  rw [← BitVec.getLsbD_eq_getElem, ← BitVec.getLsbD_eq_getElem]
  simp only [BitVec.getLsbD_append, BitVec.getLsbD_extractLsb']
  split
  · simp [*]
  · simp [show 32 + (i - 32) = i by omega, show i - 32 < 32 by omega]

@[simp] theorem setCounter_counter (c : DWord) (s : State) : (s.setCounter c).counter = c := halves_append c

@[simp] theorem setTimestamp_timestamp (t : DWord) (s : State) : (s.setTimestamp t).timestamp = t := halves_append t

@[simp] theorem counterOf_toNat (t : DWord) : (counterOf t).toNat = t.toNat / 30 := by
  have := t.isLt
  unfold counterOf Config.timeStep
  rw [BitVec.toNat_ofNat, Nat.mod_eq_of_lt (by omega)]

/-! ### Reads of written bytes -/

/-- A read of written bytes changes nothing (R53). -/
theorem afterRead_of_written {s : State} {a n : Nat} (h : ∀ i, i < n → (Memory.get s.mem (a + i)).isSome = true) :
    s.afterRead a n = s := by
  unfold State.afterRead
  rw [Memory.unwritten_eq_zero _ _ _ h, Nat.add_zero]

/-- A read of bytes known one by one gives them. -/
theorem bytesAt_eq {s : State} {a : Nat} {bs : List Byte} (h : ∀ i, i < bs.length → Memory.get s.mem (a + i) = bs[i]?) :
    s.bytesAt a bs.length = bs := by
  refine List.ext_getElem? fun i => ?_
  by_cases hi : i < bs.length
  · have hs : bs[i]? = some bs[i] := List.getElem?_eq_getElem hi
    rw [State.bytesAt, Memory.bytes_getElem? _ _ _ _ i bs[i] hi ((h i hi).trans hs), hs]
  · rw [List.getElem?_eq_none (by simpa [State.bytesAt] using hi), List.getElem?_eq_none (by omega)]

end Sys2Proof.Machine
end

