-- ==== Sys2Proof/Laws/Authenticator.lean ====
section
/-! SUPPORT. What each host sequence can do on an idle block, once: later proofs cite these and unfold no sequence. -/

namespace Sys2Proof.Machine

/-! ### The updates the sequences make, by name -/

/-- The host's last answer is `r`. -/
def State.answered (r : Response) (s : State) : State := { s with response := some r }

@[simp] theorem State.answered_ie (r : Response) (s : State) : (s.answered r).ie = s.ie := (rfl)
@[simp] theorem State.answered_done (r : Response) (s : State) : (s.answered r).done = s.done := (rfl)
@[simp] theorem State.answered_ovr (r : Response) (s : State) : (s.answered r).ovr = s.ovr := (rfl)
@[simp] theorem State.answered_err (r : Response) (s : State) : (s.answered r).err = s.err := (rfl)
@[simp] theorem State.answered_cmd (r : Response) (s : State) : (s.answered r).cmd = s.cmd := (rfl)
@[simp] theorem State.answered_txtLen (r : Response) (s : State) : (s.answered r).txtLen = s.txtLen := (rfl)
@[simp] theorem State.answered_keyLen (r : Response) (s : State) : (s.answered r).keyLen = s.keyLen := (rfl)
@[simp] theorem State.answered_msgLen (r : Response) (s : State) : (s.answered r).msgLen = s.msgLen := (rfl)
@[simp] theorem State.answered_outLen (r : Response) (s : State) : (s.answered r).outLen = s.outLen := (rfl)
@[simp] theorem State.answered_digLen (r : Response) (s : State) : (s.answered r).digLen = s.digLen := (rfl)
@[simp] theorem State.answered_counterLo (r : Response) (s : State) : (s.answered r).counterLo = s.counterLo := (rfl)
@[simp] theorem State.answered_counterHi (r : Response) (s : State) : (s.answered r).counterHi = s.counterHi := (rfl)
@[simp] theorem State.answered_tsLo (r : Response) (s : State) : (s.answered r).tsLo = s.tsLo := (rfl)
@[simp] theorem State.answered_tsHi (r : Response) (s : State) : (s.answered r).tsHi = s.tsHi := (rfl)
@[simp] theorem State.answered_code (r : Response) (s : State) : (s.answered r).code = s.code := (rfl)
@[simp] theorem State.answered_truncBin (r : Response) (s : State) : (s.answered r).truncBin = s.truncBin := (rfl)
@[simp] theorem State.answered_truncOff (r : Response) (s : State) : (s.answered r).truncOff = s.truncOff := (rfl)
@[simp] theorem State.answered_pending (r : Response) (s : State) : (s.answered r).pending = s.pending := (rfl)
@[simp] theorem State.answered_mem (r : Response) (s : State) : (s.answered r).mem = s.mem := (rfl)
@[simp] theorem State.answered_schedule (r : Response) (s : State) : (s.answered r).schedule = s.schedule := (rfl)
@[simp] theorem State.answered_response (r : Response) (s : State) : (s.answered r).response = some r := (rfl)
@[simp] theorem State.answered_hostFault (r : Response) (s : State) : (s.answered r).hostFault = s.hostFault := (rfl)
@[simp] theorem State.answered_rngFeed (r : Response) (s : State) : (s.answered r).rngFeed = s.rngFeed := (rfl)
@[simp] theorem State.answered_clockFeed (r : Response) (s : State) : (s.answered r).clockFeed = s.clockFeed := (rfl)
@[simp] theorem State.answered_rngDraws (r : Response) (s : State) : (s.answered r).rngDraws = s.rngDraws := (rfl)
@[simp] theorem State.answered_clockDraws (r : Response) (s : State) : (s.answered r).clockDraws = s.clockDraws := (rfl)
@[simp] theorem State.answered_byteDraws (r : Response) (s : State) : (s.answered r).byteDraws = s.byteDraws := (rfl)
@[simp] theorem State.answered_wordDraws (r : Response) (s : State) : (s.answered r).wordDraws = s.wordDraws := (rfl)

/-- TXT and TXT_LEN as a `wbuf` leaves them. -/
def State.withText (n : BitVec 16) (m : Memory) (s : State) : State := { s with txtLen := n, mem := m }

@[simp] theorem State.withText_ie (n : BitVec 16) (m : Memory) (s : State) : (s.withText n m).ie = s.ie := (rfl)
@[simp] theorem State.withText_done (n : BitVec 16) (m : Memory) (s : State) : (s.withText n m).done = s.done := (rfl)
@[simp] theorem State.withText_ovr (n : BitVec 16) (m : Memory) (s : State) : (s.withText n m).ovr = s.ovr := (rfl)
@[simp] theorem State.withText_err (n : BitVec 16) (m : Memory) (s : State) : (s.withText n m).err = s.err := (rfl)
@[simp] theorem State.withText_cmd (n : BitVec 16) (m : Memory) (s : State) : (s.withText n m).cmd = s.cmd := (rfl)
@[simp] theorem State.withText_txtLen (n : BitVec 16) (m : Memory) (s : State) : (s.withText n m).txtLen = n := (rfl)
@[simp] theorem State.withText_keyLen (n : BitVec 16) (m : Memory) (s : State) : (s.withText n m).keyLen = s.keyLen := (rfl)
@[simp] theorem State.withText_msgLen (n : BitVec 16) (m : Memory) (s : State) : (s.withText n m).msgLen = s.msgLen := (rfl)
@[simp] theorem State.withText_outLen (n : BitVec 16) (m : Memory) (s : State) : (s.withText n m).outLen = s.outLen := (rfl)
@[simp] theorem State.withText_digLen (n : BitVec 16) (m : Memory) (s : State) : (s.withText n m).digLen = s.digLen := (rfl)
@[simp] theorem State.withText_counterLo (n : BitVec 16) (m : Memory) (s : State) : (s.withText n m).counterLo = s.counterLo := (rfl)
@[simp] theorem State.withText_counterHi (n : BitVec 16) (m : Memory) (s : State) : (s.withText n m).counterHi = s.counterHi := (rfl)
@[simp] theorem State.withText_tsLo (n : BitVec 16) (m : Memory) (s : State) : (s.withText n m).tsLo = s.tsLo := (rfl)
@[simp] theorem State.withText_tsHi (n : BitVec 16) (m : Memory) (s : State) : (s.withText n m).tsHi = s.tsHi := (rfl)
@[simp] theorem State.withText_code (n : BitVec 16) (m : Memory) (s : State) : (s.withText n m).code = s.code := (rfl)
@[simp] theorem State.withText_truncBin (n : BitVec 16) (m : Memory) (s : State) : (s.withText n m).truncBin = s.truncBin := (rfl)
@[simp] theorem State.withText_truncOff (n : BitVec 16) (m : Memory) (s : State) : (s.withText n m).truncOff = s.truncOff := (rfl)
@[simp] theorem State.withText_pending (n : BitVec 16) (m : Memory) (s : State) : (s.withText n m).pending = s.pending := (rfl)
@[simp] theorem State.withText_mem (n : BitVec 16) (m : Memory) (s : State) : (s.withText n m).mem = m := (rfl)
@[simp] theorem State.withText_schedule (n : BitVec 16) (m : Memory) (s : State) : (s.withText n m).schedule = s.schedule := (rfl)
@[simp] theorem State.withText_response (n : BitVec 16) (m : Memory) (s : State) : (s.withText n m).response = s.response := (rfl)
@[simp] theorem State.withText_hostFault (n : BitVec 16) (m : Memory) (s : State) : (s.withText n m).hostFault = s.hostFault := (rfl)
@[simp] theorem State.withText_rngFeed (n : BitVec 16) (m : Memory) (s : State) : (s.withText n m).rngFeed = s.rngFeed := (rfl)
@[simp] theorem State.withText_clockFeed (n : BitVec 16) (m : Memory) (s : State) : (s.withText n m).clockFeed = s.clockFeed := (rfl)
@[simp] theorem State.withText_rngDraws (n : BitVec 16) (m : Memory) (s : State) : (s.withText n m).rngDraws = s.rngDraws := (rfl)
@[simp] theorem State.withText_clockDraws (n : BitVec 16) (m : Memory) (s : State) : (s.withText n m).clockDraws = s.clockDraws := (rfl)
@[simp] theorem State.withText_byteDraws (n : BitVec 16) (m : Memory) (s : State) : (s.withText n m).byteDraws = s.byteDraws := (rfl)
@[simp] theorem State.withText_wordDraws (n : BitVec 16) (m : Memory) (s : State) : (s.withText n m).wordDraws = s.wordDraws := (rfl)

/-! ### Endings -/

@[simp] theorem HostResult.done_andThen {α β : Type} (a : α) (s : State) (k : α → State → HostResult β) :
    (HostResult.done a s).andThen k = k a s := rfl

@[simp] theorem HostResult.invalidSecretKey_andThen {α β : Type} (key : List Byte) (s : State)
    (k : α → State → HostResult β) :
    (HostResult.invalidSecretKey key s).andThen k = .invalidSecretKey key s := rfl

@[simp] theorem HostResult.refused_andThen {α β : Type} (k : α → State → HostResult β) :
    HostResult.refused.andThen k = .refused := rfl

/-! ### Register accesses of an idle block -/

theorem loadValue_status (s : State) : s.loadValue 0x004 = s.statusWord := by
  simp [State.loadValue, targetAt_of_offset (r := .status) (off := 0x004) rfl, State.readTarget,
    Target.definedWhileBusy, State.regWord]

theorem loadValue_register {s : State} (r : Reg) (off : Nat) (h : r.offset = off) (hp : s.pending = none) :
    s.loadValue off = s.regWord r := by
  simp [State.loadValue, targetAt_of_offset h, State.readTarget, hp]

theorem load_register {s : State} (r : Reg) (off : Nat) (h : r.offset = off) (hp : s.pending = none) :
    s.load off = s.answered (.data (s.regWord r)) := by
  rw [State.load, loadValue_register r off h hp]
  simp [targetAt_of_offset h, State.afterReadTarget, hp, State.answered]

theorem store_register {s : State} (r : Reg) (off : Nat) (h : r.offset = off) (v : Word) (hp : s.pending = none) :
    s.store off v = (s.writeReg r v).answered .written := by
  simp [State.store, targetAt_of_offset h, State.writeTarget, hp, State.answered]

theorem errField_statusWord (s : State) : errField s.statusWord = s.err.number.toNat := by
  unfold errField State.statusWord
  cases s.err <;> cases s.ovr <;> cases s.done <;> cases s.busy <;> decide

/-! ### `run` -/

/-- `poll` is the completion, then the STATUS read that sees it. -/
theorem poll_of_next {s t : State} (h : engineTurn s = .next t) (hp : t.pending = none) :
    poll s = .done t.statusWord (t.answered (.data t.statusWord)) := by
  rw [poll, h]
  simp only [loadValue_status]
  rw [load_register .status 0x004 rfl hp]
  rfl

/-- `run i` on an idle block is the acceptance, the command, and the STATUS read. -/
theorem runCommand_of_exec {i : Instr} {s t : State} (hp : s.pending = none) (hd : decode (encode i) = .ok i)
    (h : exec i ((s.accept (encode i)).answered .written) = .next t) (ht : t.pending = none) :
    runCommand i s = .done t.statusWord (t.answered (.data t.statusWord)) := by
  refine poll_of_next ?_ ht
  rw [store_register .cmd 0x008 rfl _ hp]
  simpa [engineTurn, State.writeReg, hd] using h

theorem runExpectOk_of_exec {i : Instr} {s t : State} (hp : s.pending = none) (hd : decode (encode i) = .ok i)
    (h : exec i ((s.accept (encode i)).answered .written) = .next t) (ht : t.pending = none) (he : t.err = .ok) :
    runExpectOk i s = .done () (t.answered (.data t.statusWord)) := by
  rw [runExpectOk, runCommand_of_exec hp hd h ht]
  simp [errField_statusWord, he, ErrCode.number]

/-! ### `wbuf` to TXT -/

theorem Memory.setRun_append (m : Memory) (a : Nat) (xs ys : List Byte) :
    Memory.setRun m a (xs ++ ys) = Memory.setRun (Memory.setRun m a xs) (a + xs.length) ys := by
  induction xs generalizing m a with
  | nil => simp
  | cons x xs ih =>
    rw [List.cons_append, Memory.setRun_cons, ih, Memory.setRun_cons, List.length_cons,
      show a + 1 + xs.length = a + (xs.length + 1) by omega]

theorem laneBytes_laneWord (a b c d : Byte) : laneBytes (laneWord [a, b, c, d]) = [a, b, c, d] := by
  simp only [laneBytes, laneWord, List.getD_cons_succ, List.getD_cons_zero, List.cons.injEq, and_true]
  refine ⟨?_, ?_, ?_, ?_⟩ <;>
  · apply BitVec.eq_of_getLsbD_eq
    intro i hi
    simp only [BitVec.getLsbD_extractLsb', BitVec.getLsbD_append, hi, decide_true, Bool.true_and]
    repeat' split
    all_goals first | (exfalso; omega) | (congr 1; omega)

/-- The packed words are the bytes, filled with zeros to whole words. -/
theorem packWords_bytes (bs : List Byte) :
    ∃ pad, (packWords bs).flatMap laneBytes = bs ++ pad ∧ (bs ++ pad).length = 4 * ((bs.length + 3) / 4) := by
  induction bs using packWords.induct with
  | case1 => exact ⟨[], rfl, rfl⟩
  | case2 a => exact ⟨[0, 0, 0], laneBytes_laneWord a 0 0 0, by simp⟩
  | case3 a b => exact ⟨[0, 0], laneBytes_laneWord a b 0 0, by simp⟩
  | case4 a b c => exact ⟨[0], laneBytes_laneWord a b c 0, by simp⟩
  | case5 a b c d t ih =>
    obtain ⟨pad, h1, h2⟩ := ih
    refine ⟨pad, ?_, ?_⟩
    · rw [packWords, List.flatMap_cons, h1, laneBytes_laneWord]; rfl
    · simp only [List.length_append, List.length_cons] at h2 ⊢; omega

theorem packWords_length (bs : List Byte) : (packWords bs).length = (bs.length + 3) / 4 := by
  induction bs using packWords.induct with
  | case5 a b c d t ih => rw [packWords, List.length_cons, ih]; simp only [List.length_cons]; omega
  | _ => simp [packWords]

/-- Words stored inside TXT change TXT and the host's answer only. -/
theorem storeWords_txt (ws : List Word) (off : Nat) (s : State) (hp : s.pending = none) (h0 : 0x400 ≤ off)
    (h1 : off + 4 * ws.length ≤ 0x500) :
    storeWords off ws s =
      { s with
        mem := Memory.setRun s.mem off (ws.flatMap laneBytes), response := (storeWords off ws s).response } := by
  induction ws generalizing off s with
  | nil => rfl
  | cons w ws ih =>
    rw [List.length_cons] at h1
    have ht : targetAt off = .word .txt (off - Buffer.txt.base) := targetAt_of_holds <| by
      rw [Buffer.holds_iff]
      exact ⟨h0, by show off < 0x400 + 256; omega⟩
    have hm : (s.store off w).mem = Memory.setRun s.mem off (laneBytes w) := by
      simp [State.store, ht, State.writeTarget, hp, State.writeWord, show Buffer.txt.base = 0x400 from rfl,
        Nat.add_sub_cancel' h0]
    have hs : s.store off w = { s with mem := (s.store off w).mem, response := (s.store off w).response } := by
      simp [State.store, ht, State.writeTarget, hp, State.writeWord]
    rw [storeWords, List.flatMap_cons, Memory.setRun_append, laneBytes_length, ← hm]
    generalize s.store off w = u at hs
    rw [ih (off + 4) u (by rw [hs]; exact hp) (by omega) (by omega), hs]

/-- `wbuf` of a text that fits: TXT holds it, TXT_LEN is its length, and nothing outside TXT changes (R75, R120). -/
theorem wbuf_txt (bs : List Byte) (s : State) (hp : s.pending = none) (hl : bs.length ≤ 256) :
    ∃ m, wbuf 0x400 0x00C bs s = (s.withText (BitVec.ofNat 16 bs.length) m).answered .written ∧
      (∀ i, i < bs.length → Memory.get m (0x400 + i) = bs[i]?) ∧
      ∀ a, a < 0x400 ∨ 0x500 ≤ a → Memory.get m a = Memory.get s.mem a := by
  obtain ⟨pad, hb, hn⟩ := packWords_bytes bs
  have hw := storeWords_txt (packWords bs) 0x400 s hp (Nat.le_refl _) (by rw [packWords_length]; omega)
  refine ⟨Memory.setRun s.mem 0x400 (bs ++ pad), ?_, fun i hi => ?_, fun a ha => ?_⟩
  · have hn16 : (BitVec.ofNat 32 bs.length).setWidth 16 = BitVec.ofNat 16 bs.length := by
      apply BitVec.eq_of_toNat_eq
      simp only [BitVec.toNat_setWidth, BitVec.toNat_ofNat]
      omega
    rw [wbuf, hw, hb, store_register .txtLen 0x00C rfl]
    · simp only [State.writeReg, hn16]
      rfl
    · exact hp
  · rw [Memory.get_setRun_inside _ _ _ _ (by rw [List.length_append]; omega), List.getElem_append_left hi]
    simp [hi]
  · exact Memory.get_setRun_outside _ _ _ _ (by omega)

/-! ### `rbuf` -/

/-- A word read inside a buffer of an idle block gives its four bytes, the unwritten ones fresh (R44, R51). -/
theorem loadValue_word (b : Buffer) (i : Nat) {s : State} (h : i < b.cap) (hp : s.pending = none) :
    s.loadValue (b.base + i) = laneWord (s.bytesAt (b.base + i) 4) := by
  simp [State.loadValue, targetAt_word b i h, State.readTarget, hp]

theorem load_word (b : Buffer) (i : Nat) {s : State} (h : i < b.cap) (hp : s.pending = none) :
    s.load (b.base + i) = (s.afterRead (b.base + i) 4).answered (.data (s.loadValue (b.base + i))) := by
  simp [State.load, targetAt_word b i h, State.afterReadTarget, hp, State.answered]

theorem laneBytes_laneWord_of_length {bs : List Byte} (h : bs.length = 4) : laneBytes (laneWord bs) = bs := by
  match bs, h with
  | [a, b, c, d], _ => exact laneBytes_laneWord a b c d

/-- `n` words read inside a buffer of an idle block, over bytes that are written, give those bytes and leave nothing
but the host's answer. -/
theorem loadWords_written (b : Buffer) (n i : Nat) (bs : List Byte) (s : State) (hp : s.pending = none)
    (hc : i + 4 * n ≤ b.cap) (hl : bs.length = 4 * n)
    (h : ∀ k, k < bs.length → Memory.get s.mem (b.base + i + k) = bs[k]?) :
    (loadWords (b.base + i) n s).1 = bs ∧
      (loadWords (b.base + i) n s).2 = { s with response := (loadWords (b.base + i) n s).2.response } := by
  induction n generalizing i bs s with
  | zero => exact ⟨(List.eq_nil_of_length_eq_zero hl).symm, rfl⟩
  | succ n ih =>
    have hi : i < b.cap := by omega
    have h4 : (bs.take 4).length = 4 := by rw [List.length_take]; omega
    have hb : s.bytesAt (b.base + i) 4 = bs.take 4 := by
      have := bytesAt_eq (s := s) (a := b.base + i) (bs := bs.take 4) fun k hk => by
        rw [h4] at hk
        rw [h k (by omega), List.getElem?_take_of_lt hk]
      rwa [h4] at this
    have hr : s.afterRead (b.base + i) 4 = s := afterRead_of_written fun k hk => by
      rw [h k (by omega), List.getElem?_eq_getElem (by omega)]
      rfl
    have hs := load_word b i hi hp
    rw [hr] at hs
    simp only [loadWords, loadValue_word b i hi hp, hb, laneBytes_laneWord_of_length h4]
    rw [Nat.add_assoc]
    generalize s.load (b.base + i) = u at hs ⊢
    obtain ⟨h1, h2⟩ := ih (i + 4) (bs.drop 4) u (by rw [hs]; exact hp) (by omega) (by rw [List.length_drop]; omega)
      fun k hk => by
        rw [List.length_drop] at hk
        rw [hs, List.getElem?_drop, show b.base + (i + 4) + k = b.base + i + (4 + k) by omega]
        exact h (4 + k) (by omega)
    exact ⟨by rw [h1, List.take_append_drop], by rw [h2, hs]; rfl⟩

/-- `rbuf` of written bytes of an idle block, whole words of them (R75). -/
theorem rbuf_written (b : Buffer) (n : Nat) (bs : List Byte) (s : State) (hp : s.pending = none)
    (hc : 4 * n ≤ b.cap) (hl : bs.length = 4 * n) (h : ∀ k, k < bs.length → Memory.get s.mem (b.base + k) = bs[k]?) :
    (rbuf b.base (4 * n) s).1 = bs := by
  have hw := (loadWords_written b n 0 bs s hp (by omega) hl h).1
  rw [Nat.add_zero] at hw
  rw [rbuf, show (4 * n + 3) / 4 = n by omega, hw, ← hl, List.take_length]

/-! ### The Authenticator's parts -/

/-- R119: `pretty` of 16 characters is 20. -/
theorem pretty_length {secret : List Byte} (h : secret.length = 16) : (pretty secret).length = 20 := by
  simp [pretty, h]

/-- `run b32enc 10` leaves the characters of the next 16 RNG values in OUT (R118). -/
theorem runB32enc_ten (s : State) (hp : s.pending = none) :
    ∃ t : State, runExpectOk (.b32enc 10) s = .done () t ∧ t.pending = none ∧
      ∀ k, k < 16 → Memory.get t.mem (0x1000 + k) = ((s.rngValues 16).map encSymbol)[k]? := by
  obtain ⟨v, hv⟩ : ∃ v, (s.accept (encode (.b32enc 10))).answered .written = v := ⟨_, rfl⟩
  have hr : v.rngValues 16 = s.rngValues 16 := by rw [← hv]; rfl
  rcases execB32enc_cases 10 v with ⟨h, -⟩ | ⟨-, he⟩
  · exact absurd h (by decide)
  · rw [show encLength 10 = 16 by rfl, hr] at he
    have hl : ((s.rngValues 16).map encSymbol).length = 16 := by simp
    generalize (s.rngValues 16).map encSymbol = bs at he hl ⊢
    obtain ⟨t, ht⟩ : ∃ t, ((v.afterRng 16).storeOut bs).finish .ok = t := ⟨_, rfl⟩
    rw [ht] at he
    have hm : t.mem = Memory.setRun v.mem 0x1000 bs := by rw [← ht]; rfl
    have htp : t.pending = none := by rw [← ht]; rfl
    refine ⟨_, runExpectOk_of_exec hp (by decide) (by rw [hv]; exact he) htp (by rw [← ht]; rfl), htp, fun k hk => ?_⟩
    rw [State.answered_mem, hm, Memory.get_setRun_inside _ _ _ _ (by omega), List.getElem?_eq_getElem (by omega)]

/-- The block is idle and KEY holds the bytes `k`: what a successful key loading leaves (R120). -/
structure State.KeyLoaded (k : List Byte) (s : State) : Prop where
  idle : s.pending = none
  length : s.keyLen.toNat = k.length
  bytes : ∀ i, i < k.length → Memory.get s.mem (0x800 + i) = k[i]?

theorem State.KeyLoaded.keyBytes {k : List Byte} {s : State} (h : s.KeyLoaded k) : s.keyBytes = k := by
  rw [State.keyBytes, h.length]
  exact bytesAt_eq h.bytes

/-- Key loading refuses a text that TXT cannot hold (R120; I14). -/
theorem loadKey_refused {key : List Byte} (s : State) (h : 256 < key.length) : loadKey key s = .refused := if_pos h

/-- What key loading leaves alone: COUNTER, CODE, DIG, DIG_LEN and the clock port. -/
structure LoadKeyFrame (s t : State) : Prop where
  counter : t.counter = s.counter
  digLen : t.digLen = s.digLen
  code : t.code = s.code
  clockFeed : t.clockFeed = s.clockFeed
  clockDraws : t.clockDraws = s.clockDraws
  mem : ∀ a, 0x900 ≤ a → Memory.get t.mem a = Memory.get s.mem a

theorem LoadKeyFrame.clockValue {s t : State} (h : LoadKeyFrame s t) : t.clockValue = s.clockValue := by
  unfold State.clockValue
  rw [h.clockFeed, h.clockDraws]

/-- The end of key loading, once the decoder has completed with `t`. -/
theorem loadKey_of_exec {key : List Byte} {s t : State} {m : Memory} (hp : s.pending = none) (hl : key.length ≤ 256)
    (hw : wbuf 0x400 0x00C key s = (s.withText (BitVec.ofNat 16 key.length) m).answered .written)
    (h : execB32dec .user .key
      ((((s.withText (BitVec.ofNat 16 key.length) m).answered .written).accept
        (encode (.b32dec .user .key))).answered .written) = .next t) (ht : t.pending = none) :
    ∃ r, loadKey key s =
      if t.err.number.toNat = 2 then .invalidSecretKey key (t.answered r)
      else if t.err.number.toNat ≠ 0 then .hostFault
      else if t.keyLen.toNat < 10 then .invalidSecretKey key (t.answered r)
      else .done () (t.answered r) := by
  have hi : ((s.withText (BitVec.ofNat 16 key.length) m).answered .written).pending = none := hp
  have hk : (t.keyLen.setWidth 32).toNat = t.keyLen.toNat := by
    rw [BitVec.toNat_setWidth]
    omega
  refine ⟨.data (t.keyLen.setWidth 32), ?_⟩
  unfold loadKey
  rw [if_neg (by show ¬ 256 < key.length; omega), hw, runCommand_of_exec (i := .b32dec .user .key) hi (by decide) h ht]
  obtain ⟨u, hu⟩ : ∃ u, t.answered (.data t.statusWord) = u := ⟨_, rfl⟩
  have hup : u.pending = none := by rw [← hu]; exact ht
  have h4 : u.load 0x004 = u.answered (.data t.statusWord) := by
    rw [load_register .status 0x004 rfl hup, ← hu]
    rfl
  have hp4 : (u.answered (.data t.statusWord)).pending = none := hup
  have hl4 : (u.answered (.data t.statusWord)).regWord .keyLen = t.keyLen.setWidth 32 := by rw [← hu]; rfl
  have hr4 : (u.answered (.data t.statusWord)).answered (.data (t.keyLen.setWidth 32)) =
      t.answered (.data (t.keyLen.setWidth 32)) := by rw [← hu]; rfl
  have he : u.err = t.err := by rw [← hu]; rfl
  simp only [HostResult.done_andThen, hu, loadValue_status, errField_statusWord, he, h4,
    loadValue_register .keyLen 0x010 rfl hp4, load_register .keyLen 0x010 rfl hp4, hl4, hr4, hk]

/-- Key loading of a text that fits: it fails to decode, decodes to fewer than 10 bytes, or is loaded (R120). -/
theorem loadKey_cases (key : List Byte) (s : State) (hp : s.pending = none) (hl : key.length ≤ 256) :
    ∃ t : State, LoadKeyFrame s t ∧
      ((decodeText .user key = none ∧ loadKey key s = .invalidSecretKey key t) ∨
        ∃ k, decodeText .user key = some k ∧ t.KeyLoaded k ∧ k.length ≤ 160 ∧
          loadKey key s = if k.length < 10 then .invalidSecretKey key t else .done () t) := by
  obtain ⟨m, hw, hin, hout⟩ := wbuf_txt key s hp hl
  have hlen : (BitVec.ofNat 16 key.length).toNat = key.length := by rw [BitVec.toNat_ofNat]; omega
  have main := fun t => loadKey_of_exec (t := t) hp hl hw
  generalize hv : ((((s.withText (BitVec.ofNat 16 key.length) m).answered .written).accept
    (encode (.b32dec .user .key))).answered .written) = v at main
  have htl : v.txtLen.toNat = key.length := by rw [← hv]; exact hlen
  have hvm : v.mem = m := by rw [← hv]; rfl
  have hf : LoadKeyFrame s v := by
    rw [← hv]
    exact ⟨rfl, rfl, rfl, rfl, rfl, fun a ha => hout a (by omega)⟩
  have htext : v.textBytes = key := by
    rw [State.textBytes, htl]
    exact bytesAt_eq (by rw [hvm]; exact hin)
  rcases execB32dec_cases .user .key v with ⟨h0, -⟩ | ⟨-, ⟨hn, he⟩ | ⟨k, hk, hc⟩⟩
  · exact absurd h0 (by rw [htl]; show ¬ 256 < key.length; omega)
  · obtain ⟨r, hr⟩ := main _ he rfl
    refine ⟨_, ?_, Or.inl ⟨htext ▸ hn, hr⟩⟩
    exact ⟨hf.counter, hf.digLen, hf.code, hf.clockFeed, hf.clockDraws, hf.mem⟩
  · rw [htext] at hk
    have hkl : k.length ≤ 160 := by have := decodeText_length_le hk; omega
    rcases hc with ⟨hc, -⟩ | ⟨-, he⟩
    · exact absurd hc (by show ¬ 256 < k.length; omega)
    · obtain ⟨r, hr⟩ := main _ he rfl
      have hk16 : (BitVec.ofNat 16 k.length).toNat = k.length := by rw [BitVec.toNat_ofNat]; omega
      refine ⟨((v.afterText.storeDecoded .key k).finish .ok).answered r, ?_,
        Or.inr ⟨k, hk, ⟨rfl, hk16, fun i hi => ?_⟩, hkl, ?_⟩⟩
      rotate_left
      · exact (Memory.get_setRun_inside _ _ _ _ hi).trans (by simp [hi])
      · rw [hr]
        simp [ErrCode.number, hk16]
      · refine ⟨hf.counter, hf.digLen, hf.code, hf.clockFeed, hf.clockDraws, fun a ha => ?_⟩
        refine Eq.trans (Memory.get_setRun_outside _ _ _ _ (Or.inr ?_)) (hf.mem a ha)
        show 0x800 + k.length ≤ a
        omega

/-- `run tstep`: COUNTER is the counter of the timestamp, sampled or not, and the key stands (R112). -/
theorem runTstep_eq (source : TimeSource) {k : List Byte} {s : State} (h : s.KeyLoaded k) :
    ∃ t, runExpectOk (.tstep source) s = .done () t ∧ t.KeyLoaded k ∧
      t.counter = counterOf (s.sampleClock source).timestamp := by
  obtain ⟨v, hv⟩ : ∃ v, ((s.accept (encode (.tstep source))).answered .written).sampleClock source = v := ⟨_, rfl⟩
  have hf : v.keyLen = s.keyLen ∧ v.mem = s.mem ∧ v.timestamp = (s.sampleClock source).timestamp := by
    rw [← hv]
    cases source <;> exact ⟨rfl, rfl, rfl⟩
  have he : exec (.tstep source) ((s.accept (encode (.tstep source))).answered .written) =
      .next ((v.setCounter (counterOf v.timestamp)).finish .ok) := by
    rw [← hv]
    rfl
  refine ⟨_, runExpectOk_of_exec h.idle (by cases source <;> decide) he rfl rfl, ⟨rfl, ?_, ?_⟩, ?_⟩
  · exact (congrArg BitVec.toNat hf.1).trans h.length
  · exact fun i hi => (congrArg (Memory.get · (0x800 + i)) hf.2.1).trans (h.bytes i hi)
  · exact (setCounter_counter _ v).trans (congrArg counterOf hf.2.2)

/-- TSTEP from a given timestamp, or from the wall clock: COUNTER is its 30-second counter and the key stands (R122). -/
theorem setCounterFrom_some {k : List Byte} {s : State} (h : s.KeyLoaded k) {ts : Int} (h0 : 0 ≤ ts)
    (h1 : ts < 2 ^ 64) :
    ∃ t, setCounterFrom (some ts) s = .done () t ∧ t.KeyLoaded k ∧ t.counter = counterOf (BitVec.ofInt 64 ts) := by
  have hw : (s.store 0x028 ((BitVec.ofInt 64 ts).extractLsb' 0 32)).store 0x02C
      ((BitVec.ofInt 64 ts).extractLsb' 32 32) = (s.setTimestamp (BitVec.ofInt 64 ts)).answered .written := by
    rw [store_register .tsLo 0x028 rfl _ h.idle, store_register .tsHi 0x02C rfl]
    · rfl
    · exact h.idle
  have hl : ((s.setTimestamp (BitVec.ofInt 64 ts)).answered .written).KeyLoaded k := ⟨h.idle, h.length, h.bytes⟩
  obtain ⟨t, ht, htl, hc⟩ := runTstep_eq .ts hl
  refine ⟨t, (if_pos ⟨h0, h1⟩).trans (hw ▸ ht), htl, hc.trans (congrArg counterOf ?_)⟩
  exact setTimestamp_timestamp _ s

theorem setCounterFrom_none {k : List Byte} {s : State} (h : s.KeyLoaded k) :
    ∃ t, setCounterFrom none s = .done () t ∧ t.KeyLoaded k ∧ t.counter = counterOf s.clockValue := by
  obtain ⟨t, ht, htl, hc⟩ := runTstep_eq .now h
  exact ⟨t, ht, htl, hc.trans (congrArg counterOf (setTimestamp_timestamp _ _))⟩

theorem setCounterFrom_refused {ts : Int} (s : State) (h : ts < 0 ∨ 2 ^ 64 ≤ ts) :
    setCounterFrom (some ts) s = .refused := if_neg (by omega)

/-- HOTP and the read of CODE: the code of the loaded key at COUNTER, and the key stands (R108, R122). -/
theorem readHotp_eq {k : List Byte} {s : State} (h : s.KeyLoaded k) (hk : k.length ≤ 160) :
    ∃ t, readHotp s = .done (hotpCode k s.counter) t ∧ t.KeyLoaded k := by
  obtain ⟨v, hv⟩ : ∃ v, (s.accept (encode .hotp)).answered .written = v := ⟨_, rfl⟩
  have hvk : v.keyBytes = k := by
    rw [← hv]
    exact (⟨rfl, h.length, h.bytes⟩ : (((s.accept (encode .hotp)).answered .written).finish .ok).KeyLoaded k).keyBytes
  have hvc : v.counter = s.counter := by rw [← hv]; rfl
  rcases execHotp_cases v with ⟨h0, -⟩ | ⟨-, he⟩
  · refine absurd h0 ?_
    rw [← hv]
    show ¬ 256 < s.keyLen.toNat
    rw [h.length]
    omega
  · generalize ht : ((v.afterKey.storeDigest (hotpDigest v)).storeTruncation (truncate (hotpDigest v))).finish .ok = t
      at he
    have hp : t.pending = none := by rw [← ht]; rfl
    have hc : (t.code.setWidth 32).toNat = hotpCode k s.counter := by
      rw [BitVec.toNat_setWidth, Nat.mod_eq_of_lt (by omega), ← ht]
      unfold hotpCode
      rw [← hvk, ← hvc]
      rfl
    have hl : t.KeyLoaded k := by
      refine ⟨hp, by rw [← ht, ← hv]; exact h.length, fun i hi => ?_⟩
      rw [← ht]
      refine (Memory.get_setRun_outside _ _ _ _ (Or.inl ?_)).trans (by rw [← hv]; exact h.bytes i hi)
      show 0x800 + i < 0x1400
      omega
    have hrun : runExpectOk .hotp s = .done () (t.answered (.data t.statusWord)) :=
      runExpectOk_of_exec h.idle (by decide) (hv ▸ he) hp (by rw [← ht]; rfl)
    refine ⟨(t.answered (.data t.statusWord)).answered (.data (t.code.setWidth 32)), ?_, ⟨hp, hl.length, hl.bytes⟩⟩
    have hp' : (t.answered (.data t.statusWord)).pending = none := hp
    rw [readHotp, hrun, HostResult.done_andThen, loadValue_register .code 0x030 rfl hp', load_register .code 0x030 rfl hp',
      ← hc]
    rfl

/-- Trying counters in order accepts exactly a code of one of them (R123). -/
theorem tryCounters_eq {k : List Byte} (code : Int) (hk : k.length ≤ 160) (cs : List DWord) (s : State)
    (h : s.KeyLoaded k) :
    ∃ (b : Bool) (t : State), tryCounters code cs s = .done b t ∧
      (b = true ↔ ∃ c ∈ cs, (hotpCode k c : Int) = code) := by
  induction cs generalizing s with
  | nil => exact ⟨false, s, rfl, by simp⟩
  | cons c cs ih =>
    obtain ⟨u, hu⟩ : ∃ u, (s.store 0x020 (c.extractLsb' 0 32)).store 0x024 (c.extractLsb' 32 32) = u := ⟨_, rfl⟩
    have he : u = (s.setCounter c).answered .written := by
      rw [← hu, store_register .counterLo 0x020 rfl _ h.idle, store_register .counterHi 0x024 rfl]
      · rfl
      · exact h.idle
    have hul : u.KeyLoaded k := by rw [he]; exact ⟨h.idle, h.length, h.bytes⟩
    have huc : u.counter = c := by rw [he]; exact setCounter_counter c s
    obtain ⟨t, ht, htl⟩ := readHotp_eq hul hk
    rw [huc] at ht
    rw [tryCounters, hu, ht, HostResult.done_andThen]
    by_cases hc : (hotpCode k c : Int) = code
    · exact ⟨true, t, if_pos hc, by simp [hc]⟩
    · obtain ⟨b, v, hb, hiff⟩ := ih t htl
      exact ⟨b, v, by rw [if_neg hc, hb], by simp [hiff, hc]⟩

/-- The counters a code is tried at are those at most one away that 64 bits hold (R123, R124). -/
theorem mem_windowCounters (c x : DWord) :
    x ∈ windowCounters c ↔ x.toNat ≤ c.toNat + 1 ∧ c.toNat ≤ x.toNat + 1 := by
  have hc := c.isLt
  have hx := x.isLt
  have h1 : (1 : DWord).toNat = 1 := rfl
  unfold windowCounters
  simp only [List.mem_append, List.mem_singleton]
  split <;> split <;>
    simp only [List.mem_singleton, List.not_mem_nil, or_false, false_or, ← BitVec.toNat_inj, BitVec.toNat_add,
      BitVec.toNat_sub, h1] <;>
    omega

end Sys2Proof.Machine
end

