-- ==== Sys2Proof/Laws/Decode.lean ====
section
/-! SUPPORT. The laws of a row of the opcode map. -/

namespace Sys2Proof

theorem Row.matchesWord_iff {r : Row} {w : Word} : r.matchesWord w = true ↔ w &&& r.mask = r.pat := by
  simp [Row.matchesWord]

/-- Where a row's mask has a bit, a word that matches the row has the row's bit. -/
theorem Row.bit_of_matchesWord {r : Row} {w : Word} (h : r.matchesWord w = true) {k : Nat}
    (hk : r.mask.getLsbD k = true) : w.getLsbD k = r.pat.getLsbD k := by
  have := congrArg (fun v => BitVec.getLsbD v k) (Row.matchesWord_iff.1 h)
  simpa [hk] using this

/-- A word that decodes matches its command's row (R65). -/
theorem matchesWord_of_decode {w : Word} {i : Instr} (h : decode w = .ok i) : i.row.matchesWord w = true := by
  unfold decode at h
  repeat' split at h
  all_goals first
    | (cases h; assumption)
    | cases h

/-- A word that decodes to nothing matches no row (R71). -/
theorem not_matchesWord_of_decode {w : Word} {e : IllegalWord} (h : decode w = .error e) :
    ∀ r ∈ opcodeTable, r.matchesWord w = false := by
  unfold decode at h
  simp only [opcodeTable, List.mem_cons, forall_eq_or_imp]
  repeat' split at h
  all_goals simp_all

end Sys2Proof
end

