-- ==== Sys2Proof/Laws/PerInstr.lean ====
section
/-! SUPPORT. Statements for all commands, made per command. -/

namespace Sys2Proof.Laws

/-- The word of a well-formed command matches the command's row of the opcode map (R65). -/
def EncodesItsRow.Statement (i : Instr) : Prop := i.wellFormed = true → i.row.matchesWord (encode i) = true

theorem EncodesItsRow.b32enc (n : Nat) : EncodesItsRow.Statement (.b32enc n) := by
  intro h
  have hn : n < 256 := by simpa [Instr.wellFormed] using h
  have all : ∀ v : Fin 256, rowB32enc.matchesWord (encode (.b32enc v.val)) = true := by decide +kernel
  exact all ⟨n, hn⟩

theorem EncodesItsRow.b32dec (mode : DecodeMode) (dest : Dest) : EncodesItsRow.Statement (.b32dec mode dest) := by
  cases mode <;> cases dest <;> exact fun _ => by decide

theorem EncodesItsRow.hmac (form : HmacForm) : EncodesItsRow.Statement (.hmac form) := by
  cases form <;> exact fun _ => by decide

theorem EncodesItsRow.trunc : EncodesItsRow.Statement .trunc := fun _ => by decide

theorem EncodesItsRow.hotp : EncodesItsRow.Statement .hotp := fun _ => by decide

theorem EncodesItsRow.tstep (source : TimeSource) : EncodesItsRow.Statement (.tstep source) := by
  cases source <;> exact fun _ => by decide

end Sys2Proof.Laws
end

