-- ==== Sys2Proof/Laws/Step.lean ====
section
/-! SUPPORT. What one step can do, once. -/

namespace Sys2Proof.Machine

/-- The cases of the engine's turn: nothing pending, a command, or an illegal word (R129). -/
theorem engineTurn_cases (s : State) :
    (s.pending = none ∧ engineTurn s = .next s) ∨
      ∃ w, s.pending = some w ∧
        ((∃ i, decode w = .ok i ∧ engineTurn s = exec i s) ∨
          ∃ e, decode w = .error e ∧ engineTurn s = .next (s.finish .illegal)) := by
  unfold engineTurn
  cases hp : s.pending with
  | none => exact Or.inl ⟨rfl, rfl⟩
  | some w =>
    refine Or.inr ⟨w, rfl, ?_⟩
    cases hd : decode w with
    | ok i => exact Or.inl ⟨i, rfl, by simp [hd]⟩
    | error e => exact Or.inr ⟨e, rfl, by simp [hd]⟩

/-- The cases of a step that answers a next state: the engine's turn with no event left, or the next event (R58). -/
theorem step_cases {s t : State} (h : step s = .next t) :
    s.hostFault = false ∧
      ((s.schedule = [] ∧ engineTurn s = .next t) ∨
        ∃ e es, s.schedule = e :: es ∧ runEvent e { s with schedule := es } = .next t) := by
  unfold step at h
  split at h
  · exact absurd h (by simp)
  · refine ⟨by rename_i hf; simpa using hf, ?_⟩
    unfold runNext at h
    split at h
    · exact Or.inl ⟨‹_›, h⟩
    · exact Or.inr ⟨_, _, ‹_›, h⟩

/-- A recorded host fault stops every step (R50, I5). -/
theorem step_of_hostFault {s : State} (h : s.hostFault = true) : step s = .fault .hostBusError := by
  simp [step, h]

/-- A run of the host's interface that begins with a step to a next state goes on from there. -/
theorem Core.run_succ_of_next {M : Host.Core} {s t : M.State} (h : M.step s = .next t) (k : Nat) :
    M.run (k + 1) s = M.run k t := by
  rw [Host.Core.run.eq_2, h]

theorem run_succ_of_next {s t : State} (h : step s = .next t) (k : Nat) : core.run (k + 1) s = core.run k t :=
  Core.run_succ_of_next (M := core) h k

end Sys2Proof.Machine
end

