-- ==== Sys2Proof/Machine/Assembler.lean ====
section
/-! DEFINITION. The assembler lines of 30_encoding.md R74: a mnemonic and its optional operands, as text. -/

namespace Sys2Proof.Machine

/-- The words of a line: spaces and commas separate them. -/
def asmWords : List Char → List Char → List (List Char)
  | [], cur => if cur = [] then [] else [cur.reverse]
  | c :: cs, cur =>
    if c = ' ' ∨ c = ',' then (if cur = [] then asmWords cs [] else cur.reverse :: asmWords cs [])
    else asmWords cs (c :: cur)

/-- The value of a digit in a base, or none. -/
def asmDigit (radix : Nat) (c : Char) : Option Nat :=
  let d :=
    if 48 ≤ c.toNat ∧ c.toNat ≤ 57 then c.toNat - 48
    else if 97 ≤ c.toNat ∧ c.toNat ≤ 102 then c.toNat - 87
    else if 65 ≤ c.toNat ∧ c.toNat ≤ 70 then c.toNat - 55
    else radix
  if d < radix then some d else none

/-- A digit string in a base, from the value read so far. -/
def asmDigits (radix : Nat) : List Char → Nat → Option Nat
  | [], acc => some acc
  | c :: cs, acc =>
    match asmDigit radix c with
    | some d => asmDigits radix cs (acc * radix + d)
    | none => none

/-- A number, decimal or 0x hex (R74). -/
def asmNumber : List Char → Option Nat
  | [] => none
  | ['0', 'x'] => none
  | '0' :: 'x' :: ds => asmDigits 16 ds 0
  | ds => asmDigits 10 ds 0

/-- `user` or `strict` (R74). -/
def asmMode (w : List Char) : Option DecodeMode :=
  if w = ['u', 's', 'e', 'r'] then some .user
  else if w = ['s', 't', 'r', 'i', 'c', 't'] then some .strict
  else none

/-- `out` or `key` (R74). -/
def asmDest (w : List Char) : Option Dest :=
  if w = ['o', 'u', 't'] then some .out else if w = ['k', 'e', 'y'] then some .key else none

/-- `raw` or `hex` (R74). -/
def asmForm (w : List Char) : Option HmacForm :=
  if w = ['r', 'a', 'w'] then some .raw else if w = ['h', 'e', 'x'] then some .hex else none

/-- `ts` or `now` (R74). -/
def asmSource (w : List Char) : Option TimeSource :=
  if w = ['t', 's'] then some .ts else if w = ['n', 'o', 'w'] then some .now else none

/-- The operands of `b32dec`, with the defaults `user` and `out` (R74). -/
def asmB32dec : List (List Char) → Option Instr
  | [] => some (.b32dec .user .out)
  | [w] =>
    match asmMode w with
    | some m => some (.b32dec m .out)
    | none => (asmDest w).map fun d => .b32dec .user d
  | [m, d] =>
    match asmMode m, asmDest d with
    | some m, some d => some (.b32dec m d)
    | _, _ => none
  | _ => none

/-- The command of a line's words, the optional operands at their defaults (R74). -/
def asmInstr : List (List Char) → Option Instr
  | [] => none
  | op :: args =>
    if op = ['b', '3', '2', 'e', 'n', 'c'] then
      match args with
      | [n] => (asmNumber n).map .b32enc
      | _ => none
    else if op = ['b', '3', '2', 'd', 'e', 'c'] then asmB32dec args
    else if op = ['h', 'm', 'a', 'c'] then
      match args with
      | [] => some (.hmac .raw)
      | [f] => (asmForm f).map .hmac
      | _ => none
    else if op = ['t', 'r', 'u', 'n', 'c'] then if args = [] then some .trunc else none
    else if op = ['h', 'o', 't', 'p'] then if args = [] then some .hotp else none
    else if op = ['t', 's', 't', 'e', 'p'] then
      match args with
      | [] => some (.tstep .ts)
      | [t] => (asmSource t).map .tstep
      | _ => none
    else none

/-- The word a line assembles to; none for a line that is no command or has an operand out of range (R74). -/
def assemble (line : List Char) : Option Word :=
  match asmInstr (asmWords line []) with
  | some i => if i.wellFormed then some (encode i) else none
  | none => none

end Sys2Proof.Machine
end

