-- ==== Sys2Proof/Tests/Slice0.lean ====
section
/-! SUPPORT. Tests, their expected values from 95_test_vectors.md (the vector's name stands at the test), and for every
obligation with hypotheses a witness that meets them. -/

namespace Sys2Proof.Tests

open Sys2Proof Sys2Proof.Machine

/-! ### Helpers -/

/-- The outcome is a next state that passes the test. -/
def passes (o : Host.Outcome State Fault Refusal) (p : State → Bool) : Bool :=
  match o with
  | .next t => p t
  | .fault _ => false
  | .refused _ => false

/-- Memory with one written byte string. -/
def bytesFrom (a : Nat) (bs : List Byte) : Memory := Memory.setRun [] a bs

/-- The key text KT, "2SH3V3GDW7ZNMGYE". -/
def keyText : List Byte :=
  [0x32, 0x53, 0x48, 0x33, 0x56, 0x33, 0x47, 0x44, 0x57, 0x37, 0x5A, 0x4E, 0x4D, 0x47, 0x59, 0x45]

/-- The key K that KT decodes to. -/
def keyK : List Byte := [0xd4, 0x8f, 0xba, 0xec, 0xc3, 0xb7, 0xf2, 0xd6, 0x1b, 0x04]

/-- A state with a text in TXT. -/
def withText (t : List Byte) : State :=
  { State.reset with txtLen := BitVec.ofNat 16 t.length, mem := bytesFrom 0x400 t }

/-- A state with a key and a message "test". -/
def withKey (k : List Byte) : State :=
  { State.reset with
    keyLen := BitVec.ofNat 16 k.length, msgLen := 4
    mem := Memory.setRun (bytesFrom 0x800 k) 0xC00 [0x74, 0x65, 0x73, 0x74] }

/-- A state with the key K and a counter. -/
def withCounter (hi lo : Word) : State := { withKey keyK with counterHi := hi, counterLo := lo }

/-- The bytes of one buffer from its first on. -/
def bufferBytes (b : Buffer) (n : Nat) (t : State) : List (Option Byte) :=
  (List.range n).map fun i => Memory.get t.mem (b.base + i)

/-! ### Ill-formed terms, decoding, the opcode map -/

theorem test_wellFormed_refuses_wide_n : (Instr.b32enc 256).wellFormed = false := by decide

theorem test_wellFormed_accepts_n_255 : (Instr.b32enc 255).wellFormed = true := by decide

/-- T-ENCD-6. OP = 0x01, N = 0xFF. -/
theorem test_decode_b32enc : decode 0b00000000000000001111111100000001 = .ok (.b32enc 255) := by decide

/-- T-ENCD-7. OP = 0x02, U = 1, D = 1; and each bit alone. -/
theorem test_decode_b32dec :
    decode 0b00000000000000110000000000000010 = .ok (.b32dec .user .key) ∧
    decode 0b00000000000000010000000000000010 = .ok (.b32dec .user .out) ∧
    decode 0b00000000000000100000000000000010 = .ok (.b32dec .strict .key) ∧
    decode 0b00000000000000000000000000000010 = .ok (.b32dec .strict .out) := by decide

/-- T-ENCD-13. OP = 0x03, X. -/
theorem test_decode_hmac :
    decode 0b00000000000001000000000000000011 = .ok (.hmac .hex) ∧
    decode 0b00000000000000000000000000000011 = .ok (.hmac .raw) := by decide

theorem test_decode_trunc : decode 0b00000000000000000000000000000100 = .ok .trunc := by decide

theorem test_decode_hotp : decode 0b00000000000000000000000000000101 = .ok .hotp := by decide

/-- T-ENCD-12. OP = 0x06, W. -/
theorem test_decode_tstep :
    decode 0b00000000000010000000000000000110 = .ok (.tstep .now) ∧
    decode 0b00000000000000000000000000000110 = .ok (.tstep .ts) := by decide

/-- T-ENCD-1 to 5 and 8 to 11. -/
theorem test_decode_illegal :
    decode 0x00000000 = .error .reservedOpcode ∧ decode 0x00000007 = .error .reservedOpcode ∧
    decode 0x000000FF = .error .reservedOpcode ∧ decode 0x00100001 = .error .unusedFieldSet ∧
    decode 0x80000005 = .error .unusedFieldSet ∧ decode 0x00010001 = .error .unusedFieldSet ∧
    decode 0x00000102 = .error .unusedFieldSet ∧ decode 0x00040004 = .error .unusedFieldSet ∧
    decode 0x000C0006 = .error .unusedFieldSet := by decide

/-- R65: two rows differ in a bit that both masks have. -/
theorem test_opcode_rows_disjoint :
    opcodeTable.Pairwise fun r q => r.pat &&& (r.mask &&& q.mask) ≠ q.pat &&& (r.mask &&& q.mask) := by decide

theorem test_decodeTableWord : decodeTableWord 32 0x00000005 = some .hotp ∧ decodeTableWord 32 0 = none := by decide

/-- The examples of R74. -/
theorem test_assemble :
    assemble ['b', '3', '2', 'e', 'n', 'c', ' ', '1', '0'] = some 0x00000A01 ∧
    assemble ['b', '3', '2', 'd', 'e', 'c'] = some 0x00010002 ∧
    assemble ['b', '3', '2', 'd', 'e', 'c', ' ', 'u', 's', 'e', 'r', ',', ' ', 'k', 'e', 'y'] = some 0x00030002 ∧
    assemble ['h', 'm', 'a', 'c', ' ', 'h', 'e', 'x'] = some 0x00040003 ∧
    assemble ['t', 's', 't', 'e', 'p', ' ', 'n', 'o', 'w'] = some 0x00080006 ∧
    assemble ['b', '3', '2', 'e', 'n', 'c', ' ', '2', '5', '6'] = none := by decide +kernel

/-! ### The commands, one step each -/

/-- T-ENC-1: draws 0 to 15 give "ABCDEFGHIJKLMNOP", OUT_LEN = 16, and 16 requests. -/
theorem test_b32enc_10 :
    passes (step (({ State.reset with rngFeed := (List.range 17).map (BitVec.ofNat 5) } : State).withFetchWord 32 0x0A01))
      (fun t => t.outLen == 16 && t.err == .ok && t.rngFeed == [16] && t.rngDraws == 16 &&
        bufferBytes .out 16 t == (List.range 16).map (fun i => some (BitVec.ofNat 8 (0x41 + i))) &&
        Memory.get t.mem 0x1010 == none) = true := by decide +kernel

/-- T-ENC-5: draws 26 to 30 give "23456". -/
theorem test_b32enc_digits :
    passes (step (({ State.reset with rngFeed := [26, 27, 28, 29, 30] } : State).withFetchWord 32 0x0301))
      (fun t => t.outLen == 5 && bufferBytes .out 5 t == [some 0x32, some 0x33, some 0x34, some 0x35, some 0x36]) =
      true := by decide +kernel

/-- T-DEC-31: KT decodes to K in KEY. -/
theorem test_b32dec_key :
    passes (step ((withText keyText).withFetchWord 32 0x00020002))
      (fun t => t.keyLen == 10 && t.outLen == 0 && t.err == .ok && bufferBytes .key 10 t == keyK.map some) = true := by
  decide +kernel

/-- T-DEC-2: "JBSW Y3DP E83W 64TM MQXC 41Q=" is "Hello world..." in user mode and E_DECODE in strict mode. -/
theorem test_b32dec_mistyped :
    passes (step ((withText [0x4A, 0x42, 0x53, 0x57, 0x20, 0x59, 0x33, 0x44, 0x50, 0x20, 0x45, 0x38, 0x33, 0x57, 0x20, 0x36,
        0x34, 0x54, 0x4D, 0x20, 0x4D, 0x51, 0x58, 0x43, 0x20, 0x34, 0x31, 0x51, 0x3D]).withFetchWord 32 0x00010002))
      (fun t => t.outLen == 14 && bufferBytes .out 14 t ==
        [0x48, 0x65, 0x6c, 0x6c, 0x6f, 0x20, 0x77, 0x6f, 0x72, 0x6c, 0x64, 0x2e, 0x2e, 0x2e].map some) = true ∧
    decodeText .strict [0x4A, 0x42, 0x53, 0x57, 0x20, 0x59] = none := by decide +kernel

/-- T-HMAC-8: the digest of K and "test", and its hex form. -/
theorem test_hmac_hex :
    passes (step ((withKey keyK).withFetchWord 32 0x00040003))
      (fun t => t.digLen == 20 && t.outLen == 40 && t.loadValue 0x1400 == 0x3EA22170 && t.loadValue 0x1410 == 0xC6AF31E5 &&
        t.loadValue 0x1000 == 0x31323037 && t.loadValue 0x1024 == 0x36636661) = true := by decide +kernel

/-- T-HMAC-2: the key K twelve times, longer than a block, is hashed first. -/
theorem test_hmac_long_key :
    passes (step ((withKey (List.replicate 12 keyK).flatten).withFetchWord 32 0x00000003))
      (fun t => t.outLen == 0 && bufferBytes .dig 20 t ==
        [0x4b, 0xe9, 0xfe, 0xb6, 0xcf, 0x04, 0x1e, 0x06, 0x71, 0x45, 0xd9, 0x3c, 0xd4, 0xbb, 0xea, 0x90, 0xa7, 0x1c, 0xfc,
          0x25].map some) = true := by decide +kernel

/-- T-TRUNC-3 (offset 15), T-TRUNC-4 (sign bit masked), T-TRUNC-1. -/
theorem test_truncate :
    truncate [0x80, 0x81, 0x82, 0x83, 0x84, 0x85, 0x86, 0x87, 0x88, 0x89, 0x8a, 0x8b, 0x8c, 0x8d, 0x8e, 0x8f, 0x90, 0x91,
      0x92, 0x0f] = ⟨15, 261132690, 132690⟩ ∧
    truncate (List.replicate 20 0xff) = ⟨15, 2147483647, 483647⟩ ∧
    truncate [0x1f, 0x86, 0x98, 0x69, 0x0e, 0x02, 0xca, 0x16, 0x61, 0x85, 0x50, 0xef, 0x7f, 0x19, 0xda, 0x8e, 0x94, 0x5b,
      0x55, 0x5a] = ⟨10, 0x50EF7F19, 872921⟩ := by decide +kernel

/-- T-LC-2: TRUNC after reset ends in E_DIGEST; STATUS is 0x00000402. -/
theorem test_trunc_after_reset :
    passes (step (State.reset.withFetchWord 32 0x00000004)) (fun t => t.loadValue 0x004 == 0x00000402) = true := by
  decide +kernel

/-- T-HOTP-20: K at counter 10000 gives 50548; COUNTER stands. -/
theorem test_hotp_10000 :
    passes (step ((withCounter 0 10000).withFetchWord 32 0x00000005))
      (fun t => t.loadValue 0x1400 == 0x20CFAA2F && t.loadValue 0x030 == 0x0000C574 && t.loadValue 0x034 == 0x6CD751F4 &&
        t.loadValue 0x038 == 0xA && t.counterLo == 10000) = true := by decide +kernel

/-- T-HOTP-6: COUNTER_HI is encoded. -/
theorem test_hotp_high_half :
    passes (step ((withCounter 1 0).withFetchWord 32 0x00000005)) (fun t => t.code == 309522 && t.truncOff == 6) = true := by
  decide +kernel

/-- T-TSTEP-12: TS_HI is read. -/
theorem test_tstep_ts :
    passes (step (({ State.reset with tsHi := 4, tsLo := 0xA817C800 } : State).withFetchWord 32 0x00000006))
      (fun t => t.counterLo == 0x27BC86AA && t.counterHi == 0 && t.tsHi == 4) = true := by decide +kernel

/-- T-TSTEP-15: one clock request, stored in TS. -/
theorem test_tstep_now :
    passes (step (({ State.reset with clockFeed := [1234567890, 7] } : State).withFetchWord 32 0x00080006))
      (fun t => t.tsLo == 0x499602D2 && t.tsHi == 0 && t.counterLo == 41152263 && t.clockFeed == [7] &&
        t.clockDraws == 1) = true := by decide +kernel

/-! ### The bus and the flags -/

/-- T-LC-3 and T-LC-11: the write-1-to-clear bits. -/
theorem test_status_clear :
    (({ State.reset with done := true, err := .digest, ovr := true } : State).store 0x004 0x2).loadValue 0x004 = 0x404 ∧
    (({ State.reset with done := true, err := .digest, ovr := true } : State).store 0x004 0x4).loadValue 0x004 = 0x402 := by
  decide +kernel

/-- T-LC-9, T-LC-10, T-LC-17: writes while a command is pending, and to a read-only register. -/
theorem test_overrun :
    ((State.reset.accept 6).store 0x014 4).msgLen = 0 ∧ ((State.reset.accept 6).store 0x014 4).loadValue 0x004 = 0x5 ∧
    ((State.reset.accept 6).store 0x008 5).pending = some 6 ∧ ((State.reset.accept 6).store 0x008 5).ovr = true ∧
    ((State.reset.accept 6).store 0x018 5).ovr = false ∧ (State.reset.store 0x018 5).outLen = 0 := by decide +kernel

/-- T-LC-13, T-LC-15, T-LC-16: PARAM0 while busy, and reserved offsets. -/
theorem test_defined_reads :
    (State.reset.accept 5).loadValue 0x03C = 0x01000100 ∧ State.reset.loadValue 0x100 = 0 ∧
    State.reset.loadValue 0x1800 = 0 := by decide +kernel

/-- R51's lanes: the word at MSG holds "test". -/
theorem test_lanes : (withKey keyK).loadValue 0xC00 = 0x74736574 := by decide +kernel

/-- T-LC-14: a misaligned read is a bus error. -/
theorem test_misaligned :
    hostAccess ⟨.word, Config.base + 2, .read⟩ State.reset = .next State.reset.busError := by
  rw [hostAccess, windowOffset_base 2 (by decide)]
  rfl

/-- T-LC-18: the reset input while HOTP is pending. -/
theorem test_reset_aborts :
    passes (step ({ State.reset.accept 5 with schedule := [.resetInput] } : State))
      (fun t => decide (t = State.reset)) = true := by decide +kernel

/-! ### The host's sequences -/

/-- P1's pretty form of "DKRY7GNU3CJQX6FM". -/
theorem test_pretty :
    pretty [0x44, 0x4b, 0x52, 0x59, 0x37, 0x47, 0x4e, 0x55, 0x33, 0x43, 0x4a, 0x51, 0x58, 0x36, 0x46, 0x4d] =
      [0x44, 0x4b, 0x52, 0x59, 0x20, 0x37, 0x47, 0x4e, 0x55, 0x20, 0x33, 0x43, 0x4a, 0x51, 0x20,
        0x58, 0x36, 0x46, 0x4d, 0x20] := by decide

/-- R125's example: 50548 is shown as "050548". -/
theorem test_display : displayCode 50548 = [0x30, 0x35, 0x30, 0x35, 0x34, 0x38] := by decide

/-- Program P3's key and time (T-SRC-8): at TS = 300000 the code of the counter 9999 is accepted. -/
theorem test_check_code :
    (match checkCode 692344 keyText (some 300000) State.reset with
      | .done b _ => b
      | .invalidSecretKey _ _ => false
      | .refused => false
      | .hostFault => false) = true := by decide +kernel

/-- T-SRC-9: a key text of 8 bytes is refused as InvalidSecretKey. -/
theorem test_short_key :
    (match loadKey (keyText.take 14) State.reset with
      | .done _ _ => false
      | .invalidSecretKey k _ => k == keyText.take 14
      | .refused => false
      | .hostFault => false) = true := by decide +kernel

/-! ### Witnesses: states and operands that meet the obligations' hypotheses -/

theorem witness_DecodeOfEncodeIsTheCommand :
    (Instr.b32enc 0).wellFormed = true ∧ (Instr.b32enc 255).wellFormed = true ∧
    (Instr.b32dec .user .key).wellFormed = true := by decide

theorem witness_EncodeOfDecodeIsTheWord : decode 0x0000FF01 = .ok (.b32enc 255) ∧ decode 0x00080006 = .ok (.tstep .now) := by
  decide

theorem witness_DecodeFollowsTheOpcodeMap :
    (rowHotp ∈ opcodeTable ∧ (0x00000005 : Word) &&& rowHotp.mask = rowHotp.pat) ∧
    decode 0x00000001 = .ok (.b32enc 0) ∧ decode 0x0000FF01 = .ok (.b32enc 255) ∧
    decode 0x00030002 = .ok (.b32dec .user .key) ∧ decode 0x00000002 = .ok (.b32dec .strict .out) ∧
    decode 0x00040003 = .ok (.hmac .hex) ∧ decode 0x00080006 = .ok (.tstep .now) := by decide

theorem witness_StepRunsThePendingCommand :
    (State.reset.accept 4).hostFault = false ∧ (State.reset.accept 4).pending = some 4 ∧ decode 4 = .ok .trunc ∧
    (State.reset.accept 4).schedule = [] ∧
    ({ State.reset.accept 4 with schedule := [.engineTurn] } : State).schedule = .engineTurn :: [] ∧
    (State.reset.accept 7).pending = some 7 ∧ (∀ r ∈ opcodeTable, (7 : Word) &&& r.mask ≠ r.pat) ∧
    State.reset.pending = none := by decide

theorem witness_CmdWriteIsAcceptance : State.reset.pending = none ∧ (State.reset.accept 4).pending ≠ none := by decide

theorem witness_ErrorWritesOnlyStatus :
    (State.reset.accept 4).pending = some 4 ∧
    ∃ t, engineTurn (State.reset.accept 4) = .next t ∧ t.err ≠ .ok := ⟨rfl, _, rfl, by decide⟩

theorem witness_IllegalWordEndsInEIllegal :
    (State.reset.accept 7).pending = some 7 ∧ (∀ r ∈ opcodeTable, (7 : Word) &&& r.mask ≠ r.pat) ∧
    ∃ t, engineTurn (State.reset.accept 7) = .next t ∧ t.err = .illegal := ⟨rfl, by decide, _, rfl, rfl⟩

/-- Each length one above its capacity, and the capacities themselves. -/
theorem witness_LengthErrorCases :
    passes (exec (.b32enc 321) State.reset) (fun t => t.err == .length) = true ∧
    passes (exec (.b32dec .user .out) { State.reset with txtLen := 257 }) (fun t => t.err == .length) = true ∧
    passes (exec (.hmac .raw) { State.reset with keyLen := 257 }) (fun t => t.err == .length) = true ∧
    passes (exec (.hmac .raw) { State.reset with msgLen := 257 }) (fun t => t.err == .length) = true ∧
    passes (exec .hotp { State.reset with keyLen := 257 }) (fun t => t.err == .length) = true ∧
    passes (exec (.b32enc 320) State.reset) (fun t => t.err == .ok) = true := by decide +kernel

/-- T-DEC-10 and T-DEC-28. -/
theorem witness_DecodeErrorCases :
    passes (exec (.b32dec .user .out) (withText [0x39])) (fun t => t.err == .decode) = true ∧
    (withText [0x39]).txtLen.toNat ≤ 256 ∧
    passes (exec (.b32dec .strict .key) (withText (keyText.take 15 ++ [0x39]))) (fun t => t.err == .decode) = true := by
  decide +kernel

theorem witness_DigestErrorCases :
    passes (exec .trunc { State.reset with digLen := 19 }) (fun t => t.err == .digest) = true ∧
    passes (exec .trunc { State.reset with digLen := 20 }) (fun t => t.err == .ok) = true := by decide +kernel

theorem witness_EncoderSymbolMap :
    (25 : BitVec 5).toNat ≤ 25 ∧ 26 ≤ (26 : BitVec 5).toNat ∧ symbolValue 0x5A = some 25 ∧ symbolValue 0x32 = some 26 ∧
    ¬ (0x61 ≤ (0x5A : Byte).toNat ∧ (0x5A : Byte).toNat ≤ 0x7A) := by decide

theorem witness_B32encWritesOneSymbolPerRequest :
    (Instr.b32enc 255).wellFormed = true ∧ (8 * 255 + 4) / 5 = 408 ∧ (8 * 320 + 4) / 5 = 512 ∧ 512 < (8 * 321 + 4) / 5 := by
  decide

/-- T-ENC-4's text "77", and the largest N whose text fits TXT. -/
theorem witness_EncodedTextDecodesToNBytes :
    (8 * 160 + 4) / 5 = 256 ∧
    ∃ t u : State, (8 * 1 + 4) / 5 ≤ 256 ∧ exec (.b32enc 1) { State.reset with rngFeed := [31, 31] } = .next t ∧
      u.txtLen = t.outLen ∧ ∀ i, i < t.outLen.toNat → Memory.get u.mem (0x0400 + i) = Memory.get t.mem (0x1000 + i) :=
  ⟨by decide, _, withText [0x37, 0x37], by decide, rfl, by decide, by decide⟩

theorem witness_DecoderValueMap :
    symbolValue 0x41 = some 0 ∧ symbolValue 0x7A = some 25 ∧ symbolValue 0x32 = some 26 ∧ symbolValue 0x37 = some 31 := by
  decide

/-- T-DEC-20's '@', and "MZ=". -/
theorem witness_DecoderComputesTheBitString :
    (∃ c ∈ processed .strict [0x6D, 0x59, 0x40], symbolValue c = none) ∧
    (processed .user [0x4D, 0x5A, 0x3D]).map symbolValue = [12, 25].map some := by decide

/-- T-DEC-26, and a text of TXT_CAP bytes whose first is '=' (R85). -/
theorem witness_B32decStoresTheDecodedBytes :
    ((withText keyText).txtLen.toNat ≤ 256 ∧ decodeText .user (withText keyText).textBytes = some keyK) ∧
    ({ withText [0x3D] with txtLen := 256 } : State).txtLen.toNat ≤ 256 ∧
    decodeText .strict ({ withText [0x3D] with txtLen := 256 } : State).textBytes = some [] := by decide +kernel

theorem witness_B32decErrorsLeaveTheDestination :
    256 < ({ State.reset with txtLen := 257 } : State).txtLen.toNat ∧
    (withText [0x39]).txtLen.toNat ≤ 256 ∧ decodeText .strict (withText [0x39]).textBytes = none := by decide +kernel

theorem witness_HmacConstruction :
    (∀ m : List Byte, (hashPort m).length = 20) ∧ (zeros 64).length ≤ 64 ∧ 64 < (zeros 65).length :=
  ⟨hashPort_length, by decide, by decide⟩

theorem witness_HexFormOfADigest :
    0 < [(0x7f : Byte)].length ∧ (9 : BitVec 4).toNat ≤ 9 ∧ 10 ≤ (10 : BitVec 4).toNat ∧ 10 ≤ (15 : BitVec 4).toNat := by
  decide

theorem witness_HmacWritesTheDigest :
    ({ State.reset with keyLen := 256, msgLen := 256 } : State).keyLen.toNat ≤ 256 ∧
    ({ State.reset with keyLen := 256, msgLen := 256 } : State).msgLen.toNat ≤ 256 ∧
    256 < ({ State.reset with keyLen := 257 } : State).keyLen.toNat ∧
    256 < ({ State.reset with msgLen := 257 } : State).msgLen.toNat := by decide

theorem witness_TruncationOfADigest : 20 ≤ (zeros 20).length := by decide

theorem witness_TruncWritesTheTruncation :
    20 ≤ ({ State.reset with digLen := 20 } : State).digLen.toNat ∧
    ({ State.reset with digLen := 19 } : State).digLen.toNat < 20 := by decide

/-- A state with a written digest, T-TRUNC-5's zeros. -/
def withDigest : State := { State.reset with digLen := 20, mem := bytesFrom 0x1400 (zeros 20) }

theorem witness_RepeatedTruncGivesTheSame :
    20 ≤ withDigest.digLen.toNat ∧ withDigest.written .dig 20 ∧ ∃ t, exec .trunc withDigest = .next t := by
  refine ⟨by decide, ?_, _, rfl⟩
  unfold State.written
  decide

theorem witness_CounterMessageIsBigEndian : 0 < 8 ∧ 7 < 8 := by decide

theorem witness_HotpWritesTheCode :
    ({ State.reset with keyLen := 256 } : State).keyLen.toNat ≤ 256 ∧
    256 < ({ State.reset with keyLen := 257 } : State).keyLen.toNat := by decide

/-- The same key and counter, another message length. -/
theorem witness_HotpDependsOnKeyAndCounterOnly :
    (withCounter 0 1).keyLen = ({ withCounter 0 1 with msgLen := 0 } : State).keyLen ∧
    (withCounter 0 1).keyLen.toNat ≤ 256 ∧
    (withCounter 0 1).counter = ({ withCounter 0 1 with msgLen := 0 } : State).counter ∧
    (withCounter 0 1).written .key (withCounter 0 1).keyLen.toNat ∧
    (∃ t, exec .hotp (withCounter 0 1) = .next t) ∧
    ∃ t, exec .hotp ({ withCounter 0 1 with msgLen := 0 } : State) = .next t := by
  refine ⟨rfl, by decide, rfl, ?_, ⟨_, rfl⟩, ⟨_, rfl⟩⟩
  unfold State.written
  decide

/-- K in KEY, and the 8 bytes of the counter 10000 in MSG. -/
def withCounterMessage : State :=
  { withCounter 0 10000 with
    msgLen := 8, mem := Memory.setRun (bytesFrom 0x800 keyK) 0xC00 [0, 0, 0, 0, 0, 0, 0x27, 0x10] }

theorem witness_HotpIsHmacThenTrunc :
    withCounterMessage.keyLen.toNat ≤ 256 ∧ withCounterMessage.written .key withCounterMessage.keyLen.toNat ∧
    withCounterMessage.msgLen.toNat = 8 ∧
    ∀ i, i < 8 → Memory.get withCounterMessage.mem (0x0C00 + i) = (be64 withCounterMessage.counter)[i]? := by
  refine ⟨by decide, ?_, rfl, by decide⟩
  unfold State.written
  decide

/-- The last word of each window; a word of written bytes. -/
theorem witness_BufferWordsUseLittleEndianLanes :
    State.reset.pending = none ∧ 4 * 63 < Buffer.txt.cap ∧ 4 * 63 < Buffer.key.cap ∧ 4 * 63 < Buffer.msg.cap ∧
    4 * 127 < Buffer.out.cap ∧ 4 * 15 < Buffer.dig.cap ∧
    Memory.get withDigest.mem (Buffer.dig.base + 4 * 4) = some 0 ∧
    Memory.get withDigest.mem (Buffer.dig.base + 4 * 4 + 1) = some 0 ∧
    Memory.get withDigest.mem (Buffer.dig.base + 4 * 4 + 2) = some 0 ∧
    Memory.get withDigest.mem (Buffer.dig.base + 4 * 4 + 3) = some 0 := by decide

/-- The ends of each reserved range; the busy and the idle reading of one. -/
theorem witness_ReservedOffsetsReadZeroIgnoreWrites :
    State.reset.loadValue 0x48 = 0 ∧ State.reset.loadValue 0x3FC = 0 ∧ State.reset.loadValue 0x500 = 0 ∧
    State.reset.loadValue 0x7FC = 0 ∧ State.reset.loadValue 0x900 = 0 ∧ State.reset.loadValue 0xBFC = 0 ∧
    State.reset.loadValue 0xD00 = 0 ∧ State.reset.loadValue 0xFFC = 0 ∧ State.reset.loadValue 0x1200 = 0 ∧
    State.reset.loadValue 0x13FC = 0 ∧ State.reset.loadValue 0x1440 = 0 ∧ State.reset.loadValue 0x1FFC = 0 ∧
    (State.reset.accept 5).loadValue 0x500 = 0 := by decide +kernel

theorem witness_ReadOnlyWritesAreIgnored :
    (State.reset.store 0x018 5).outLen = 0 ∧ (State.reset.store 0x1000 5).mem = [] ∧ (State.reset.store 0x17FC 5).mem = [] := by
  decide +kernel

/-- The first and the last word of each gated window, its neighbours outside, and the ends of the ignored ranges. -/
theorem witness_BusyWritesSetOverrun :
    (State.reset.accept 5).pending ≠ none ∧ ((State.reset.accept 5).store 0x02C 1).ovr = true ∧
    ((State.reset.accept 5).store 0x400 1).ovr = true ∧ ((State.reset.accept 5).store 0x4FC 1).ovr = true ∧
    ((State.reset.accept 5).store 0x500 1).ovr = false ∧ ((State.reset.accept 5).store 0x8FC 1).ovr = true ∧
    ((State.reset.accept 5).store 0xCFC 1).ovr = true ∧ ((State.reset.accept 5).store 0x030 1).ovr = false ∧
    ((State.reset.accept 5).store 0x3FC 1).ovr = false ∧ ((State.reset.accept 5).store 0x1000 1).ovr = false ∧
    ((State.reset.accept 5).store 0x1FFC 1).ovr = false := by
  decide +kernel

theorem witness_BusyReadsAreFreeDraws :
    (State.reset.accept 5).pending ≠ none ∧ Buffer.dig.holds 0x143C = true ∧ Buffer.dig.holds 0x1440 = false ∧
    Buffer.out.holds 0x11FC = true ∧ Buffer.txt.holds 0x400 = true := by decide

theorem witness_ReadsHaveNoSideEffect :
    State.reset.pending = none ∧ (0x3FC : Nat) < 0x400 ∧
    ∀ k, k < 4 → (Memory.get withDigest.mem (0x1410 + k)).isSome = true := by decide

theorem witness_BusErrorsHaveNoEffect :
    ((0x1FFE : Nat) < 0x2000 ∧ 0x1FFE % 4 ≠ 0) ∧ ((0x0000 : Nat) < 0x2000 ∧ AccessSize.dword ≠ .word) ∧
    State.reset.busError.hostFault = true ∧ ∃ t, runEvent .resetInput State.reset.busError = .next t :=
  ⟨by decide, by decide, rfl, _, rfl⟩

/-- The first and the last word of the window. -/
theorem witness_SupportedAccessesLoadAndStore :
    ((0x0000 : Nat) < 0x2000 ∧ 0x0000 % 4 = 0) ∧ ((0x1FFC : Nat) < 0x2000 ∧ 0x1FFC % 4 = 0) ∧
    State.reset.hostFault = false := by decide

/-- R130's numbers in STATUS. -/
theorem witness_StatusLayoutAndClear :
    State.reset.err = .ok ∧ State.reset.loadValue 0x004 = 0x000 ∧
    (State.reset.finish .illegal).loadValue 0x004 = 0x102 ∧ (State.reset.finish .decode).loadValue 0x004 = 0x202 ∧
    (State.reset.finish .length).loadValue 0x004 = 0x302 ∧ (State.reset.finish .digest).loadValue 0x004 = 0x402 := by
  decide +kernel

theorem witness_InterruptFollowsDone :
    (State.reset.accept 4).pending ≠ none ∧ (∃ t, engineTurn (State.reset.accept 4) = .next t) ∧
    (0 : Word).getLsbD 0 = false ∧ (1 : Word).getLsbD 0 = true ∧ (2 : Word).getLsbD 1 = true ∧ State.reset.pending = none :=
  ⟨by decide, ⟨_, rfl⟩, by decide, by decide, by decide, rfl⟩

theorem witness_WrittenRegistersReadBack :
    State.reset.pending = none ∧ (State.reset.store 0x00C 0x0001FFFF).loadValue 0x00C = 0xFFFF ∧
    (State.reset.store 0x000 0xFFFFFFFE).loadValue 0x000 = 0 := by decide +kernel

theorem witness_WrittenBytesAreRead :
    Memory.get withDigest.mem (0x1400 + 19) = some 0 ∧ Memory.get withDigest.mem (0x1400 + 20) = none ∧
    (∀ i, i < 20 → (Memory.get withDigest.mem (0x1400 + i)).isSome = true) ∧
    withDigest.pending = none ∧ 4 * 63 < Buffer.key.cap ∧ 4 * 127 < Buffer.out.cap := by decide

/-- P1's word at 0x808, 0xuuuuACF8: KEY bytes 8 and 9 are f8 and ac, and the two above them are unwritten. -/
theorem test_partly_written_word :
    ({ State.reset with mem := bytesFrom 0x808 [0xF8, 0xAC] } : State).loadValue 0x808 =
      Config.freeByte 1 ++ Config.freeByte 0 ++ (0xAC : Byte) ++ (0xF8 : Byte) := rfl

theorem witness_ResetInputAbortsAndClears :
    ({ State.reset.accept 5 with schedule := [.resetInput] } : State).hostFault = false ∧
    ({ State.reset.accept 5 with schedule := [.resetInput] } : State).schedule = .resetInput :: [] := by decide

theorem reset_inv : State.reset.Inv :=
  ⟨rfl, rfl, fun _ h => absurd h (by simp [State.reset]), by decide, by decide, by decide, fun i h => absurd h (by simp [State.reset]),
    fun i h => absurd h (by simp [State.reset])⟩

theorem witness_StepKeepsTheInvariant : State.reset.Inv ∧ ∃ t, step State.reset = .next t := ⟨reset_inv, _, rfl⟩

theorem witness_PendingInputsAreFrozen :
    (State.reset.accept 5).pending ≠ none ∧ (State.reset.accept 5).done = false ∧
    ∃ t, hostAccess ⟨.word, Config.base + 0x010, .write 9⟩ (State.reset.accept 5) = .next t := by
  refine ⟨by decide, by decide, ?_⟩
  rw [hostAccess, windowOffset_base 0x010 (by decide)]
  exact ⟨_, rfl⟩

/-- One step of each kind of the flag table. -/
theorem witness_FlagsChangeAsTheTableSays :
    (∃ t, step ({ State.reset with schedule := [.resetInput] } : State) = .next t) ∧
    (∃ t, step (State.reset.accept 4) = .next t) ∧
    ∀ off v, off < 0x2000 → off % 4 = 0 → ∀ s : State, s.hostFault = false →
      ∃ t, step ({ s with schedule := [.hostAccess ⟨.word, Config.base + off, .write v⟩] } : State) = .next t := by
  refine ⟨⟨_, rfl⟩, ⟨_, rfl⟩, fun off v h h4 s hf => ?_⟩
  have hs : step ({ s with schedule := [.hostAccess ⟨.word, Config.base + off, .write v⟩] } : State) =
      hostAccess ⟨.word, Config.base + off, .write v⟩ ({ s with schedule := [] } : State) := by
    simp [step, hf, runNext, runEvent]
  rw [hs, hostAccess, windowOffset_base off h]
  simp [Access.supported, h4]

theorem witness_CmdWriteRacesCompletion :
    (State.reset.accept 5).hostFault = false ∧ (State.reset.accept 5).pending = some 5 ∧ (State.reset.accept 5).cmd = 5 := by
  decide

theorem witness_AcceptedCommandCompletes :
    (State.reset.accept 5).pending ≠ none ∧ (State.reset.accept 5).contract = true ∧
    (State.reset.accept 5).schedule.all Event.isNotReset = true := by decide

theorem witness_ContractNeverStops :
    State.reset.contract = true ∧ step State.reset.busError = .fault .hostBusError := ⟨by decide, rfl⟩

theorem witness_GeneratedSecretsDecode : State.reset.pending = none := rfl

theorem witness_InvalidKeysShortCircuit :
    State.reset.pending = none ∧ (keyText.take 14).length ≤ 256 ∧
    decodeText .user (keyText.take 15 ++ [0x39]) = none ∧
    decodeText .user (keyText.take 14) = some (keyK.take 8) ∧ (keyK.take 8).length < 10 ∧
    256 < (List.replicate 257 (0x41 : Byte)).length := by decide +kernel

theorem witness_GetCodeIsTheTimestampsCode :
    State.reset.pending = none ∧ keyText.length ≤ 256 ∧ decodeText .user keyText = some keyK ∧ 10 ≤ keyK.length ∧
    (2 ^ 64 - 1 : Nat) < 2 ^ 64 ∧ (-1 : Int) < 0 ∧ (2 : Int) ^ 64 ≤ 2 ^ 64 := by decide +kernel

/-- At counter 0, at the largest counter a timestamp has, and at the two nearest refused timestamps. -/
theorem witness_CheckCodeAcceptsTheWindow :
    State.reset.pending = none ∧ keyText.length ≤ 256 ∧ decodeText .user keyText = some keyK ∧ 10 ≤ keyK.length ∧
    (0 : Nat) < 2 ^ 64 ∧ (2 ^ 64 - 1 : Nat) < 2 ^ 64 ∧ (-1 : Int) < 0 ∧ (2 : Int) ^ 64 ≤ 2 ^ 64 := by decide +kernel

theorem witness_CodesShowSixDigits : (0 : Nat) ≤ 999999 ∧ (999999 : Nat) ≤ 999999 := by decide

end Sys2Proof.Tests
end

section
/-! PROOFS, of the statements of 10_state.md: STATUS, the interrupt output, the registers and the reset input. -/

namespace Sys2Proof.Machine

/-! ### Register accesses whatever BUSY is -/

/-- A register that is defined while a command is pending reads as its word in every state (R57). -/
theorem loadValue_of_definedWhileBusy (r : Reg) (off : Nat) (h : r.offset = off)
    (hd : (Target.reg r).definedWhileBusy = true) (s : State) : s.loadValue off = s.regWord r := by
  simp [State.loadValue, targetAt_of_offset h, State.readTarget, hd]

/-- A write to a register that BUSY does not gate reaches it in every state (R56). -/
theorem store_of_not_gatedWhileBusy (r : Reg) (off : Nat) (h : r.offset = off)
    (hg : (Target.reg r).gatedWhileBusy = false) (v : Word) (s : State) :
    s.store off v = (s.writeReg r v).answered .written := by
  simp [State.store, targetAt_of_offset h, State.writeTarget, hg, State.answered]

/-! ### STATUS and CTRL as words -/

/-- The layout of R20, the fields being any values. -/
theorem statusLayout_toNat (e : BitVec 4) (o d b : Bool) :
    ((0 : BitVec 20) ++ e ++ (0 : BitVec 5) ++ BitVec.ofBool o ++ BitVec.ofBool d ++ BitVec.ofBool b).toNat =
      b.toNat + 2 * d.toNat + 4 * o.toNat + 256 * e.toNat := by
  revert e o d b
  decide

theorem statusWord_toNat (s : State) :
    s.statusWord.toNat = s.busy.toNat + 2 * s.done.toNat + 4 * s.ovr.toNat + 256 * s.err.number.toNat :=
  statusLayout_toNat ..

theorem busy_toNat (s : State) : s.busy.toNat = if s.pending = none then 0 else 1 := by
  by_cases h : s.pending = none
  · simp [h]
  · simp [h, busy_of_pending_ne_none h]

/-- R130's numbers, as the sum of the codes' indicators. -/
theorem ErrCode.number_toNat (e : ErrCode) :
    e.number.toNat = (if e = .illegal then 1 else 0) + (if e = .decode then 2 else 0) +
      (if e = .length then 3 else 0) + (if e = .digest then 4 else 0) := by
  cases e <;> decide

theorem statusWord_err (s : State) : s.statusWord.extractLsb' 8 4 = s.err.number :=
  BitVec.eq_of_toNat_eq (errField_statusWord s)

theorem statusWord_bit_done (s : State) : s.statusWord.getLsbD 1 = s.done := by
  simp only [State.statusWord, BitVec.getLsbD_append]
  simp

theorem ctrlWord_bit_ie (s : State) : s.ctrlWord.getLsbD 0 = s.ie := by
  simp [State.ctrlWord]

/-- Settles O41: R20's layout is one sum over the bits, and STATUS is neither unspecified nor gated while BUSY = 1. -/
theorem statusLayoutAndClear : Obligations.StatusLayoutAndClear := by
  intro s v
  rw [loadValue_status]
  refine ⟨?_, ?_, store_of_not_gatedWhileBusy .status 0x004 rfl rfl v s⟩
  · rw [statusWord_toNat, busy_toNat, ErrCode.number_toNat]
    cases s.done <;> cases s.ovr <;> rfl
  · intro h
    rw [statusWord_err, h]
    rfl

/-! ### Completion and the interrupt output -/

/-- What no command writes of the registers and of the model's own fields (R18's "written by"): CTRL, OVR, CMD,
TXT_LEN, MSG_LEN, the schedule, the host's last answer and the host fault. -/
structure CommandFrame (s u : State) : Prop where
  ie : u.ie = s.ie
  ovr : u.ovr = s.ovr
  cmd : u.cmd = s.cmd
  txtLen : u.txtLen = s.txtLen
  msgLen : u.msgLen = s.msgLen
  schedule : u.schedule = s.schedule
  response : u.response = s.response
  hostFault : u.hostFault = s.hostFault

theorem CommandFrame.refl (s : State) : CommandFrame s s := ⟨rfl, rfl, rfl, rfl, rfl, rfl, rfl, rfl⟩

theorem CommandFrame.storeDecoded (dest : Dest) (bs : List Byte) (s : State) :
    CommandFrame s (s.afterText.storeDecoded dest bs) := by
  cases dest <;> constructor <;> simp

theorem CommandFrame.storeHex (form : HmacForm) (d : List Byte) (s : State) :
    CommandFrame s ((s.afterKey.afterMsg.storeDigest d).storeHex form d) := by
  cases form <;> constructor <;> simp

theorem CommandFrame.sampleClock (source : TimeSource) (c : DWord) (s : State) :
    CommandFrame s ((s.sampleClock source).setCounter c) := by
  cases source <;> constructor <;> simp

/-- Every command ends in `finish`, after updates that keep the command frame (R129). -/
theorem exec_finishes (i : Instr) (s : State) : ∃ u c, exec i s = .next (u.finish c) ∧ CommandFrame s u := by
  cases i with
  | b32enc n =>
    obtain ⟨-, h⟩ | ⟨-, h⟩ := execB32enc_cases n s
    · exact ⟨_, _, h, .refl s⟩
    · exact ⟨_, _, h, by constructor <;> simp⟩
  | b32dec mode dest =>
    obtain ⟨-, h⟩ | ⟨-, ⟨-, h⟩ | ⟨bs, -, ⟨-, h⟩ | ⟨-, h⟩⟩⟩ := execB32dec_cases mode dest s
    · exact ⟨_, _, h, .refl s⟩
    · exact ⟨_, _, h, by constructor <;> simp⟩
    · exact ⟨_, _, h, by constructor <;> simp⟩
    · exact ⟨_, _, h, .storeDecoded dest bs s⟩
  | hmac form =>
    obtain ⟨-, h⟩ | ⟨-, -, h⟩ := execHmac_cases form s
    · exact ⟨_, _, h, .refl s⟩
    · exact ⟨_, _, h, .storeHex form _ s⟩
  | trunc =>
    obtain ⟨-, h⟩ | ⟨-, h⟩ := execTrunc_cases s
    · exact ⟨_, _, h, .refl s⟩
    · exact ⟨_, _, h, by constructor <;> simp⟩
  | hotp =>
    obtain ⟨-, h⟩ | ⟨-, h⟩ := execHotp_cases s
    · exact ⟨_, _, h, .refl s⟩
    · exact ⟨_, _, h, by constructor <;> simp⟩
  | tstep source => exact ⟨_, .ok, rfl, .sampleClock source _ s⟩

/-- With a command pending the engine's turn is a completion, of a legal word or an illegal one (R129, R131). -/
theorem engineTurn_finishes {s : State} (h : s.pending ≠ none) :
    ∃ u c, engineTurn s = .next (u.finish c) ∧ CommandFrame s u := by
  obtain ⟨hn, -⟩ | ⟨w, -, ⟨i, -, ht⟩ | ⟨e, -, ht⟩⟩ := engineTurn_cases s
  · exact absurd hn h
  · rw [ht]
    exact exec_finishes i s
  · exact ⟨s, .illegal, ht, .refl s⟩

/-- The interrupt output after a completion is IE, since DONE is then 1 (R39, R140). -/
theorem irq_of_engineTurn {s t : State} (hp : s.pending ≠ none) (ht : engineTurn s = .next t) : t.irq = s.ie := by
  obtain ⟨u, c, hu, hf⟩ := engineTurn_finishes hp
  obtain rfl : u.finish c = t := by simpa [hu] using ht
  simp [State.irq, hf.ie]

theorem irq_store_ctrl (v : Word) (s : State) : (s.store 0x000 v).irq = (v.getLsbD 0 && s.done) := by
  rw [store_of_not_gatedWhileBusy .ctrl 0x000 rfl rfl]
  rfl

theorem done_store_ctrl (v : Word) (s : State) : (s.store 0x000 v).done = s.done := by
  rw [store_of_not_gatedWhileBusy .ctrl 0x000 rfl rfl]
  rfl

theorem irq_store_status (v : Word) (s : State) :
    (s.store 0x004 v).irq = (s.ie && (s.done && !v.getLsbD 1)) := by
  rw [store_of_not_gatedWhileBusy .status 0x004 rfl rfl]
  rfl

/-- An acceptance clears DONE, and with it the interrupt output (R128, R140). -/
theorem irq_store_cmd {s : State} (v : Word) (hp : s.pending = none) : (s.store 0x008 v).irq = false := by
  rw [store_register .cmd 0x008 rfl v hp]
  simp [State.irq, State.writeReg]

/-- Settles O42: each case of R140 is what it does to IE and DONE, of which IRQ is the conjunction. -/
theorem interruptFollowsDone : Obligations.InterruptFollowsDone := by
  intro s
  refine ⟨?_, fun t hp ht => irq_of_engineTurn hp ht, ?_, ?_, ?_, fun v hp => irq_store_cmd v hp⟩
  · rw [loadValue_status, loadValue_of_definedWhileBusy .ctrl 0x000 rfl rfl]
    rw [State.regWord, ctrlWord_bit_ie, statusWord_bit_done, State.irq, Bool.and_eq_true]
  · intro v hv
    exact ⟨by rw [irq_store_ctrl, hv, Bool.false_and], done_store_ctrl v s⟩
  · intro v hv
    rw [irq_store_ctrl, hv, Bool.true_and]
  · intro v hv
    rw [irq_store_status, hv, Bool.not_true, Bool.and_false, Bool.and_false]

/-! ### Registers that hold what is written -/

/-- No write to a register but CMD changes what is pending. -/
theorem writeReg_pending {r : Reg} (h : r ≠ .cmd) (v : Word) (s : State) : (s.writeReg r v).pending = s.pending := by
  cases r with
  | cmd => exact absurd rfl h
  | _ => rfl

/-- The host's last answer is no part of a register. -/
@[simp] theorem regWord_answered (r : Reg) (a : Response) (s : State) :
    (s.answered a).regWord r = s.regWord r := by
  cases r <;> rfl

/-- An idle register other than CMD reads back as the word of the register just written. -/
theorem loadValue_store_register {s : State} (r : Reg) (off : Nat) (h : r.offset = off) (hr : r ≠ .cmd) (v : Word)
    (hp : s.pending = none) : (s.store off v).loadValue off = (s.writeReg r v).regWord r := by
  rw [store_register r off h v hp, loadValue_register r off h, regWord_answered]
  rw [State.answered_pending, writeReg_pending hr, hp]

/-- A length field keeps bits 15 to 0 of the word written to it (R42). -/
theorem lengthField_word (v : Word) : (v.setWidth 16).setWidth 32 = v &&& 0xFFFF := by
  apply BitVec.eq_of_toNat_eq
  rw [BitVec.toNat_and, BitVec.toNat_setWidth_of_le (by decide), BitVec.toNat_setWidth]
  exact (Nat.and_two_pow_sub_one_eq_mod _ 16).symm

theorem ctrlWord_setCtrl (v : Word) (s : State) : (s.setCtrl v).ctrlWord = v &&& 1 :=
  BitVec.and_one_eq_setWidth_ofBool_getLsbD.symm

/-- Settles O43: an idle block reads `regWord` everywhere, and a write is `writeReg`. -/
theorem writtenRegistersReadBack : Obligations.WrittenRegistersReadBack := by
  intro s v hp
  have read (r : Reg) : s.loadValue r.offset = s.regWord r := loadValue_register r _ rfl hp
  have write (r : Reg) : s.store r.offset v = (s.writeReg r v).answered .written := store_register r _ rfl v hp
  have readBack (r : Reg) (hr : r ≠ .cmd) : (s.store r.offset v).loadValue r.offset = (s.writeReg r v).regWord r :=
    loadValue_store_register r _ rfl hr v hp
  refine ⟨⟨read .txtLen, read .keyLen, read .msgLen, read .counterLo, read .counterHi, read .tsLo, read .tsHi⟩,
    ⟨read .cmd, read .outLen, read .digLen, read .code, read .truncBin, read .truncOff⟩, ?_⟩
  exact ⟨⟨(readBack .txtLen nofun).trans (lengthField_word v), write .txtLen⟩,
    ⟨(readBack .keyLen nofun).trans (lengthField_word v), write .keyLen⟩,
    ⟨(readBack .msgLen nofun).trans (lengthField_word v), write .msgLen⟩,
    ⟨readBack .counterLo nofun, write .counterLo⟩, ⟨readBack .counterHi nofun, write .counterHi⟩,
    ⟨readBack .tsLo nofun, write .tsLo⟩, ⟨readBack .tsHi nofun, write .tsHi⟩,
    ⟨(readBack .ctrl nofun).trans (ctrlWord_setCtrl v s), write .ctrl⟩⟩

/-! ### Parameters and reset -/

/-- Settles O44: the parameter registers are constants, defined while BUSY = 1 and ungated. -/
theorem parameterRegisters : Obligations.ParameterRegisters := by
  intro s v
  have read (r : Reg) (hd : (Target.reg r).definedWhileBusy = true) : s.loadValue r.offset = s.regWord r :=
    loadValue_of_definedWhileBusy r _ rfl hd s
  have write (r : Reg) (hg : (Target.reg r).gatedWhileBusy = false) :
      s.store r.offset v = (s.writeReg r v).answered .written := store_of_not_gatedWhileBusy r _ rfl hg v s
  exact ⟨read .param0 rfl, read .param1 rfl, read .param2 rfl, write .param0 rfl, write .param1 rfl,
    write .param2 rfl⟩

/-- A step at the reset input is the reset of the block, whatever is pending (R40, R151). -/
theorem step_resetInput {s : State} {es : List Event} (hf : s.hostFault = false)
    (hs : s.schedule = .resetInput :: es) : step s = .next ({ s with schedule := es } : State).resetInput := by
  simp [step, hf, runNext, hs, runEvent]

/-- Settles O47: the state after the reset input is `State.reset` but for what stands outside the block. -/
theorem resetInputAbortsAndClears : Obligations.ResetInputAbortsAndClears := by
  intro s es hf hs
  refine ⟨_, step_resetInput hf hs, rfl, rfl, fun _ => rfl, ?_⟩
  simp [State.resetInput, hf, State.reset]

end Sys2Proof.Machine
end

section
/-! PROOFS, of the statements of 20_memory.md about single accesses: the lanes of a buffer word, writes while BUSY = 1,
and bus errors. -/

namespace Sys2Proof.Machine

/-! ### Words of the buffers -/

/-- A word written inside a buffer of an idle block is `writeWord`, and the host's answer (R51). -/
theorem store_word (b : Buffer) (i : Nat) (v : Word) {s : State} (h : i < b.cap) (hp : s.pending = none) :
    s.store (b.base + i) v = (s.writeWord b i v).answered .written := by
  simp [State.store, targetAt_word b i h, State.writeTarget, hp, State.answered]

/-- The buffers that hold operands take a word's four bytes, in lane order (R51). -/
theorem writeWord_input {b : Buffer} (h : b = .txt ∨ b = .key ∨ b = .msg) (i : Nat) (v : Word) (s : State) :
    s.writeWord b i v = { s with mem := Memory.setRun s.mem (b.base + i) (laneBytes v) } := by
  rcases h with rfl | rfl | rfl <;> rfl

/-- Lane `k` of a word is its bits `8k + 7` to `8k` (R51). -/
theorem laneBytes_getElem (v : Word) (k : Nat) (h : k < (laneBytes v).length) :
    (laneBytes v)[k] = v.extractLsb' (8 * k) 8 := by
  match k, h with
  | 0, _ | 1, _ | 2, _ | 3, _ => rfl

/-- Four written bytes are read as the word that has them in its lanes, the first in the lowest (R51). -/
theorem loadValue_of_writtenBytes (b : Buffer) (i : Nat) {s : State} {b0 b1 b2 b3 : Byte} (h : i < b.cap)
    (hp : s.pending = none) (h0 : Memory.get s.mem (b.base + i) = some b0)
    (h1 : Memory.get s.mem (b.base + i + 1) = some b1) (h2 : Memory.get s.mem (b.base + i + 2) = some b2)
    (h3 : Memory.get s.mem (b.base + i + 3) = some b3) : s.loadValue (b.base + i) = b3 ++ b2 ++ b1 ++ b0 := by
  have hb : s.bytesAt (b.base + i) 4 = [b0, b1, b2, b3] := bytesAt_eq (bs := [b0, b1, b2, b3]) fun k hk => by
    match k, hk with
    | 0, _ => exact h0
    | 1, _ => exact h1
    | 2, _ => exact h2
    | 3, _ => exact h3
  rw [loadValue_word b i h hp, hb]
  rfl

/-! ### Writes that are ignored -/

/-- A write that BUSY gates sets OVR and does nothing else (R56). -/
theorem store_of_gatedWhileBusy {s : State} {off : Nat} (hp : s.pending ≠ none)
    (hg : (targetAt off).gatedWhileBusy = true) (v : Word) : s.store off v = s.overrun.answered .written := by
  simp [State.store, State.writeTarget, busy_of_pending_ne_none hp, hg, State.answered]

/-- What ignores a write whatever BUSY is, and without OVR: read-only registers and windows, and reserved offsets (R43,
R53, R56). -/
def Target.ignoresWrites : Target → Bool
  | .reg .outLen | .reg .digLen | .reg .code | .reg .truncBin | .reg .truncOff => true
  | .reg .param0 | .reg .param1 | .reg .param2 => true
  | .word .out _ | .word .dig _ => true
  | .nothing => true
  | .reg _ | .word _ _ => false

/-- What ignores every write has no overrun to report. -/
theorem gatedWhileBusy_of_ignoresWrites {t : Target} (h : t.ignoresWrites = true) : t.gatedWhileBusy = false := by
  match t, h with
  | .reg .outLen, _ | .reg .digLen, _ | .reg .code, _ | .reg .truncBin, _ | .reg .truncOff, _ => rfl
  | .reg .param0, _ | .reg .param1, _ | .reg .param2, _ => rfl
  | .word .out _, _ | .word .dig _, _ | .nothing, _ => rfl

theorem writeReg_of_ignoresWrites {r : Reg} (h : (Target.reg r).ignoresWrites = true) (v : Word) (s : State) :
    s.writeReg r v = s := by
  match r, h with
  | .outLen, _ | .digLen, _ | .code, _ | .truncBin, _ | .truncOff, _ => rfl
  | .param0, _ | .param1, _ | .param2, _ => rfl

theorem writeWord_of_ignoresWrites {b : Buffer} {i : Nat} (h : (Target.word b i).ignoresWrites = true) (v : Word)
    (s : State) : s.writeWord b i v = s := by
  match b, h with
  | .out, _ | .dig, _ => rfl

theorem writeTarget_of_ignoresWrites {t : Target} (h : t.ignoresWrites = true) (v : Word) (s : State) :
    s.writeTarget t v = s := by
  obtain ⟨-, hg, -⟩ | ⟨-, ⟨r, rfl, hw⟩ | ⟨b, i, rfl, hw⟩ | ⟨-, hw⟩⟩ := writeTarget_cases t v s
  · exact absurd hg (by simp [gatedWhileBusy_of_ignoresWrites h])
  · rw [hw, writeReg_of_ignoresWrites h]
  · rw [hw, writeWord_of_ignoresWrites h]
  · exact hw

theorem store_of_ignoresWrites {off : Nat} (h : (targetAt off).ignoresWrites = true) (v : Word) (s : State) :
    s.store off v = s.answered .written := by
  rw [State.store, writeTarget_of_ignoresWrites h, State.answered]

/-- A word inside an input buffer is gated by BUSY (R56). -/
theorem gatedWhileBusy_of_holds {b : Buffer} {off : Nat} (hb : b = .txt ∨ b = .key ∨ b = .msg)
    (h : b.holds off = true) : (targetAt off).gatedWhileBusy = true := by
  rw [targetAt_of_holds h]
  rcases hb with rfl | rfl | rfl <;> rfl

/-- Between the registers and TXT, and from OUT's window on, nothing takes a host write (R46, R52, R53). -/
theorem ignoresWrites_targetAt {off : Nat} (h : (0x48 ≤ off ∧ off < 0x400) ∨ 0x1000 ≤ off) :
    (targetAt off).ignoresWrites = true := by
  cases ht : targetAt off with
  | reg r =>
    have hr : r.offset ≤ 0x44 := by cases r <;> decide
    have := targetAt_reg_offset ht
    omega
  | word b i =>
    have hb := (b.holds_iff off).1 (targetAt_word_holds ht).1
    rcases b.bounds with ⟨-, h1, h2⟩ | ⟨-, h1, h2⟩ | ⟨-, h1, h2⟩ | ⟨rfl, -⟩ | ⟨rfl, -⟩
    · omega
    · omega
    · omega
    · rfl
    · rfl
  | nothing => rfl

/-- Settles O34: a write stores `laneBytes`, a read of written bytes is their `laneWord`. -/
theorem bufferWordsUseLittleEndianLanes : Obligations.BufferWordsUseLittleEndianLanes := by
  intro b j v s hp hj
  refine ⟨fun hb => ?_, fun hb => ?_, fun b0 b1 b2 b3 => loadValue_of_writtenBytes b (4 * j) hj hp⟩
  · rw [store_word b (4 * j) v hj hp, writeWord_input hb]
    refine ⟨_, rfl, fun k hk => ?_, fun a ha => ?_, rfl⟩
    · rw [State.answered_mem, Memory.get_setRun_inside _ _ k _ (by rwa [laneBytes_length]), laneBytes_getElem]
    · rw [State.answered_mem, Memory.get_setRun_outside _ _ _ _ ha]
  · refine store_of_ignoresWrites ?_ v s
    rw [targetAt_word b _ hj]
    rcases hb with rfl | rfl <;> rfl

/-- Settles O37: a write to the block's inputs is gated, one to read-only or reserved offsets is ignored, and CTRL and
STATUS are reached as ever. -/
theorem busyWritesSetOverrun : Obligations.BusyWritesSetOverrun := by
  intro off v s hp
  refine ⟨fun h => store_of_gatedWhileBusy hp ?_ v, fun h => store_of_ignoresWrites ?_ v s,
    store_of_not_gatedWhileBusy .ctrl 0x000 rfl rfl v s, store_of_not_gatedWhileBusy .status 0x004 rfl rfl v s⟩
  · have registers : ∀ o ∈ [0x008, 0x00C, 0x010, 0x014, 0x020, 0x024, 0x028, 0x02C],
        (targetAt o).gatedWhileBusy = true := by decide
    rcases h with h | ⟨h1, h2⟩ | ⟨h1, h2⟩ | ⟨h1, h2⟩
    · exact registers off h
    · exact gatedWhileBusy_of_holds (.inl rfl) ((Buffer.holds_iff .txt off).2 ⟨h1, h2⟩)
    · exact gatedWhileBusy_of_holds (.inr (.inl rfl)) ((Buffer.holds_iff .key off).2 ⟨h1, h2⟩)
    · exact gatedWhileBusy_of_holds (.inr (.inr rfl)) ((Buffer.holds_iff .msg off).2 ⟨h1, h2⟩)
  · have registers : ∀ o ∈ [0x018, 0x01C, 0x030, 0x034, 0x038, 0x03C, 0x040, 0x044],
        (targetAt o).ignoresWrites = true := by decide
    rcases h with h | h | ⟨h, -⟩
    · exact registers off h
    · exact ignoresWrites_targetAt (.inl h)
    · exact ignoresWrites_targetAt (.inr h)

/-! ### The recorded host fault -/

theorem supported_eq_false_iff (a : Access) (off : Nat) :
    a.supported off = false ↔ a.size ≠ .word ∨ off % 4 ≠ 0 := by
  rw [Access.supported, Bool.and_eq_false_iff, beq_eq_false_iff_ne, beq_eq_false_iff_ne]

/-- A misaligned access, or one of another width than a word, is a bus error (R49, R50). -/
theorem hostAccess_of_not_supported {a : Access} {off : Nat} (ho : windowOffset a.addr = some off)
    (h : a.supported off = false) (s : State) : hostAccess a s = .next s.busError := by
  simp [hostAccess, ho, h]

@[simp] theorem load_hostFault (off : Nat) (s : State) : (s.load off).hostFault = s.hostFault := by
  rw [load_frame]

@[simp] theorem writeReg_hostFault (r : Reg) (v : Word) (s : State) : (s.writeReg r v).hostFault = s.hostFault := by
  cases r <;> rfl

@[simp] theorem writeWord_hostFault (b : Buffer) (i : Nat) (v : Word) (s : State) :
    (s.writeWord b i v).hostFault = s.hostFault := by
  cases b <;> rfl

@[simp] theorem store_hostFault (off : Nat) (v : Word) (s : State) : (s.store off v).hostFault = s.hostFault := by
  change (s.writeTarget (targetAt off) v).hostFault = s.hostFault
  obtain ⟨-, -, h⟩ | ⟨-, ⟨r, -, h⟩ | ⟨b, i, -, h⟩ | ⟨-, h⟩⟩ := writeTarget_cases (targetAt off) v s
  · rw [h]; rfl
  · rw [h, writeReg_hostFault]
  · rw [h, writeWord_hostFault]
  · rw [h]

/-- The engine neither records a host fault nor clears one: it is no part of a command's effect. -/
theorem engineTurn_hostFault {s t : State} (h : engineTurn s = .next t) : t.hostFault = s.hostFault := by
  by_cases hp : s.pending = none
  · obtain rfl : s = t := by simpa [engineTurn, hp] using h
    rfl
  · obtain ⟨u, c, hu, hf⟩ := engineTurn_finishes hp
    obtain rfl : u.finish c = t := by simpa [hu] using h
    exact hf.hostFault

/-- No event clears a recorded host fault (R50, R138): only a bus error writes it. -/
theorem runEvent_keeps_hostFault {e : Event} {s t : State} (hf : s.hostFault = true) (h : runEvent e s = .next t) :
    t.hostFault = true := by
  cases e with
  | hostAccess a =>
    obtain ⟨off, -, ⟨-, -, rfl⟩ | ⟨-, v, -, rfl⟩ | ⟨-, rfl⟩⟩ := hostAccess_cases h
    · rw [load_hostFault, hf]
    · rw [store_hostFault, hf]
    · rfl
  | engineTurn => rw [engineTurn_hostFault h, hf]
  | resetInput =>
    obtain rfl : s.resetInput = t := by simpa [runEvent] using h
    exact hf

/-- Settles O40: an unsupported access is `busError`, and only a bus error writes the recorded fault. -/
theorem busErrorsHaveNoEffect : Obligations.BusErrorsHaveNoEffect := by
  refine ⟨fun off size kind s ho h => ?_, fun e s t hf h => runEvent_keeps_hostFault hf h⟩
  exact hostAccess_of_not_supported (windowOffset_base off ho) ((supported_eq_false_iff _ off).2 h) s

end Sys2Proof.Machine
end

section
/-! PROOFS, of the statements of 40_base32_encoder.md: the symbol map and its inverse, the decoder's value map. -/

namespace Sys2Proof.Machine

/-! ### The symbol map and the value map -/

theorem encSymbol_toNat_of_le_25 {v : BitVec 5} (h : v.toNat ≤ 25) : (encSymbol v).toNat = 0x41 + v.toNat := by
  rw [encSymbol, if_pos h, BitVec.toNat_ofNat, Nat.mod_eq_of_lt (by omega)]

theorem encSymbol_toNat_of_ge_26 {v : BitVec 5} (h : 26 ≤ v.toNat) : (encSymbol v).toNat = 0x18 + v.toNat := by
  rw [encSymbol, if_neg (by omega), BitVec.toNat_ofNat, Nat.mod_eq_of_lt (by omega)]
  omega

/-- The symbols are the letters of either case, worth 0 to 25, and the digits 2 to 7, worth 26 to 31 (R83). -/
theorem symbolValue_eq_some_iff {c : Byte} {v : Nat} :
    symbolValue c = some v ↔
      v ≤ 25 ∧ (c.toNat = 0x41 + v ∨ c.toNat = 0x61 + v) ∨ 26 ≤ v ∧ v ≤ 31 ∧ c.toNat = 0x18 + v := by
  unfold symbolValue
  split
  case isTrue upper => rw [Option.some_inj]; omega
  case isFalse =>
    split
    case isTrue lower => rw [Option.some_inj]; omega
    case isFalse =>
      split
      case isTrue digit => rw [Option.some_inj]; omega
      case isFalse noSymbol => simp only [reduceCtorEq, false_iff]; omega

/-- The encoder undoes the value map on every symbol but a lowercase letter (R77). -/
theorem encSymbol_of_symbolValue {c : Byte} {v : Nat} (h : symbolValue c = some v)
    (hl : ¬ (0x61 ≤ c.toNat ∧ c.toNat ≤ 0x7A)) : encSymbol (BitVec.ofNat 5 v) = c := by
  have hv : (BitVec.ofNat 5 v).toNat = v := Nat.mod_eq_of_lt (symbolValue_lt h)
  apply BitVec.eq_of_toNat_eq
  obtain ⟨hle, upper | lower⟩ | ⟨hge, -, digit⟩ := symbolValue_eq_some_iff.1 h
  · rw [encSymbol_toNat_of_le_25 (hv.symm ▸ hle), hv, upper]
  · exact absurd lower (by omega)
  · rw [encSymbol_toNat_of_ge_26 (hv.symm ▸ hge), hv, digit]

/-- Settles O14: the two ranges of the symbol map, and that each map undoes the other. -/
theorem encoderSymbolMap : Obligations.EncoderSymbolMap := by
  refine ⟨fun v => ⟨encSymbol_toNat_of_le_25, encSymbol_toNat_of_ge_26, symbolValue_encSymbol v⟩, fun c v h hl => ?_⟩
  exact ⟨BitVec.ofNat 5 v, Nat.mod_eq_of_lt (symbolValue_lt h), encSymbol_of_symbolValue h hl⟩

end Sys2Proof.Machine
end

section
/-! PROOFS, of the statements of 41_base32_decoder.md: the decoder's value map, the user-input pre-pass. -/

namespace Sys2Proof.Machine

/-- Settles O17: R83 is the value map's characterisation, `symbolValue_eq_some_iff`. -/
theorem decoderValueMap : Obligations.DecoderValueMap := fun _ _ => symbolValue_eq_some_iff

/-! ### The user-input pre-pass -/

/-- The four whitespace bytes, and no other, are stripped (R84; N26). -/
theorem isStripped_iff {c : Byte} : isStripped c = true ↔ c = 0x20 ∨ c = 0x09 ∨ c = 0x0D ∨ c = 0x0A := by
  simp only [isStripped, Bool.or_eq_true, beq_iff_eq, or_assoc]

/-- Neither the three remapped digits nor the letters they become are whitespace. -/
@[simp] theorem isStripped_remap (c : Byte) : isStripped (remap c) = isStripped c := by
  unfold remap
  split_ifs with zero one eight
  · subst zero; rfl
  · subst one; rfl
  · subst eight; rfl
  · rfl

theorem userPrep_cons_of_isStripped {c : Byte} (h : isStripped c = true) (t : List Byte) :
    userPrep (c :: t) = userPrep t := by
  simp [userPrep, h]

theorem userPrep_cons_of_not_isStripped {c : Byte} (h : ¬ isStripped c = true) (t : List Byte) :
    userPrep (c :: t) = remap c :: userPrep t := by
  simp [userPrep, h]

/-- The pre-pass acts on each byte alone: it drops whitespace and remaps the rest. -/
theorem userPrep_eq_flatMap (t : List Byte) :
    userPrep t = t.flatMap fun c => if isStripped c = true then [] else [remap c] := by
  induction t with
  | nil => rfl
  | cons c t ih =>
    rw [List.flatMap_cons, ← ih]
    by_cases h : isStripped c = true
    · rw [if_pos h, userPrep_cons_of_isStripped h, List.nil_append]
    · rw [if_neg h, userPrep_cons_of_not_isStripped h, List.singleton_append]

/-- The two sub-steps may change places, for the remap keeps whether a byte is whitespace (R84). -/
theorem userPrep_eq_filter_map (t : List Byte) : userPrep t = (t.map remap).filter fun c => !isStripped c := by
  simp only [userPrep, List.filter_map, Function.comp_def, isStripped_remap]

/-- The remap of one byte, as the one-byte text R84's table gives for it. -/
theorem singleton_remap (c : Byte) :
    [remap c] = if c = 0x30 then [0x4F] else if c = 0x31 then [0x4C] else if c = 0x38 then [0x42] else [c] := by
  simp only [remap, apply_ite (fun b : Byte => [b])]

/-- Settles O18: the pre-pass byte by byte, and its sub-steps interchanged; strict mode is the identity. -/
theorem userPrePass : Obligations.UserPrePass := by
  refine fun t => ⟨rfl, ?_, userPrep_eq_filter_map t⟩
  change userPrep t = _
  simp only [userPrep_eq_flatMap, isStripped_iff, singleton_remap]

end Sys2Proof.Machine
end

section
/-! PROOFS, of the statements of 42_hmac.md: the padded key and the two hashes over it, the hex form of a digest. -/

namespace Sys2Proof.Machine

/-! ### Key preparation -/

/-- A key of at most 64 bytes, 64 itself included, is not hashed (R94, R98). -/
theorem paddedKey_of_le_64 {key : List Byte} (h : key.length ≤ 64) (H : List Byte → List Byte) :
    paddedKey H key = key ++ List.replicate (64 - key.length) 0 := by
  have hb : ¬ key.length > Config.blockSize := Nat.not_lt.2 h
  simp only [paddedKey, if_neg hb]
  rfl

/-- A longer key is replaced by its hash (R94, R98). -/
theorem paddedKey_of_64_lt {key : List Byte} (h : 64 < key.length) (H : List Byte → List Byte) :
    paddedKey H key = H key ++ List.replicate (64 - (H key).length) 0 := by
  have hb : key.length > Config.blockSize := h
  simp only [paddedKey, if_pos hb]
  rfl

/-- The padded key is one block, whatever the key, for every hash whose digests fit in a block (R94). -/
theorem paddedKey_length {H : List Byte → List Byte} (hH : ∀ m, (H m).length ≤ 64) (key : List Byte) :
    (paddedKey H key).length = 64 := by
  obtain long | short := Nat.lt_or_ge 64 key.length
  · rw [paddedKey_of_64_lt long, List.length_append, List.length_replicate, Nat.add_sub_of_le (hH key)]
  · rw [paddedKey_of_le_64 short, List.length_append, List.length_replicate, Nat.add_sub_of_le short]

/-- Settles O22: `k0` is the padded key in both cases, and R95's two hashes over it are `hmacCore` as defined. -/
theorem hmacConstruction : Obligations.HmacConstruction := by
  intro H key data hH
  have block : (paddedKey H key).length = 64 := paddedKey_length (fun m => by rw [hH m]; decide) key
  refine ⟨fun short => ⟨paddedKey H key, paddedKey_of_le_64 short H, block, rfl⟩,
    fun long => ⟨paddedKey H key, ?_, block, rfl⟩⟩
  rw [paddedKey_of_64_lt long, hH]

/-! ### The hex form of a digest -/

theorem hexChar_toNat_of_le_9 {x : BitVec 4} (h : x.toNat ≤ 9) : (hexChar x).toNat = 0x30 + x.toNat := by
  rw [hexChar, if_pos h, BitVec.toNat_ofNat, Nat.mod_eq_of_lt (by omega)]

theorem hexChar_toNat_of_ge_10 {x : BitVec 4} (h : 10 ≤ x.toNat) : (hexChar x).toNat = 0x61 + (x.toNat - 10) := by
  rw [hexChar, if_neg (by omega), BitVec.toNat_ofNat, Nat.mod_eq_of_lt (by omega)]

/-- Digest byte `i` gives the characters `2 * i` and `2 * i + 1`, its high nibble first (R97). -/
theorem hexBytes_getElem? (d : List Byte) (i : Nat) (h : i < d.length) :
    (hexBytes d)[2 * i]? = some (hexChar (d[i].extractLsb' 4 4)) ∧
      (hexBytes d)[2 * i + 1]? = some (hexChar (d[i].extractLsb' 0 4)) := by
  induction d generalizing i with
  | nil => exact absurd h (Nat.not_lt_zero i)
  | cons b d ih =>
    rw [hexBytes_cons]
    cases i with
    | zero => exact ⟨rfl, rfl⟩
    | succ j => exact ih j (Nat.lt_of_succ_lt_succ h)

/-- Settles O23: the length, the two characters of each byte, and the two ranges of a nibble's character. -/
theorem hexFormOfADigest : Obligations.HexFormOfADigest := fun d =>
  ⟨hexBytes_length d, hexBytes_getElem? d, fun _ => ⟨hexChar_toNat_of_le_9, hexChar_toNat_of_ge_10⟩⟩

end Sys2Proof.Machine
end

section
/-! PROOFS, of the statements of 43_otp_truncation.md: the truncation on numbers, the counter's message, what HOTP
depends on. -/

namespace Sys2Proof.Machine

/-! ### Dynamic truncation -/

/-- Settles O25: the offset is at most 15, so the four bytes of the extract end at byte 18. -/
theorem truncationOfADigest : Obligations.TruncationOfADigest := by
  intro d hd
  have off : (truncate d).off.toNat = d[19].toNat % 16 := truncate_off_toNat d hd
  have last : (truncate d).off.toNat + 3 ≤ 18 := by omega
  have byteAt (k : Nat) (hk : k ≤ 18) : d[k]? = some d[k] := List.getElem?_eq_getElem (by omega)
  refine ⟨_, _, _, _, _, List.getElem?_eq_getElem (by omega), off, byteAt _ (by omega), byteAt _ (by omega),
    byteAt _ (by omega), byteAt _ last, last, ?_, truncate_code_toNat d⟩
  rw [truncate_bin_toNat, be32_eq d _ (by omega)]

/-! ### The counter's message -/

theorem be64_getElem? (c : DWord) {i : Nat} (h : i < 8) : (be64 c)[i]? = some (c.extractLsb' (56 - 8 * i) 8) := by
  rw [be64, List.getElem?_map, List.getElem?_range h, Option.map_some]

theorem bytesNumber_concat (bs : List Byte) (b : Byte) : bytesNumber (bs ++ [b]) = bytesNumber bs * 256 + b.toNat :=
  List.foldl_append ..

/-- The first `n` bytes of the message are the counter's top `8 * n` bits. -/
theorem bytesNumber_be64_prefix (c : DWord) {n : Nat} (h : n ≤ 8) :
    bytesNumber ((List.range n).map fun i => c.extractLsb' (56 - 8 * i) 8) = c.toNat / 2 ^ (64 - 8 * n) := by
  induction n with
  | zero => exact (Nat.div_eq_of_lt c.isLt).symm
  | succ n ih =>
    have shift : 64 - 8 * n = 56 - 8 * n + 8 := by omega
    rw [List.range_succ, List.map_append, List.map_singleton, bytesNumber_concat, ih (by omega), shift, Nat.pow_add,
      ← Nat.div_div_eq_div_mul, BitVec.extractLsb'_toNat, Nat.shiftRight_eq_div_pow]
    rw [show 64 - 8 * (n + 1) = 56 - 8 * n by omega]
    exact Nat.div_add_mod' _ _

theorem bytesNumber_be64 (c : DWord) : bytesNumber (be64 c) = c.toNat :=
  (bytesNumber_be64_prefix c (Nat.le_refl 8)).trans (Nat.div_one _)

/-- Settles O28: the value is that of all 8 bytes, by induction on the bytes taken. -/
theorem counterMessageIsBigEndian : Obligations.CounterMessageIsBigEndian :=
  fun c => ⟨be64_length c, bytesNumber_be64 c, fun _ => be64_getElem? c⟩

/-! ### What HOTP depends on -/

/-- The results of an HOTP whose digest is `d`: its bytes in DIG, and its truncation in the registers (R108). -/
structure State.HotpResults (d : List Byte) (t : State) : Prop where
  truncOff : t.truncOff = (truncate d).off
  truncBin : t.truncBin = (truncate d).bin
  code : t.code = (truncate d).code
  dig : ∀ i, i < 20 → Memory.get t.mem (0x1400 + i) = d[i]?

/-- The three registers and the DIG bytes HOTP leaves are a function of its digest. -/
theorem hotpResults_of_exec {s t : State} (hk : s.keyLen.toNat ≤ 256) (h : exec .hotp s = .next t) :
    t.HotpResults (hotpDigest s) := by
  obtain ⟨long, -⟩ | ⟨-, he⟩ := execHotp_cases s
  · exact absurd long (Nat.not_lt.2 hk)
  · obtain rfl := Host.Outcome.next.inj (he.symm.trans h)
    refine ⟨rfl, rfl, rfl, fun i hi => ?_⟩
    have hd : i < (hotpDigest s).length := by rwa [hotpDigest_length]
    exact (Memory.get_setRun_inside _ _ i _ hd).trans (List.getElem?_eq_getElem hd).symm

/-- A written key reads alike in two states that hold the same bytes of it, whatever the free draws (R44). -/
theorem keyBytes_congr {s s' : State} (hl : s.keyLen = s'.keyLen) (hw : s.written .key s.keyLen.toNat)
    (h : ∀ i, i < s.keyLen.toNat → Memory.get s.mem (0x0800 + i) = Memory.get s'.mem (0x0800 + i)) :
    s.keyBytes = s'.keyBytes := by
  rw [State.keyBytes, State.keyBytes, ← hl]
  exact Memory.bytes_congr _ _ _ _ _ _ _ fun i hi => ⟨hw i hi, h i hi⟩

/-- Settles O30: equal key bytes and counters give one digest, of which every result is a function. -/
theorem hotpDependsOnKeyAndCounterOnly : Obligations.HotpDependsOnKeyAndCounterOnly := by
  intro s s' t t' hl hk hc hw hb ht ht'
  have digest : hotpDigest s = hotpDigest s' := by rw [hotpDigest, hotpDigest, keyBytes_congr hl hw hb, hc]
  obtain ⟨off, bin, code, dig⟩ := hotpResults_of_exec hk ht
  obtain ⟨off', bin', code', dig'⟩ := digest ▸ hotpResults_of_exec (hl ▸ hk) ht'
  exact ⟨off.trans off'.symm, bin.trans bin'.symm, code.trans code'.symm,
    fun i hi => (dig i hi).trans (dig' i hi).symm⟩

end Sys2Proof.Machine
end

section
/-! PROOFS, of the statements of 44_totp_counter.md: what TSTEP writes and what it leaves unchanged. -/

namespace Sys2Proof.Machine

/-- TSTEP has one answer, a completion without error (R112); the source decides the timestamp. -/
theorem exec_tstep (source : TimeSource) (s : State) :
    exec (.tstep source) s =
      .next (((s.sampleClock source).setCounter (counterOf (s.sampleClock source).timestamp)).finish .ok) := rfl

/-- The COUNTER a completion leaves holds the timestamp's floor quotient by 30 (R111, R112). -/
theorem finish_setCounter_counterOf_toNat (t : DWord) (u : State) (c : ErrCode) :
    ((u.setCounter (counterOf t)).finish c).counter.toNat = t.toNat / 30 :=
  (congrArg BitVec.toNat (setCounter_counter _ u)).trans (counterOf_toNat t)

/-- Settles O33: with W = 0 the timestamp is TS as it stands; with W = 1 it is the sample that TS now holds. -/
theorem tstepWritesTheCounter : Obligations.TstepWritesTheCounter := by
  intro s
  constructor
  · exact ⟨_, exec_tstep .ts s, finish_setCounter_counterOf_toNat s.timestamp s .ok, rfl⟩
  · have sample : (s.sampleClock .now).timestamp = s.clockValue := setTimestamp_timestamp s.clockValue s.afterClock
    refine ⟨_, exec_tstep .now s, sample, ?_, rfl⟩
    rw [finish_setCounter_counterOf_toNat, sample]

end Sys2Proof.Machine
end

section
/-! PROOFS, of the statements of 45_host_sequences.md: the digits a code is shown with. -/

namespace Sys2Proof.Machine

/-- A number of one decimal digit more is ten times the number before it, plus that digit. -/
theorem div_ten_pow_succ_mul_ten_add_mod (c e : Nat) : c / 10 ^ (e + 1) * 10 + c / 10 ^ e % 10 = c / 10 ^ e := by
  rw [Nat.pow_succ, ← Nat.div_div_eq_div_mul]
  exact Nat.div_add_mod' _ _

/-- Reading the first `k` of the `m + 1` last decimal digits of `c` gives `c` without its other last digits. -/
theorem foldl_range_decimalDigits (c m : Nat) (hc : c < 10 ^ (m + 1)) :
    ∀ k ≤ m + 1, (List.range k).foldl (fun n i => n * 10 + c / 10 ^ (m - i) % 10) 0 = c / 10 ^ (m + 1 - k) := by
  intro k hk
  induction k with
  | zero => exact (Nat.div_eq_of_lt hc).symm
  | succ k ih =>
    have next : m + 1 - k = m - k + 1 := Nat.sub_add_comm (Nat.le_of_succ_le_succ hk)
    rw [List.range_succ, List.foldl_append, ih (Nat.le_of_succ_le hk), next, Nat.add_sub_add_right]
    exact div_ten_pow_succ_mul_ten_add_mod c (m - k)

/-- A decimal digit's character, as a byte, holds `0x30` plus the digit. -/
theorem digitByte_toNat (d : Nat) : (BitVec.ofNat 8 (0x30 + d % 10)).toNat = 0x30 + d % 10 := by
  rw [BitVec.toNat_ofNat]
  exact Nat.mod_eq_of_lt (by omega)

theorem displayCode_length (code : Nat) : (displayCode code).length = 6 := by
  rw [displayCode, List.length_map, List.length_range]

/-- Every character shown is one of `0` to `9`, whatever the number. -/
theorem displayCode_isDigit {code : Nat} {b : Byte} (hb : b ∈ displayCode code) :
    0x30 ≤ b.toNat ∧ b.toNat ≤ 0x39 := by
  obtain ⟨i, -, rfl⟩ := List.mem_map.1 hb
  rw [digitByte_toNat]
  omega

/-- Reading the characters shown as a decimal number is reading the 6 last digits of the code. -/
theorem displayCode_foldl (code : Nat) :
    (displayCode code).foldl (fun n b => n * 10 + (b.toNat - 0x30)) 0 =
      (List.range 6).foldl (fun n i => n * 10 + code / 10 ^ (5 - i) % 10) 0 := by
  simp only [displayCode, List.foldl_map, digitByte_toNat, Nat.add_sub_cancel_left]

/-- Settles O59: the value read after `k` characters is the code without its last `6 - k` digits. -/
theorem codesShowSixDigits : Obligations.CodesShowSixDigits := by
  intro code hcode
  refine ⟨displayCode_length code, fun b => displayCode_isDigit, ?_⟩
  calc (displayCode code).foldl (fun n b => n * 10 + (b.toNat - 0x30)) 0
      _ = (List.range 6).foldl (fun n i => n * 10 + code / 10 ^ (5 - i) % 10) 0 := displayCode_foldl code
      _ = code / 10 ^ (6 - 6) := foldl_range_decimalDigits code 5 (Nat.lt_succ_of_le hcode) 6 le_rfl
      _ = code := Nat.div_one code

end Sys2Proof.Machine
end

section
/-! PROOFS, of the statements of 60_exceptions.md: acceptance, the ERR a command ends with and what an error leaves
unchanged, and the CMD write that races a completion. -/

namespace Sys2Proof.Machine

/-! ### Acceptance -/

/-- A CMD write of an idle block is the acceptance of the word (R128). -/
theorem store_cmd_of_idle (v : Word) {s : State} (hp : s.pending = none) :
    s.store 0x008 v = (s.accept v).answered .written := store_register .cmd 0x008 rfl v hp

/-- A CMD write while a command is pending sets OVR and does nothing else (R56). -/
theorem store_cmd_of_pending (v : Word) {s : State} (hp : s.pending ≠ none) :
    s.store 0x008 v = s.overrun.answered .written := store_of_gatedWhileBusy hp (by decide) v

/-- Settles O7: CMD takes every word of an idle block, and BUSY gates it. -/
theorem cmdWriteIsAcceptance : Obligations.CmdWriteIsAcceptance :=
  fun _ v => ⟨store_cmd_of_idle v, store_cmd_of_pending v⟩

/-! ### The error code of a command -/

/-- The ERR a command ends with in a state, its checks in the order of R136 (R132, R133, R135). -/
def commandErrCode (s : State) : Instr → ErrCode
  | .b32enc n => if Config.outCap < encLength n then .length else .ok
  | .b32dec mode dest =>
    if Config.txtCap < s.txtLen.toNat then .length
    else
      match decodeText mode s.textBytes with
      | none => .decode
      | some bs => if destCap dest < bs.length then .length else .ok
  | .hmac _ => if Config.keyCap < s.keyLen.toNat ∨ Config.msgCap < s.msgLen.toNat then .length else .ok
  | .trunc => if s.digLen.toNat < 20 then .digest else .ok
  | .hotp => if Config.keyCap < s.keyLen.toNat then .length else .ok
  | .tstep _ => .ok

/-- The ERR the completion of a word ends with (R129, R131). -/
def wordErrCode (s : State) (w : Word) : ErrCode :=
  match decode w with
  | .ok i => commandErrCode s i
  | .error _ => .illegal

/-- A single check reports an error exactly where it applies and the error is its own. -/
theorem check_eq_error_iff {p : Prop} [Decidable p] {e e' : ErrCode} (h : e' ≠ .ok) :
    (if p then e else .ok) = e' ↔ p ∧ e = e' := by
  split
  case isTrue hp => simp [hp]
  case isFalse hp => simp [hp, h.symm]

/-- The outcome is a completion with the error code `e`; if `e` is an error, nothing but STATUS and the count of free
draws has changed (R134; log entry 17). -/
def CompletesWith (s : State) (e : ErrCode) (o : Host.Outcome State Fault Refusal) : Prop :=
  ∃ u : State, o = .next (u.finish e) ∧ (e ≠ .ok → ∃ n, u = { s with byteDraws := n })

theorem CompletesWith.ok (s u : State) : CompletesWith s .ok (.next (u.finish .ok)) :=
  ⟨u, rfl, fun h => absurd rfl h⟩

theorem CompletesWith.error (s : State) (e : ErrCode) : CompletesWith s e (.next (s.finish e)) :=
  ⟨s, rfl, fun _ => ⟨s.byteDraws, rfl⟩⟩

theorem CompletesWith.errorAfterText (s : State) (e : ErrCode) :
    CompletesWith s e (.next (s.afterText.finish e)) :=
  ⟨s.afterText, rfl, fun _ => ⟨s.afterText.byteDraws, rfl⟩⟩

/-- Every command completes with its error code. -/
theorem exec_completesWith (i : Instr) (s : State) : CompletesWith s (commandErrCode s i) (exec i s) := by
  cases i with
  | b32enc n =>
    rw [commandErrCode, exec]
    obtain ⟨hn, h⟩ | ⟨hn, h⟩ := execB32enc_cases n s
    · rw [h, if_pos hn]; exact .error s _
    · rw [h, if_neg hn.not_gt]; exact .ok s _
  | b32dec mode dest =>
    rw [commandErrCode, exec]
    obtain ⟨ht, h⟩ | ⟨ht, ⟨hd, h⟩ | ⟨bs, hd, ⟨hl, h⟩ | ⟨hl, h⟩⟩⟩ := execB32dec_cases mode dest s
    · rw [h, if_pos ht]; exact .error s _
    · rw [h, if_neg ht.not_gt, hd]; exact .errorAfterText s _
    · rw [h, if_neg ht.not_gt, hd]; simp only [if_pos hl]; exact .errorAfterText s _
    · rw [h, if_neg ht.not_gt, hd]; simp only [if_neg hl.not_gt]; exact .ok s _
  | hmac form =>
    rw [commandErrCode, exec]
    obtain ⟨hn, h⟩ | ⟨hk, hm, h⟩ := execHmac_cases form s
    · rw [h, if_pos hn]; exact .error s _
    · rw [h, if_neg (not_or.2 ⟨hk.not_gt, hm.not_gt⟩)]; exact .ok s _
  | trunc =>
    rw [commandErrCode, exec]
    obtain ⟨hn, h⟩ | ⟨hn, h⟩ := execTrunc_cases s
    · rw [h, if_pos hn]; exact .error s _
    · rw [h, if_neg hn.not_gt]; exact .ok s _
  | hotp =>
    rw [commandErrCode, exec]
    obtain ⟨hn, h⟩ | ⟨hn, h⟩ := execHotp_cases s
    · rw [h, if_pos hn]; exact .error s _
    · rw [h, if_neg hn.not_gt]; exact .ok s _
  | tstep source => exact .ok s _

theorem completesWith_of_exec {i : Instr} {s t : State} (h : exec i s = .next t) :
    CompletesWith s (commandErrCode s i) (.next t) := h ▸ exec_completesWith i s

/-- The engine's turn completes the pending word with that word's error code. -/
theorem engineTurn_completesWith {s : State} {w : Word} (hp : s.pending = some w) :
    CompletesWith s (wordErrCode s w) (engineTurn s) := by
  rw [wordErrCode, engineTurn, hp]
  cases hd : decode w with
  | ok i => simpa only [hd] using exec_completesWith i s
  | error e => simpa only [hd] using .error s .illegal

theorem completesWith_of_engineTurn {s t : State} {w : Word} (hp : s.pending = some w) (h : engineTurn s = .next t) :
    CompletesWith s (wordErrCode s w) (.next t) := h ▸ engineTurn_completesWith hp

theorem CompletesWith.err {s t : State} {e : ErrCode} (h : CompletesWith s e (.next t)) : t.err = e := by
  obtain ⟨u, hu, -⟩ := h
  obtain rfl : t = u.finish e := by simpa using hu
  rfl

/-- An error leaves all but STATUS and the count of free draws (R134). -/
theorem CompletesWith.frame {s t : State} {e : ErrCode} (h : CompletesWith s e (.next t)) (he : e ≠ .ok) :
    t = { s with pending := none, done := true, err := e, byteDraws := t.byteDraws } := by
  obtain ⟨u, hu, hf⟩ := h
  obtain rfl : t = u.finish e := by simpa using hu
  obtain ⟨n, rfl⟩ := hf he
  rfl

/-- Settles O9: a completion is with the word's error code, and one with an error has the frame of R134. -/
theorem errorWritesOnlyStatus : Obligations.ErrorWritesOnlyStatus := by
  intro s t w hp ht he
  have hc := completesWith_of_engineTurn hp ht
  rw [← hc.err] at hc
  exact hc.frame he

/-! ### Illegal words -/

/-- The row of every command is in the opcode map (R65). -/
theorem row_mem_opcodeTable (i : Instr) : i.row ∈ opcodeTable := by
  cases i <;> simp [Instr.row, opcodeTable]

/-- Decoding fails exactly for a word that matches no row (R71, R73). -/
theorem decode_error_iff {w : Word} :
    (∃ e, decode w = .error e) ↔ ∀ r ∈ opcodeTable, w &&& r.mask ≠ r.pat := by
  constructor
  · rintro ⟨e, he⟩ r hr hw
    exact absurd (Row.matchesWord_iff.2 hw) (by simp [not_matchesWord_of_decode he r hr])
  · intro h
    cases hd : decode w with
    | ok i => exact absurd (Row.matchesWord_iff.1 (matchesWord_of_decode hd)) (h i.row (row_mem_opcodeTable i))
    | error e => exact ⟨e, rfl⟩

/-- No command of the map ends in E_ILLEGAL. -/
theorem commandErrCode_ne_illegal (i : Instr) (s : State) : commandErrCode s i ≠ .illegal := by
  cases i with
  | b32dec mode dest =>
    rw [commandErrCode]
    repeat' split
    all_goals exact nofun
  | _ => simp [commandErrCode, check_eq_error_iff]

theorem wordErrCode_eq_illegal_iff {w : Word} {s : State} :
    wordErrCode s w = .illegal ↔ ∃ e, decode w = .error e := by
  rw [wordErrCode]
  cases decode w with
  | ok i => simp [commandErrCode_ne_illegal i s]
  | error e => simp

theorem engineTurn_of_decode_error {s : State} {w : Word} {e : IllegalWord} (hp : s.pending = some w)
    (hd : decode w = .error e) : engineTurn s = .next (s.finish .illegal) := by
  simp [engineTurn, hp, hd]

/-- Settles O10: E_ILLEGAL is the completion of a word that does not decode, and of no other. -/
theorem illegalWordEndsInEIllegal : Obligations.IllegalWordEndsInEIllegal := by
  intro s w hp
  refine ⟨fun h => ?_, fun t ht he => ?_⟩
  · obtain ⟨e, hd⟩ := decode_error_iff.2 h
    exact engineTurn_of_decode_error hp hd
  · have hw : wordErrCode s w = .illegal := (completesWith_of_engineTurn hp ht).err.symm.trans he
    exact decode_error_iff.1 (wordErrCode_eq_illegal_iff.1 hw)

/-! ### The cases of E_LENGTH and E_DECODE -/

theorem commandErrCode_b32dec_eq_length_iff {mode : DecodeMode} {dest : Dest} {s : State} :
    commandErrCode s (.b32dec mode dest) = .length ↔
      Config.txtCap < s.txtLen.toNat ∨ ∃ bs, decodeText mode s.textBytes = some bs ∧ destCap dest < bs.length := by
  rw [commandErrCode]
  by_cases ht : Config.txtCap < s.txtLen.toNat
  · simp [ht]
  · cases hd : decodeText mode s.textBytes with
    | none => simp [ht]
    | some bs => simp [ht]

/-- B32DEC fails in the decode exactly where it gets to it and a processed byte is no symbol (R88, R136). -/
theorem commandErrCode_b32dec_eq_decode_iff {mode : DecodeMode} {dest : Dest} {s : State} :
    commandErrCode s (.b32dec mode dest) = .decode ↔
      s.txtLen.toNat ≤ Config.txtCap ∧ ∃ c ∈ processed mode s.textBytes, symbolValue c = none := by
  rw [commandErrCode, ← decodeText_eq_none_iff]
  by_cases ht : Config.txtCap < s.txtLen.toNat
  · simp [ht]
  · cases hd : decodeText mode s.textBytes with
    | none => simp [ht, Nat.le_of_not_lt ht]
    | some bs => simp [ht, check_eq_error_iff]

/-- R133's list. -/
theorem commandErrCode_eq_length_iff (i : Instr) (s : State) :
    commandErrCode s i = .length ↔
      (∃ n, i = .b32enc n ∧ Config.outCap < encLength n) ∨
      (∃ m d, i = .b32dec m d ∧ (Config.txtCap < s.txtLen.toNat ∨
        ∃ bs, decodeText m s.textBytes = some bs ∧ destCap d < bs.length)) ∨
      (∃ f, i = .hmac f ∧ (Config.keyCap < s.keyLen.toNat ∨ Config.msgCap < s.msgLen.toNat)) ∨
      (i = .hotp ∧ Config.keyCap < s.keyLen.toNat) := by
  cases i with
  | b32dec mode dest => simp [commandErrCode_b32dec_eq_length_iff]
  | hmac form => rw [commandErrCode, check_eq_error_iff (e' := .length) nofun]; simp
  | _ => simp [commandErrCode, check_eq_error_iff]

/-- No N of the 8-bit field makes an output above OUT's capacity (R67, R79). -/
theorem encLength_le_outCap {n : Nat} (h : (Instr.b32enc n).wellFormed = true) : encLength n ≤ Config.outCap := by
  have hn : n < 256 := by simpa [Instr.wellFormed] using h
  rw [encLength, Config.outCap]
  omega

theorem txtCap_le_destCap (dest : Dest) : Config.txtCap ≤ destCap dest := by
  cases dest <;> decide

/-- What a text within TXT's capacity decodes to fits either destination (R90, R91). -/
theorem decodeText_length_le_destCap {mode : DecodeMode} {s : State} {bs : List Byte} (dest : Dest)
    (ht : s.txtLen.toNat ≤ Config.txtCap) (h : decodeText mode s.textBytes = some bs) :
    bs.length ≤ destCap dest := by
  have hl := decodeText_length_le h
  rw [textBytes_length] at hl
  have := txtCap_le_destCap dest
  omega

/-- Settles O11: R133's list is that of `commandErrCode`; a well-formed command's output always fits. -/
theorem lengthErrorCases : Obligations.LengthErrorCases := by
  intro i s t ht
  rw [(completesWith_of_exec ht).err]
  refine ⟨commandErrCode_eq_length_iff i s, fun hw he => ?_⟩
  obtain ⟨n, rfl, hn⟩ | ⟨m, d, rfl, htxt | ⟨bs, hd, hl⟩⟩ | hrest := (commandErrCode_eq_length_iff i s).1 he
  · exact absurd (encLength_le_outCap hw) hn.not_ge
  · exact .inl ⟨m, d, rfl, htxt⟩
  · refine .inl ⟨m, d, rfl, ?_⟩
    by_contra htxt
    exact absurd (decodeText_length_le_destCap d (Nat.le_of_not_lt htxt) hd) hl.not_ge
  · exact .inr hrest

/-- E_DECODE is B32DEC's alone (R132). -/
theorem commandErrCode_eq_decode_iff (i : Instr) (s : State) :
    commandErrCode s i = .decode ↔
      ∃ m d, i = .b32dec m d ∧ s.txtLen.toNat ≤ Config.txtCap ∧
        ∃ c ∈ processed m s.textBytes, symbolValue c = none := by
  cases i with
  | b32dec mode dest => simp [commandErrCode_b32dec_eq_decode_iff]
  | _ => simp [commandErrCode, check_eq_error_iff]

/-- Settles O12: the processed bytes are those before the first `'='`, and the frame is that of every error. -/
theorem decodeErrorCases : Obligations.DecodeErrorCases := by
  intro i s t ht
  have hc := completesWith_of_exec ht
  rw [hc.err]
  refine ⟨commandErrCode_eq_decode_iff i s, fun he => ?_⟩
  rw [he] at hc
  exact hc.frame nofun

/-! ### A CMD write and the completion -/

/-- A step takes the next event of the schedule (R58). -/
theorem step_of_schedule {s : State} {e : Event} {es : List Event} (hf : s.hostFault = false)
    (hs : s.schedule = e :: es) : step s = runEvent e { s with schedule := es } := by
  simp [step, hf, runNext, hs]

/-- A supported write access is a store (R48, R49). -/
theorem hostAccess_write {off : Nat} (h : off < Config.windowSize) (ha : off % 4 = 0) (v : Word) (s : State) :
    hostAccess ⟨.word, Config.base + off, .write v⟩ s = .next (s.store off v) := by
  simp [hostAccess, windowOffset_base off h, Access.supported, ha]

/-- A step at a CMD write is the store. -/
theorem step_cmdWrite {s : State} {v : Word} {es : List Event} (hf : s.hostFault = false)
    (hs : s.schedule = .hostAccess ⟨.word, Config.base + 0x008, .write v⟩ :: es) :
    step s = .next (({ s with schedule := es } : State).store 0x008 v) :=
  (step_of_schedule hf hs).trans (hostAccess_write (by decide) rfl v _)

theorem CommandFrame.finish {s u : State} (h : CommandFrame s u) (c : ErrCode) : CommandFrame s (u.finish c) :=
  ⟨h.ie, h.ovr, h.cmd, h.txtLen, h.msgLen, h.schedule, h.response, h.hostFault⟩

/-- A step at the engine's turn completes the pending word with its error code, inside the command frame. -/
theorem step_engineTurn {s : State} {w : Word} {es : List Event} (hf : s.hostFault = false)
    (hs : s.schedule = .engineTurn :: es) (hp : s.pending = some w) :
    ∃ t, step s = .next t ∧ t.pending = none ∧ t.done = true ∧ t.err = wordErrCode s w ∧
      CommandFrame { s with schedule := es } t := by
  obtain ⟨u, c, hu, hframe⟩ := engineTurn_finishes (s := { s with schedule := es }) (by simp [hp])
  have herr := (completesWith_of_engineTurn (s := { s with schedule := es }) hp hu).err
  exact ⟨_, (step_of_schedule hf hs).trans hu, rfl, rfl, herr, hframe.finish c⟩

/-- A write that only sets OVR leaves every operand, and with it the error code of the word pending. -/
theorem wordErrCode_answered_overrun (r : Response) (s : State) (w : Word) :
    wordErrCode (s.overrun.answered r) w = wordErrCode s w := by
  rw [wordErrCode, wordErrCode]
  cases decode w with
  | ok i => cases i <;> rfl
  | error e => rfl

/-- The write first: it only sets OVR, and the first command completes as it does without the write. -/
theorem run_cmdWrite_engineTurn {s : State} {w v : Word} (hf : s.hostFault = false) (hp : s.pending = some w)
    (hs : s.schedule = [.hostAccess ⟨.word, Config.base + 0x008, .write v⟩, .engineTurn]) :
    ∃ t, core.run 2 s = .next t ∧ t.pending = none ∧ t.done = true ∧ t.err = wordErrCode s w ∧ t.cmd = s.cmd ∧
      t.ovr = true := by
  have hw := step_cmdWrite hf hs
  rw [store_cmd_of_pending v (by simp [hp])] at hw
  obtain ⟨t, ht, htp, htd, hte, hframe⟩ := step_engineTurn (es := [])
    (s := ({ s with schedule := [.engineTurn] } : State).overrun.answered .written) hf rfl hp
  refine ⟨t, (run_succ_of_next hw 1).trans (run_succ_of_next ht 0), htp, htd, ?_, hframe.cmd, hframe.ovr⟩
  exact hte.trans (wordErrCode_answered_overrun ..)

/-- The completion first: the block is idle when the write comes, which is then accepted. -/
theorem run_engineTurn_cmdWrite {s : State} {w v : Word} (hf : s.hostFault = false) (hp : s.pending = some w)
    (hs : s.schedule = [.engineTurn, .hostAccess ⟨.word, Config.base + 0x008, .write v⟩]) :
    ∃ t, core.run 2 s = .next t ∧ t.pending = some v ∧ t.done = false ∧ t.err = .ok ∧ t.cmd = v ∧ t.ovr = s.ovr := by
  obtain ⟨u, hu, hup, -, -, hframe⟩ := step_engineTurn hf hs hp
  have hw := step_cmdWrite (hframe.hostFault.trans hf) hframe.schedule
  rw [store_cmd_of_idle v (s := { u with schedule := [] }) hup] at hw
  exact ⟨_, (run_succ_of_next hu 1).trans (run_succ_of_next hw 0), rfl, rfl, rfl, rfl, hframe.ovr⟩

/-- Settles O52: each order is two steps, of which the completion keeps CMD and OVR. -/
theorem cmdWriteRacesCompletion : Obligations.CmdWriteRacesCompletion := by
  intro s w v hf hp hcmd
  refine ⟨?_, run_engineTurn_cmdWrite hf hp rfl⟩
  obtain ⟨t, ht, htp, htd, hte, htc, hto⟩ := run_cmdWrite_engineTurn (v := v)
    (s := { s with schedule := [.hostAccess ⟨.word, Config.base + 0x008, .write v⟩, .engineTurn] }) hf hp rfl
  obtain ⟨u, hu, -, -, hue, -⟩ := step_engineTurn (s := { s with schedule := [.engineTurn] }) hf rfl hp
  exact ⟨t, u, ht, run_succ_of_next hu 0, htp, htd, hte.trans hue.symm, htc.trans hcmd, hto⟩

end Sys2Proof.Machine
end

section
/-! PROOFS, of the statements of 70_reset_and_hazards.md: what the host reads after reset. -/

namespace Sys2Proof.Machine

/-- Every register's word at reset is 0, but for the parameters (R33, R149). -/
theorem regWord_reset (r : Reg) :
    State.reset.regWord r =
      if r = .param0 then 0x01000100 else if r = .param1 then 0x02000100 else if r = .param2 then 0x00001440
      else 0 := by
  cases r <;> rfl

/-- Settles O46: no command is pending at reset, so each register reads as its word; the memory lists no byte. -/
theorem resetValues : Obligations.ResetValues := by
  have read (r : Reg) : State.reset.loadValue r.offset = State.reset.regWord r := loadValue_register r _ rfl rfl
  exact ⟨fun r => (read r).trans (regWord_reset r), rfl, rfl, rfl, rfl, Memory.get_nil⟩

end Sys2Proof.Machine
end

section
/-! PROOFS, of the statements of 30_encoding.md: decoding as the match of a row with the fields read from the word, the
two round trips, and the count of the legal words. -/

namespace Sys2Proof

/-! ### Decoding, said once -/

/-- A command with its operands replaced by the fields of `w` (R63, R64). -/
def Instr.operandsFrom (w : Word) : Instr → Instr
  | .b32enc _ => .b32enc (nField w)
  | .b32dec _ _ => .b32dec (uField w) (dField w)
  | .hmac _ => .hmac (xField w)
  | .trunc => .trunc
  | .hotp => .hotp
  | .tstep _ => .tstep (wField w)

/-- Every row compares the whole opcode byte, and a row is known by it (R65). -/
theorem row_eq_of_matchesWord {r q : Row} {w : Word} (hr : r ∈ opcodeTable) (hq : q ∈ opcodeTable)
    (hrw : r.matchesWord w = true) (hqw : q.matchesWord w = true) : r = q := by
  have opcodeByte : ∀ p ∈ opcodeTable, p.mask &&& 0xFF = 0xFF := by decide
  have distinct : ∀ p ∈ opcodeTable, ∀ p' ∈ opcodeTable, p.pat &&& 0xFF = p'.pat &&& 0xFF → p = p' := by decide
  have low {p : Row} (hp : p ∈ opcodeTable) (hpw : p.matchesWord w = true) : p.pat &&& 0xFF = w &&& 0xFF := by
    rw [← Row.matchesWord_iff.1 hpw, BitVec.and_assoc, opcodeByte p hp]
  exact distinct r hr q hq ((low hr hrw).trans (low hq hqw).symm)

/-- A word that matches a command's row decodes to that command, its operands read from the word (R64, R65). -/
theorem decode_of_matchesWord {i : Instr} {w : Word} (h : i.row.matchesWord w = true) :
    decode w = .ok (i.operandsFrom w) := by
  have others : ∀ q ∈ opcodeTable, q ≠ i.row → q.matchesWord w = false := fun q hq hne =>
    Bool.eq_false_iff.2 fun hqw => hne (row_eq_of_matchesWord hq (Machine.row_mem_opcodeTable i) hqw h)
  simp only [opcodeTable, List.mem_cons, List.not_mem_nil, or_false, forall_eq_or_imp, forall_eq] at others
  obtain ⟨enc, dec, hmac, trunc, hotp, tstep⟩ := others
  cases i with
  | b32enc n => exact if_pos h
  | b32dec m d => rw [decode, enc (show rowB32enc ≠ rowB32dec by decide)]; exact if_pos h
  | hmac f =>
    rw [decode, enc (show rowB32enc ≠ rowHmac by decide), dec (show rowB32dec ≠ rowHmac by decide)]
    exact if_pos h
  | trunc => rw [decode, enc (by decide), dec (by decide), hmac (by decide)]; exact if_pos h
  | hotp => rw [decode, enc (by decide), dec (by decide), hmac (by decide), trunc (by decide)]; exact if_pos h
  | tstep c =>
    rw [decode, enc (show rowB32enc ≠ rowTstep by decide), dec (show rowB32dec ≠ rowTstep by decide),
      hmac (show rowHmac ≠ rowTstep by decide), trunc (show rowTrunc ≠ rowTstep by decide),
      hotp (show rowHotp ≠ rowTstep by decide)]
    exact if_pos h

/-- The decoder in one line: the command's row matches, and the operands are the word's fields (R64, R65, R73). -/
theorem decode_eq_ok_iff {w : Word} {i : Instr} :
    decode w = .ok i ↔ i.row.matchesWord w = true ∧ i.operandsFrom w = i := by
  constructor
  · intro h
    have hm := matchesWord_of_decode h
    exact ⟨hm, Except.ok.inj ((decode_of_matchesWord hm).symm.trans h)⟩
  · rintro ⟨hm, ho⟩
    rw [decode_of_matchesWord hm, ho]

/-! ### From a command to its word and back -/

/-- The word of a well-formed command matches its row (R74). -/
theorem matchesWord_encode {i : Instr} (h : i.wellFormed = true) : i.row.matchesWord (encode i) = true := by
  cases i with
  | b32enc n => exact Laws.EncodesItsRow.b32enc n h
  | b32dec mode dest => exact Laws.EncodesItsRow.b32dec mode dest h
  | hmac form => exact Laws.EncodesItsRow.hmac form h
  | trunc => exact Laws.EncodesItsRow.trunc h
  | hotp => exact Laws.EncodesItsRow.hotp h
  | tstep source => exact Laws.EncodesItsRow.tstep source h

/-- The N field of B32ENC's word is N (R67). -/
theorem nField_encode {n : Nat} (h : n < 256) : nField (encode (.b32enc n)) = n := by
  have hb : (encode (.b32enc n)).extractLsb' 8 8 = BitVec.ofNat 8 n := by
    apply BitVec.eq_of_getLsbD_eq
    intro k hk
    simp only [encode, BitVec.getLsbD_extractLsb', BitVec.getLsbD_or, BitVec.getLsbD_shiftLeft, BitVec.getLsbD_ofNat]
    simp [hk, show 8 + k < 32 by omega, show k < 32 by omega]
  rw [nField, hb, BitVec.toNat_ofNat, Nat.mod_eq_of_lt h]

/-- The fields of a well-formed command's word are the command's operands (R63, R74). -/
theorem operandsFrom_encode {i : Instr} (h : i.wellFormed = true) : i.operandsFrom (encode i) = i := by
  cases i with
  | b32enc n => rw [Instr.operandsFrom, nField_encode (of_decide_eq_true h)]
  | b32dec mode dest => cases mode <;> cases dest <;> decide
  | hmac form => cases form <;> decide
  | trunc => rfl
  | hotp => rfl
  | tstep source => cases source <;> decide

/-- Settles O2: the command's word matches the command's row, and its fields are the operands. -/
theorem decodeOfEncodeIsTheCommand : Obligations.DecodeOfEncodeIsTheCommand :=
  fun _ h => decode_eq_ok_iff.2 ⟨matchesWord_encode h, operandsFrom_encode h⟩

/-! ### From a word to its command and back -/

/-- A bit put back in its place is that bit of the word. -/
theorem shiftLeft_bit (w : Word) (k : Nat) :
    (if w.getLsbD k then (1 : Word) else 0) <<< k = w &&& BitVec.twoPow 32 k := by
  rw [BitVec.and_twoPow]
  split
  · exact (BitVec.twoPow_eq 32 k).symm
  · exact BitVec.zero_shiftLeft k

theorem nField_shiftLeft (w : Word) : BitVec.ofNat 32 (nField w) <<< 8 = w &&& ~~~rowB32enc.mask := by
  have hmask : ~~~rowB32enc.mask = (BitVec.allOnes 8).setWidth 32 <<< 8 := by decide
  rw [nField, hmask]
  apply BitVec.eq_of_getLsbD_eq
  intro k hk
  simp only [BitVec.ofNat_toNat, BitVec.getLsbD_and, BitVec.getLsbD_shiftLeft, BitVec.getLsbD_setWidth,
    BitVec.getLsbD_extractLsb', BitVec.getLsbD_allOnes]
  by_cases h8 : k < 8
  · simp [h8]
  · simp [h8, hk, show k - 8 < 32 by omega, Nat.add_sub_cancel' (Nat.le_of_not_lt h8), Bool.and_comm]

theorem uField_shiftLeft (w : Word) : (uField w).bit <<< 16 = w &&& BitVec.twoPow 32 16 := by
  rw [← shiftLeft_bit, uField, apply_ite DecodeMode.bit]
  rfl

theorem dField_shiftLeft (w : Word) : (dField w).bit <<< 17 = w &&& BitVec.twoPow 32 17 := by
  rw [← shiftLeft_bit, dField, apply_ite Dest.bit]
  rfl

theorem xField_shiftLeft (w : Word) : (xField w).bit <<< 18 = w &&& BitVec.twoPow 32 18 := by
  rw [← shiftLeft_bit, xField, apply_ite HmacForm.bit]
  rfl

theorem wField_shiftLeft (w : Word) : (wField w).bit <<< 19 = w &&& BitVec.twoPow 32 19 := by
  rw [← shiftLeft_bit, wField, apply_ite TimeSource.bit]
  rfl

/-- Encoding writes the row's pattern and, outside the row's mask, the word's own bits (R63, R74). -/
theorem encode_operandsFrom (i : Instr) (w : Word) :
    encode (i.operandsFrom w) = i.row.pat ||| (w &&& ~~~i.row.mask) := by
  cases i with
  | b32enc n => exact congrArg (1 ||| ·) (nField_shiftLeft w)
  | b32dec mode dest =>
    have hmask : ~~~rowB32dec.mask = BitVec.twoPow 32 16 ||| BitVec.twoPow 32 17 := by decide
    simp only [Instr.operandsFrom, Instr.row, encode, uField_shiftLeft, dField_shiftLeft, hmask, BitVec.or_assoc,
      BitVec.and_or_distrib_left]
    rfl
  | hmac form =>
    have hmask : ~~~rowHmac.mask = BitVec.twoPow 32 18 := by decide
    simp only [Instr.operandsFrom, Instr.row, encode, xField_shiftLeft, hmask]
    rfl
  | trunc => exact (congrArg (4 ||| ·) BitVec.and_zero).symm
  | hotp => exact (congrArg (5 ||| ·) BitVec.and_zero).symm
  | tstep source =>
    have hmask : ~~~rowTstep.mask = BitVec.twoPow 32 19 := by decide
    simp only [Instr.operandsFrom, Instr.row, encode, wField_shiftLeft, hmask]
    rfl

/-- A word that matches a row is the row's pattern with the word's bits outside the mask. -/
theorem Row.pat_or_of_matchesWord {r : Row} {w : Word} (h : r.matchesWord w = true) :
    r.pat ||| (w &&& ~~~r.mask) = w := by
  rw [← Row.matchesWord_iff.1 h, ← BitVec.and_or_distrib_left, BitVec.or_not_self, BitVec.and_allOnes]

/-- Operands read from a word are inside their fields (R67). -/
theorem wellFormed_operandsFrom (i : Instr) (w : Word) : (i.operandsFrom w).wellFormed = true := by
  cases i with
  | b32enc n => exact decide_eq_true (BitVec.isLt _)
  | _ => rfl

theorem wellFormed_of_decode {w : Word} {i : Instr} (h : decode w = .ok i) : i.wellFormed = true :=
  (decode_eq_ok_iff.1 h).2 ▸ wellFormed_operandsFrom i w

theorem encode_of_decode {w : Word} {i : Instr} (h : decode w = .ok i) : encode i = w := by
  obtain ⟨hm, ho⟩ := decode_eq_ok_iff.1 h
  rw [← ho, encode_operandsFrom, Row.pat_or_of_matchesWord hm]

/-- Settles O3: the row fixes the bits under its mask, and the fields are all the others. -/
theorem encodeOfDecodeIsTheWord : Obligations.EncodeOfDecodeIsTheWord :=
  fun _ _ h => ⟨wellFormed_of_decode h, encode_of_decode h⟩

/-! ### The opcode map -/

/-- A word decodes exactly when it matches a row (R65, R73). -/
theorem decode_ok_iff {w : Word} : (∃ i, decode w = .ok i) ↔ ∃ r ∈ opcodeTable, w &&& r.mask = r.pat := by
  constructor
  · rintro ⟨i, hi⟩
    exact ⟨i.row, Machine.row_mem_opcodeTable i, Row.matchesWord_iff.1 (matchesWord_of_decode hi)⟩
  · rintro ⟨r, hr, hw⟩
    cases hd : decode w with
    | ok i => exact ⟨i, rfl⟩
    | error e => exact absurd hw (Machine.decode_error_iff.1 ⟨e, hd⟩ r hr)

theorem nField_eq (w : Word) : nField w = w.toNat / 2 ^ 8 % 2 ^ 8 := by
  rw [nField, BitVec.extractLsb'_toNat, Nat.shiftRight_eq_div_pow]

theorem getLsbD_iff (w : Word) (k : Nat) : w.getLsbD k = true ↔ w.toNat / 2 ^ k % 2 = 1 := by
  rw [BitVec.getLsbD, Nat.testBit_eq_decide_div_mod_eq, decide_eq_true_iff]

theorem uField_eq_user_iff (w : Word) : uField w = .user ↔ w.toNat / 2 ^ 16 % 2 = 1 := by
  rw [← getLsbD_iff, uField]
  exact Ne.ite_eq_left_iff nofun

theorem dField_eq_key_iff (w : Word) : dField w = .key ↔ w.toNat / 2 ^ 17 % 2 = 1 := by
  rw [← getLsbD_iff, dField]
  exact Ne.ite_eq_left_iff nofun

theorem xField_eq_hex_iff (w : Word) : xField w = .hex ↔ w.toNat / 2 ^ 18 % 2 = 1 := by
  rw [← getLsbD_iff, xField]
  exact Ne.ite_eq_left_iff nofun

theorem wField_eq_now_iff (w : Word) : wField w = .now ↔ w.toNat / 2 ^ 19 % 2 = 1 := by
  rw [← getLsbD_iff, wField]
  exact Ne.ite_eq_left_iff nofun

/-- Settles O4: `decode_eq_ok_iff` gives each operand as its field, and the opcode byte tells the rows apart. -/
theorem decodeFollowsTheOpcodeMap : Obligations.DecodeFollowsTheOpcodeMap := by
  intro w
  refine ⟨fun r hr q hq hrw hqw => ?_, decode_ok_iff, fun i hi => Row.matchesWord_iff.1 (matchesWord_of_decode hi),
    fun n hn => ?_, fun m d h => ?_, fun f h => ?_, fun c h => ?_⟩
  · exact row_eq_of_matchesWord hr hq (Row.matchesWord_iff.2 hrw) (Row.matchesWord_iff.2 hqw)
  · obtain ⟨-, ho⟩ := decode_eq_ok_iff.1 hn
    rw [← nField_eq]
    exact (Instr.b32enc.inj ho).symm
  · obtain ⟨-, ho⟩ := decode_eq_ok_iff.1 h
    obtain ⟨rfl, rfl⟩ := Instr.b32dec.inj ho
    exact ⟨uField_eq_user_iff w, dField_eq_key_iff w⟩
  · obtain ⟨-, ho⟩ := decode_eq_ok_iff.1 h
    obtain rfl := Instr.hmac.inj ho
    exact xField_eq_hex_iff w
  · obtain ⟨-, ho⟩ := decode_eq_ok_iff.1 h
    obtain rfl := Instr.tstep.inj ho
    exact wField_eq_now_iff w

/-! ### The legal words -/

/-- The well-formed commands: 256 of B32ENC and 10 others (R66). -/
def legalCommands : List Instr :=
  (List.range 256).map .b32enc ++
    [.b32dec .strict .out, .b32dec .strict .key, .b32dec .user .out, .b32dec .user .key, .hmac .raw, .hmac .hex, .trunc,
      .hotp, .tstep .ts, .tstep .now]

theorem mem_legalCommands {i : Instr} : i ∈ legalCommands ↔ i.wellFormed = true := by
  cases i with
  | b32enc n => simp [legalCommands, Instr.wellFormed]
  | b32dec mode dest => cases mode <;> cases dest <;> simp [legalCommands, Instr.wellFormed]
  | hmac form => cases form <;> simp [legalCommands, Instr.wellFormed]
  | trunc => simp [legalCommands, Instr.wellFormed]
  | hotp => simp [legalCommands, Instr.wellFormed]
  | tstep source => cases source <;> simp [legalCommands, Instr.wellFormed]

theorem legalCommands_nodup : legalCommands.Nodup := by
  refine List.Nodup.append (List.nodup_range.map fun _ _ => Instr.b32enc.inj) (by decide) fun i hi => ?_
  obtain ⟨n, -, rfl⟩ := List.mem_map.1 hi
  simp

/-- Two well-formed commands with one word are one command. -/
theorem encode_injOn {i j : Instr} (hi : i.wellFormed = true) (hj : j.wellFormed = true) (h : encode i = encode j) :
    i = j :=
  Except.ok.inj ((decodeOfEncodeIsTheCommand i hi).symm.trans (h ▸ decodeOfEncodeIsTheCommand j hj))

/-- Settles O5: the legal words are those of the 266 well-formed commands, one each. -/
theorem legalWordsAreTwoHundredSixtySix : Obligations.LegalWordsAreTwoHundredSixtySix := by
  refine ⟨legalCommands.map encode, ?_, ?_, fun w => ?_⟩
  · exact legalCommands_nodup.map_on fun i hi j hj => encode_injOn (mem_legalCommands.1 hi) (mem_legalCommands.1 hj)
  · simp [legalCommands]
  · rw [List.mem_map]
    constructor
    · rintro ⟨i, hi, rfl⟩
      exact ⟨i, decodeOfEncodeIsTheCommand i (mem_legalCommands.1 hi)⟩
    · rintro ⟨i, hi⟩
      exact ⟨i, mem_legalCommands.2 (wellFormed_of_decode hi), encode_of_decode hi⟩

/-- Settles O1: each word matches its row with the operands of its fields, or no row; both are closed facts. -/
theorem exampleWordsDecode : Obligations.ExampleWordsDecode := by
  unfold Obligations.ExampleWordsDecode
  decide

end Sys2Proof
end

section
/-! PROOFS, of the statements about the block's invariant: it holds at reset, each update of the state keeps it, and with
them every step. -/

namespace Sys2Proof.Machine

/-! ### What the invariant speaks of -/

/-- The fields the invariant speaks of. -/
def State.invFields (s : State) :=
  (s.mem, s.pending, s.cmd, s.done, s.err, s.outLen, s.digLen, s.code, s.truncBin)

/-- The invariant is a property of its fields alone. -/
theorem State.Inv.congr {s t : State} (h : s.Inv) (hf : t.invFields = s.invFields) : t.Inv := by
  simp only [State.invFields, Prod.mk.injEq] at hf
  obtain ⟨hmem, hpending, hcmd, hdone, herr, hout, hdig, hcode, hbin⟩ := hf
  refine ⟨hmem ▸ h.memWf, hmem ▸ h.memInBuffers, ?_, hout ▸ h.outLenBound, hdig ▸ h.digLenValue, ?_, ?_, ?_⟩
  · rw [hpending, hcmd, hdone, herr]
    exact h.pendingWord
  · rw [hcode, hbin]
    exact h.codeOfBin
  · rw [hout, State.written, hmem]
    exact h.outWritten
  · rw [hdig, State.written, hmem]
    exact h.digWritten

/-! ### Memory -/

/-- A store leaves every written byte written. -/
theorem isSome_get_setRun {m : Memory} {x : Nat} (a : Nat) (bs : List Byte) (h : (Memory.get m x).isSome = true) :
    (Memory.get (Memory.setRun m a bs) x).isSome = true := by
  rw [Memory.get_setRun]
  split
  · rw [List.getElem?_eq_getElem (by omega), Option.isSome_some]
  · exact h

/-- The bytes a buffer write stores are written. -/
theorem written_setRun_base (b : Buffer) (bs : List Byte) {s : State} (h : s.mem = Memory.setRun m b.base bs) :
    s.written b bs.length := fun i hi => by
  rw [h, Memory.get_setRun_inside _ _ i bs hi, Option.isSome_some]

theorem State.Inv.setRun {s : State} (h : s.Inv) {b : Buffer} {a : Nat} {bs : List Byte}
    (hb : ∀ i, i < bs.length → b.holds (a + i) = true) :
    ({ s with mem := Memory.setRun s.mem a bs } : State).Inv :=
  { h with
    memWf := Memory.wf_setRun _ _ _ h.memWf
    memInBuffers := Memory.inBuffers_setRun _ _ _ b hb h.memInBuffers
    outWritten := fun i hi => isSome_get_setRun a bs (h.outWritten i hi)
    digWritten := fun i hi => isSome_get_setRun a bs (h.digWritten i hi) }

theorem State.Inv.writeBuffer {s : State} (h : s.Inv) {b : Buffer} {bs : List Byte} (hl : bs.length ≤ b.cap) :
    (s.writeBuffer b bs).Inv :=
  h.setRun (b := b) fun i hi => (b.holds_iff _).2 ⟨Nat.le_add_right .., by omega⟩

/-! ### The results of the commands -/

/-- A length that a 16-bit field holds is its number. -/
theorem lengthField_toNat {n : Nat} (h : n ≤ 512) : (BitVec.ofNat 16 n).toNat = n := by
  rw [BitVec.toNat_ofNat, Nat.mod_eq_of_lt (by omega)]

theorem State.Inv.storeOut {s : State} (h : s.Inv) {bs : List Byte} (hl : bs.length ≤ 512) : (s.storeOut bs).Inv := by
  have hlen : (s.storeOut bs).outLen.toNat = bs.length := lengthField_toNat hl
  exact { h.writeBuffer (b := .out) hl with
    outLenBound := hlen.trans_le hl
    outWritten := hlen ▸ written_setRun_base .out bs rfl }

theorem State.Inv.storeKey {s : State} (h : s.Inv) {bs : List Byte} (hl : bs.length ≤ 256) : (s.storeKey bs).Inv :=
  (h.writeBuffer (b := .key) hl).congr rfl

theorem State.Inv.storeDigest {s : State} (h : s.Inv) {d : List Byte} (hl : d.length = 20) : (s.storeDigest d).Inv := by
  have hlen : (s.storeDigest d).digLen.toNat = d.length := lengthField_toNat (by omega)
  have hcap : d.length ≤ Buffer.dig.cap := by rw [hl]; decide
  exact { h.writeBuffer hcap with
    digLenValue := Or.inr (hlen.trans hl)
    digWritten := hlen ▸ written_setRun_base .dig d rfl }

theorem State.Inv.storeDecoded {s : State} (h : s.Inv) {dest : Dest} {bs : List Byte} (hl : bs.length ≤ destCap dest) :
    (s.storeDecoded dest bs).Inv := by
  cases dest with
  | out => exact h.storeOut hl
  | key => exact h.storeKey hl

theorem State.Inv.storeHex {s : State} (h : s.Inv) (form : HmacForm) {d : List Byte} (hl : d.length = 20) :
    (s.storeHex form d).Inv := by
  cases form with
  | raw => exact h
  | hex => exact h.storeOut (by rw [hexBytes_length]; omega)

theorem State.Inv.storeTruncation {s : State} (h : s.Inv) {r : Truncation}
    (hr : r.code.toNat = r.bin.toNat % Config.codeModulus) : (s.storeTruncation r).Inv :=
  { h with codeOfBin := hr }

/-- A completion leaves nothing pending. -/
theorem State.Inv.finish {s : State} (h : s.Inv) (c : ErrCode) : (s.finish c).Inv :=
  { h with pendingWord := nofun }

/-! ### Commands -/

/-- Every command keeps the invariant: its updates do, each with what it stores. -/
theorem exec_keeps_inv {i : Instr} {s t : State} (h : s.Inv) (ht : exec i s = .next t) : t.Inv := by
  cases i with
  | b32enc n =>
    obtain ⟨-, he⟩ | ⟨hn, he⟩ := execB32enc_cases n s <;> obtain rfl := Host.Outcome.next.inj (he.symm.trans ht)
    · exact h.finish _
    · have hrng : (s.afterRng (encLength n)).Inv := h.congr rfl
      have hl : ((s.rngValues (encLength n)).map encSymbol).length ≤ 512 := by
        rw [List.length_map, rngValues_length]
        exact hn
      exact (hrng.storeOut hl).finish _
  | b32dec mode dest =>
    have htext : s.afterText.Inv := h.congr rfl
    obtain ⟨-, he⟩ | ⟨-, ⟨-, he⟩ | ⟨bs, -, ⟨-, he⟩ | ⟨hl, he⟩⟩⟩ := execB32dec_cases mode dest s <;>
      obtain rfl := Host.Outcome.next.inj (he.symm.trans ht)
    · exact h.finish _
    · exact htext.finish _
    · exact htext.finish _
    · exact (htext.storeDecoded hl).finish _
  | hmac form =>
    obtain ⟨-, he⟩ | ⟨-, -, he⟩ := execHmac_cases form s <;> obtain rfl := Host.Outcome.next.inj (he.symm.trans ht)
    · exact h.finish _
    · have hread : s.afterKey.afterMsg.Inv := h.congr rfl
      exact ((hread.storeDigest (hmacDigest_length s)).storeHex form (hmacDigest_length s)).finish _
  | trunc =>
    obtain ⟨-, he⟩ | ⟨-, he⟩ := execTrunc_cases s <;> obtain rfl := Host.Outcome.next.inj (he.symm.trans ht)
    · exact h.finish _
    · have hread : s.afterDigest.Inv := h.congr (by simp [State.invFields])
      exact (hread.storeTruncation (truncate_code_mod _)).finish _
  | hotp =>
    obtain ⟨-, he⟩ | ⟨-, he⟩ := execHotp_cases s <;> obtain rfl := Host.Outcome.next.inj (he.symm.trans ht)
    · exact h.finish _
    · have hread : s.afterKey.Inv := h.congr rfl
      exact ((hread.storeDigest (hotpDigest_length s)).storeTruncation (truncate_code_mod _)).finish _
  | tstep source =>
    obtain rfl := Host.Outcome.next.inj ((exec_tstep source s).symm.trans ht)
    have hset : ((s.sampleClock source).setCounter (counterOf (s.sampleClock source).timestamp)).Inv :=
      h.congr (by cases source <;> rfl)
    exact hset.finish _

theorem engineTurn_keeps_inv {s t : State} (h : s.Inv) (ht : engineTurn s = .next t) : t.Inv := by
  obtain ⟨-, he⟩ | ⟨w, -, ⟨i, -, he⟩ | ⟨e, -, he⟩⟩ := engineTurn_cases s
  · obtain rfl := Host.Outcome.next.inj (he.symm.trans ht)
    exact h
  · exact exec_keeps_inv h (he.symm.trans ht)
  · obtain rfl := Host.Outcome.next.inj (he.symm.trans ht)
    exact h.finish _

/-! ### Host accesses -/

theorem load_keeps_inv {s : State} (h : s.Inv) (off : Nat) : (s.load off).Inv := by
  rw [load_frame]
  exact h.congr rfl

/-- A register write keeps the invariant: an acceptance makes the pending word CMD's, and STATUS clears DONE only. -/
theorem writeReg_keeps_inv {s : State} (h : s.Inv) (r : Reg) (v : Word) : (s.writeReg r v).Inv := by
  cases r with
  | cmd => exact { h with pendingWord := fun w hw => ⟨Option.some.inj hw, rfl, rfl⟩ }
  | status =>
    refine { h with pendingWord := fun w hw => ?_ }
    obtain ⟨hcmd, hdone, herr⟩ := h.pendingWord w hw
    exact ⟨hcmd, (congrArg (· && _) hdone).trans (Bool.false_and _), herr⟩
  | _ => exact h.congr rfl

/-- A write of an aligned buffer word stores inside the buffer (R51, R52). -/
theorem writeWord_keeps_inv {s : State} (h : s.Inv) {off i : Nat} {b : Buffer} (ht : targetAt off = .word b i)
    (ha : off % 4 = 0) (v : Word) : (s.writeWord b i v).Inv := by
  have hin : ({ s with mem := Memory.setRun s.mem (b.base + i) (laneBytes v) } : State).Inv :=
    h.setRun (b := b) fun k hk => holds_word ht ha k hk
  cases b with
  | txt | key | msg => exact hin
  | out | dig => exact h

theorem store_keeps_inv {s : State} (h : s.Inv) {off : Nat} (ha : off % 4 = 0) (v : Word) : (s.store off v).Inv := by
  have hw : (s.writeTarget (targetAt off) v).Inv := by
    obtain ⟨-, -, he⟩ | ⟨-, ⟨r, -, he⟩ | ⟨b, i, hb, he⟩ | ⟨-, he⟩⟩ := writeTarget_cases (targetAt off) v s <;> rw [he]
    · exact h.congr rfl
    · exact writeReg_keeps_inv h r v
    · exact writeWord_keeps_inv h hb ha v
    · exact h
  exact hw.congr rfl

/-- A supported access is aligned (R48). -/
theorem aligned_of_supported {a : Access} {off : Nat} (h : a.supported off = true) : off % 4 = 0 := by
  rw [Access.supported, Bool.and_eq_true, beq_iff_eq, beq_iff_eq] at h
  exact h.2

theorem hostAccess_keeps_inv {a : Access} {s t : State} (h : s.Inv) (ht : hostAccess a s = .next t) : t.Inv := by
  obtain ⟨off, -, ⟨-, -, rfl⟩ | ⟨hs, v, -, rfl⟩ | ⟨-, rfl⟩⟩ := hostAccess_cases ht
  · exact load_keeps_inv h off
  · exact store_keeps_inv h (aligned_of_supported hs) v
  · exact h.congr rfl

/-! ### The step -/

/-- Settles O48: at reset no byte is written, nothing is pending and every length is 0. -/
theorem resetMeetsTheInvariant : Obligations.ResetMeetsTheInvariant where
  memWf := rfl
  memInBuffers := rfl
  pendingWord := nofun
  outLenBound := Nat.zero_le _
  digLenValue := Or.inl rfl
  codeOfBin := rfl
  outWritten := fun i hi => absurd hi (Nat.not_lt_zero i)
  digWritten := fun i hi => absurd hi (Nat.not_lt_zero i)

theorem runEvent_keeps_inv {e : Event} {s t : State} (h : s.Inv) (ht : runEvent e s = .next t) : t.Inv := by
  cases e with
  | hostAccess a => exact hostAccess_keeps_inv h ht
  | engineTurn => exact engineTurn_keeps_inv h ht
  | resetInput =>
    obtain rfl : s.resetInput = t := Host.Outcome.next.inj ht
    exact State.Inv.congr resetMeetsTheInvariant rfl

/-- Settles O49: each event keeps the invariant, and taking an event off the schedule leaves its fields. -/
theorem stepKeepsTheInvariant : Obligations.StepKeepsTheInvariant := by
  intro s t h ht
  obtain ⟨-, ⟨-, he⟩ | ⟨e, es, -, he⟩⟩ := step_cases ht
  · exact engineTurn_keeps_inv h he
  · exact runEvent_keeps_inv (s := { s with schedule := es }) (h.congr rfl) he

end Sys2Proof.Machine
end

section
/-! PROOFS, of the statements of 40_base32_encoder.md and 41_base32_decoder.md: what B32ENC and B32DEC write, their errors,
and the round trip of an encoded text. -/

namespace Sys2Proof.Machine

/-! ### B32ENC -/

/-- The characters B32ENC writes: one symbol for each of the next RNG values (R78, R80). -/
def State.encodedText (n : Nat) (s : State) : List Byte := (s.rngValues (encLength n)).map encSymbol

theorem encodedText_length (n : Nat) (s : State) : (s.encodedText n).length = encLength n := by
  rw [State.encodedText, List.length_map, rngValues_length]

theorem encodedText_getElem? {n i : Nat} (h : i < encLength n) (s : State) :
    (s.encodedText n)[i]? = some (encSymbol (s.rngValue i)) := by
  simp [State.encodedText, State.rngValues, List.getElem?_range h]

/-- A byte of a string just stored reads as that byte. -/
theorem get_setRun_getElem? (m : Memory) (a : Nat) {i : Nat} {bs : List Byte} (h : i < bs.length) :
    Memory.get (Memory.setRun m a bs) (a + i) = bs[i]? := by
  rw [Memory.get_setRun_inside m a i bs h, List.getElem?_eq_getElem h]

/-- B32ENC of an output that fits OUT (R78). -/
theorem exec_b32enc {n : Nat} (h : encLength n ≤ 512) (s : State) :
    exec (.b32enc n) s = .next (((s.afterRng (encLength n)).storeOut (s.encodedText n)).finish .ok) := by
  obtain ⟨long, -⟩ | ⟨-, he⟩ := execB32enc_cases n s
  · exact absurd h long.not_ge
  · exact he

theorem exec_b32enc_of_long {n : Nat} (h : 512 < encLength n) (s : State) :
    exec (.b32enc n) s = .next (s.finish .length) := by
  obtain ⟨-, he⟩ | ⟨short, -⟩ := execB32enc_cases n s
  · exact he
  · exact absurd h short.not_gt

/-- Settles O15: OUT holds the encoded text, one RNG value a character. -/
theorem b32encWritesOneSymbolPerRequest : Obligations.B32encWritesOneSymbolPerRequest := by
  refine ⟨fun n hn => ?_, fun n s => ⟨fun hl => ?_, fun hl => exec_b32enc_of_long hl s⟩⟩
  · have : n < 256 := of_decide_eq_true hn
    omega
  · have hlen := encodedText_length n s
    refine ⟨_, exec_b32enc hl s, ?_, fun i hi => ⟨?_, encSymbol_ne_pad _⟩, fun a ha => ?_, rfl⟩
    · exact (congrArg (fun l => (BitVec.ofNat 16 l).toNat) hlen).trans (lengthField_toNat hl)
    · exact (get_setRun_getElem? _ _ (hlen ▸ hi)).trans (encodedText_getElem? hi s)
    · exact Memory.get_setRun_outside _ _ _ _ (by rw [hlen]; exact ha)

/-! ### The decode -/

/-- Settles O19: both halves are the laws of the decoder's loop. -/
theorem decoderComputesTheBitString : Obligations.DecoderComputesTheBitString :=
  fun _ _ => ⟨decodeText_eq_none, fun _ => decodeText_eq_some⟩

/-- Encoded symbols are processed as they stand in either mode: none is whitespace, remapped or padding (R81, R84). -/
theorem processed_encSymbols (mode : DecodeMode) (vs : List (BitVec 5)) :
    processed mode (vs.map encSymbol) = vs.map encSymbol := by
  have hprep : prepare mode (vs.map encSymbol) = vs.map encSymbol := by
    cases mode with
    | strict => rfl
    | user => exact userPrep_encSymbols vs
  rw [processed, hprep, List.takeWhile_eq_self_iff]
  intro c hc
  obtain ⟨v, -, rfl⟩ := List.mem_map.1 hc
  exact bne_iff_ne.2 (encSymbol_ne_pad v)

/-- A text of encoded symbols decodes in either mode to the symbols' bits (R82). -/
theorem decodeText_encSymbols (mode : DecodeMode) (vs : List (BitVec 5)) :
    ∃ bs, decodeText mode (vs.map encSymbol) = some bs ∧ bs.length = 5 * vs.length / 8 ∧
      bytesNumber bs = symbolsNumber (vs.map BitVec.toNat) / 2 ^ (5 * vs.length % 8) := by
  have hsym : (processed mode (vs.map encSymbol)).map symbolValue = (vs.map BitVec.toNat).map some := by
    rw [processed_encSymbols, List.map_map, List.map_map]
    exact List.map_congr_left fun v _ => symbolValue_encSymbol v
  simpa only [List.length_map] using decodeText_eq_some hsym

/-! ### B32DEC -/

/-- TXT's capacity bounds what it decodes to (R91). -/
theorem decodeText_length_le_160 {mode : DecodeMode} {s : State} {bs : List Byte} (ht : s.txtLen.toNat ≤ 256)
    (h : decodeText mode s.textBytes = some bs) : bs.length ≤ 160 := by
  have := decodeText_length_le h
  rw [textBytes_length] at this
  omega

/-- B32DEC of a text that decodes: the bytes always fit the destination (R89, R92). -/
theorem exec_b32dec {mode : DecodeMode} {s : State} {bs : List Byte} (dest : Dest) (ht : s.txtLen.toNat ≤ 256)
    (h : decodeText mode s.textBytes = some bs) :
    exec (.b32dec mode dest) s = .next ((s.afterText.storeDecoded dest bs).finish .ok) := by
  obtain ⟨long, -⟩ | ⟨-, ⟨hn, -⟩ | ⟨bs', hd, ⟨hl, -⟩ | ⟨-, he⟩⟩⟩ := execB32dec_cases mode dest s
  · exact absurd ht long.not_ge
  · exact nomatch hn.symm.trans h
  · exact absurd (decodeText_length_le_destCap dest ht hd) hl.not_ge
  · obtain rfl : bs' = bs := Option.some.inj (hd.symm.trans h)
    exact he

theorem exec_b32dec_of_long {s : State} (mode : DecodeMode) (dest : Dest) (ht : 256 < s.txtLen.toNat) :
    exec (.b32dec mode dest) s = .next (s.finish .length) := by
  obtain ⟨-, he⟩ | ⟨short, -⟩ := execB32dec_cases mode dest s
  · exact he
  · exact absurd ht short.not_gt

theorem exec_b32dec_of_invalid {mode : DecodeMode} {s : State} (dest : Dest) (ht : s.txtLen.toNat ≤ 256)
    (h : decodeText mode s.textBytes = none) :
    exec (.b32dec mode dest) s = .next (s.afterText.finish .decode) := by
  obtain ⟨long, -⟩ | ⟨-, ⟨-, he⟩ | ⟨bs, hd, -⟩⟩ := execB32dec_cases mode dest s
  · exact absurd ht long.not_ge
  · exact he
  · exact nomatch h.symm.trans hd

theorem storeDecoded_mem (dest : Dest) (bs : List Byte) (s : State) :
    (s.storeDecoded dest bs).mem = Memory.setRun s.mem (destBase dest) bs := by
  cases dest <;> rfl

theorem finish_storeDecoded_destLen (dest : Dest) (bs : List Byte) (s : State) (c : ErrCode) :
    ((s.storeDecoded dest bs).finish c).destLen dest = BitVec.ofNat 16 bs.length := by
  cases dest <;> rfl

/-- What B32DEC leaves at its destination: the length, the bytes, and every other byte as it was (R89, R92). -/
theorem storeDecoded_results (dest : Dest) {bs : List Byte} (hl : bs.length ≤ 160) (s : State) :
    (((s.storeDecoded dest bs).finish .ok).destLen dest).toNat = bs.length ∧
      (∀ i, i < bs.length → Memory.get (s.storeDecoded dest bs).mem (destBase dest + i) = bs[i]?) ∧
      ∀ a, a < destBase dest ∨ destBase dest + bs.length ≤ a →
        Memory.get (s.storeDecoded dest bs).mem a = Memory.get s.mem a := by
  rw [finish_storeDecoded_destLen, storeDecoded_mem]
  exact ⟨lengthField_toNat (by omega), fun i hi => get_setRun_getElem? _ _ hi,
    fun a ha => Memory.get_setRun_outside _ _ _ _ ha⟩

/-- Settles O20: `storeDecoded` at the destination, and the read of the text moves only the count of draws. -/
theorem b32decStoresTheDecodedBytes : Obligations.B32decStoresTheDecodedBytes := by
  intro mode dest s bs ht hd
  have hl := decodeText_length_le_160 ht hd
  obtain ⟨hlen, hin, hout⟩ := storeDecoded_results dest hl s.afterText
  refine ⟨hl, _, exec_b32dec dest ht hd, hlen, hin, hout, ?_, ?_⟩
  · rintro rfl
    rfl
  · rintro rfl
    rfl

/-- Settles O21: E_LENGTH before the text is read, E_DECODE after, both with `finish` alone. -/
theorem b32decErrorsLeaveTheDestination : Obligations.B32decErrorsLeaveTheDestination :=
  fun mode dest _ => ⟨exec_b32dec_of_long mode dest, fun ht hd => ⟨_, exec_b32dec_of_invalid dest ht hd, rfl⟩⟩

/-! ### The round trip -/

/-- The text copied to TXT is what a decode reads there (R23). -/
theorem textBytes_eq {u : State} {text : List Byte} (hl : u.txtLen.toNat = text.length)
    (h : ∀ i, i < text.length → Memory.get u.mem (0x0400 + i) = text[i]?) : u.textBytes = text := by
  rw [State.textBytes, hl]
  exact bytesAt_eq h

/-- The characters of `n` bytes carry `8n` bits and fewer than 5 more (R79, R82). -/
theorem five_mul_encLength (n : Nat) : 5 * encLength n / 8 = n ∧ 5 * encLength n % 8 = 5 * encLength n - 8 * n := by
  rw [encLength]
  omega

/-- Settles O16: the copied text is one of encoded symbols, which either mode decodes to their bits. -/
theorem encodedTextDecodesToNBytes : Obligations.EncodedTextDecodesToNBytes := by
  intro n mode dest s t u hn ht hlen hcopy
  have htext := encodedText_length n s
  have hn' : encLength n ≤ 256 := hn
  obtain rfl := Host.Outcome.next.inj ((exec_b32enc (by omega) s).symm.trans ht)
  have hL : u.txtLen.toNat = (s.encodedText n).length := by
    rw [hlen]
    exact lengthField_toNat (by omega)
  have hu : u.textBytes = s.encodedText n := textBytes_eq hL fun i hi => by
    rw [hcopy i (by rwa [← hlen, hL])]
    exact get_setRun_getElem? _ _ hi
  obtain ⟨bs, hd, hbl, hbn⟩ := decodeText_encSymbols mode (s.rngValues (encLength n))
  obtain ⟨hdiv, hmod⟩ := five_mul_encLength n
  rw [rngValues_length, hdiv] at hbl
  rw [rngValues_length, hmod] at hbn
  obtain ⟨hres, hin, -⟩ := storeDecoded_results dest (bs := bs) (by rw [encLength] at hn'; omega) u.afterText
  refine ⟨_, bs, exec_b32dec dest (by omega) (hu ▸ hd), rfl, hbl, hres.trans hbl, ?_, hbn⟩
  exact hbl ▸ hin

end Sys2Proof.Machine
end

section
/-! PROOFS, of the statements of 42_hmac.md, 43_otp_truncation.md and 44_totp_counter.md: what HMAC, TRUNC and HOTP write,
HOTP as HMAC then TRUNC, and the timestamps of a counter. -/

namespace Sys2Proof.Machine

/-! ### HMAC -/

theorem exec_hmac (form : HmacForm) {s : State} (hk : s.keyLen.toNat ≤ 256) (hm : s.msgLen.toNat ≤ 256) :
    exec (.hmac form) s =
      .next (((s.afterKey.afterMsg.storeDigest (hmacDigest s)).storeHex form (hmacDigest s)).finish .ok) := by
  obtain ⟨long, -⟩ | ⟨-, -, he⟩ := execHmac_cases form s
  · exact absurd long (not_or.2 ⟨hk.not_gt, hm.not_gt⟩)
  · exact he

theorem exec_hmac_of_long (form : HmacForm) {s : State} (h : 256 < s.keyLen.toNat ∨ 256 < s.msgLen.toNat) :
    exec (.hmac form) s = .next (s.finish .length) := by
  obtain ⟨-, he⟩ | ⟨hk, hm, -⟩ := execHmac_cases form s
  · exact he
  · exact absurd h (not_or.2 ⟨hk.not_gt, hm.not_gt⟩)

/-- Outside the 40 bytes of the hex form, and everywhere with X = 0, no byte changes (R96). -/
theorem get_storeHex_outside {form : HmacForm} {d : List Byte} (hd : d.length = 20) (s : State) {a : Nat}
    (ha : form = .raw ∨ a < 0x1000 ∨ 0x1000 + 40 ≤ a) : Memory.get (s.storeHex form d).mem a = Memory.get s.mem a := by
  cases form with
  | raw => rfl
  | hex => exact Memory.get_setRun_outside _ _ _ _ (by rw [hexBytes_length, hd]; exact ha.resolve_left nofun)

/-- The hex form's store leaves DIG_LEN. -/
theorem storeHex_digLen (form : HmacForm) (d : List Byte) (s : State) : (s.storeHex form d).digLen = s.digLen := by
  cases form <;> rfl

/-- Settles O24: DIG takes the digest, OUT its hex form with X = 1, and the two do not overlap. -/
theorem hmacWritesTheDigest : Obligations.HmacWritesTheDigest := by
  intro form s
  refine ⟨fun hk hm => ?_, exec_hmac_of_long form⟩
  have he := exec_hmac form hk hm
  have hd := hmacDigest_length s
  refine ⟨_, hmacDigest s, he, rfl, hd, ?_⟩
  clear he
  generalize hmacDigest s = d at hd ⊢
  refine ⟨?_, fun i hi => ?_, ?_, ?_, fun a hdig hout => ?_, ?_⟩
  · rw [State.finish_digLen, storeHex_digLen, State.storeDigest_digLen, lengthField_toNat (by omega), hd]
  · rw [State.finish_mem, get_storeHex_outside hd _ (.inr (by omega))]
    exact get_setRun_getElem? _ _ (hd ▸ hi)
  · rintro rfl
    have hx : (hexBytes d).length = 40 := by rw [hexBytes_length, hd]
    exact ⟨(lengthField_toNat (by omega)).trans hx, fun i hi => get_setRun_getElem? _ _ (hx ▸ hi)⟩
  · rintro rfl
    rfl
  · rw [State.finish_mem, get_storeHex_outside hd _ hout]
    exact Memory.get_setRun_outside _ _ _ _ (by rwa [hd])
  · cases form <;> apply State.ext <;> simp

/-! ### TRUNC -/

theorem exec_trunc {s : State} (h : 20 ≤ s.digLen.toNat) :
    exec .trunc s = .next ((s.afterDigest.storeTruncation (truncate s.digestBytes)).finish .ok) := by
  obtain ⟨short, -⟩ | ⟨-, he⟩ := execTrunc_cases s
  · exact absurd h short.not_ge
  · exact he

theorem exec_trunc_of_short {s : State} (h : s.digLen.toNat < 20) : exec .trunc s = .next (s.finish .digest) := by
  obtain ⟨-, he⟩ | ⟨long, -⟩ := execTrunc_cases s
  · exact he
  · exact absurd h long.not_gt

/-- Settles O26 (the frame field by field, since `rfl` on whole states would evaluate the read of the
digest): the three registers are the truncation's parts, whose code is below 1000000. -/
theorem truncWritesTheTruncation : Obligations.TruncWritesTheTruncation := by
  refine fun s => ⟨fun h => ?_, exec_trunc_of_short⟩
  have he := exec_trunc h
  have hle := truncate_code_le s.digestBytes
  generalize truncate s.digestBytes = r at he hle ⊢
  refine ⟨_, he, ?_⟩
  generalize ht : (s.afterDigest.storeTruncation r).finish .ok = t
  have hoff : t.truncOff = r.off := ht ▸ rfl
  have hbin : t.truncBin = r.bin := ht ▸ rfl
  have hcode : t.code = r.code := ht ▸ rfl
  refine ⟨hoff, hbin, hcode, hcode ▸ hle, ?_⟩
  apply State.ext <;> simp [← ht]

/-- A read of a written digest makes no draw (R44). -/
theorem afterDigest_of_written {s : State} (h : s.written .dig 20) : s.afterDigest = s := by
  rw [State.afterDigest, afterRead_of_written]
  exact h

/-- The truncation's registers are no part of DIG. -/
theorem digestBytes_finish_storeTruncation (r : Truncation) (s : State) (c : ErrCode) :
    ((s.storeTruncation r).finish c).digestBytes = s.digestBytes := by
  simp [State.digestBytes, State.bytesAt]

/-- Storing a truncation again changes nothing. -/
theorem storeTruncation_again (r : Truncation) (s : State) (c : ErrCode) :
    ((((s.storeTruncation r).finish c).storeTruncation r).finish c) = (s.storeTruncation r).finish c := rfl

/-- Settles O27: TRUNC stands over the same DIG, and its results are stored again. -/
theorem repeatedTruncGivesTheSame : Obligations.RepeatedTruncGivesTheSame := by
  intro s t hl hw ht
  have he := exec_trunc hl
  rw [afterDigest_of_written hw] at he
  generalize hr : truncate s.digestBytes = r at he
  obtain rfl := Host.Outcome.next.inj (he.symm.trans ht)
  have again := exec_trunc (s := (s.storeTruncation r).finish .ok) (by simpa using hl)
  rwa [afterDigest_of_written (by simpa [State.written] using hw), digestBytes_finish_storeTruncation, hr,
    storeTruncation_again] at again

/-! ### HOTP -/

theorem exec_hotp {s : State} (h : s.keyLen.toNat ≤ 256) :
    exec .hotp s =
      .next (((s.afterKey.storeDigest (hotpDigest s)).storeTruncation (truncate (hotpDigest s))).finish .ok) := by
  obtain ⟨long, -⟩ | ⟨-, he⟩ := execHotp_cases s
  · exact absurd h long.not_ge
  · exact he

theorem exec_hotp_of_long {s : State} (h : 256 < s.keyLen.toNat) : exec .hotp s = .next (s.finish .length) := by
  obtain ⟨-, he⟩ | ⟨short, -⟩ := execHotp_cases s
  · exact he
  · exact absurd h short.not_gt

/-- Settles O29: the digest in DIG and its truncation in the registers. -/
theorem hotpWritesTheCode : Obligations.HotpWritesTheCode := by
  refine fun s => ⟨fun h => ?_, exec_hotp_of_long⟩
  have he := exec_hotp h
  have hd := hotpDigest_length s
  refine ⟨_, hotpDigest s, he, rfl, hd, ?_⟩
  clear he
  generalize hotpDigest s = d at hd ⊢
  have hle := truncate_code_le d
  generalize truncate d = r at hle ⊢
  generalize ht : ((s.afterKey.storeDigest d).storeTruncation r).finish .ok = t
  have hlen : t.digLen.toNat = d.length := ht ▸ lengthField_toNat (by omega)
  have hmem : t.mem = Memory.setRun s.mem 0x1400 d := ht ▸ rfl
  have hcode : t.code = r.code := ht ▸ rfl
  refine ⟨hlen.trans hd, fun i hi => ?_, fun a ha => ?_, ht ▸ rfl, ht ▸ rfl, hcode, hcode ▸ hle, ?_⟩
  · rw [hmem, get_setRun_getElem? _ _ (hd ▸ hi)]
  · rw [hmem, Memory.get_setRun_outside _ _ _ _ (by rwa [hd])]
  · apply State.ext <;> simp [← ht]

/-! ### HOTP as HMAC then TRUNC -/

/-- With the counter's bytes in MSG and the key written, HMAC computes HOTP's digest (R101). -/
theorem hmacDigest_eq_hotpDigest {s : State} (hk : s.written .key s.keyLen.toNat) (hl : s.msgLen.toNat = 8)
    (hm : ∀ i, i < 8 → Memory.get s.mem (0x0C00 + i) = (be64 s.counter)[i]?) : hmacDigest s = hotpDigest s := by
  have hread : s.afterKey = s := afterRead_of_written hk
  have hmsg : s.msgBytes = be64 s.counter := by
    rw [State.msgBytes, hl]
    exact bytesAt_eq (bs := be64 s.counter) hm
  rw [hmacDigest, hotpDigest, hread, hmsg]

/-- A digest just stored is what TRUNC reads (R106). -/
theorem digestBytes_storeDigest {d : List Byte} (hd : d.length = 20) (s : State) (c : ErrCode) :
    ((s.storeDigest d).finish c).digestBytes = d := by
  have := Memory.bytes_setRun s.mem Buffer.dig.base s.byteDraws d
  rwa [hd] at this

/-- Settles O31: both ways store the same digest, and TRUNC reads back the one HMAC stored. -/
theorem hotpIsHmacThenTrunc : Obligations.HotpIsHmacThenTrunc := by
  intro s hk hw hl hm
  have hd := hotpDigest_length s
  have hhmac := exec_hmac .raw hk (hl.trans_le (by decide))
  rw [hmacDigest_eq_hotpDigest hw hl hm] at hhmac
  have htrunc := exec_trunc (s := (s.afterKey.afterMsg.storeDigest (hotpDigest s)).finish .ok) (by
    rw [State.finish_digLen, State.storeDigest_digLen, lengthField_toNat (by omega), hd])
  rw [digestBytes_storeDigest hd] at htrunc
  have hhotp := exec_hotp hk
  generalize hotpDigest s = d at hhmac htrunc hhotp
  generalize truncate d = r at htrunc hhotp
  refine ⟨_, _, _, hhmac, htrunc, hhotp, ?_⟩
  simp

/-! ### Timestamps -/

/-- Settles O32: the floor quotient by 30 fits 64 bits, and `c` is it exactly on the 30 seconds from `30 * c` on. -/
theorem timestampBuckets : Obligations.TimestampBuckets := by
  intro t
  have ht := t.isLt
  rw [counterOf_toNat]
  exact ⟨rfl, by omega, by decide, fun c => by omega⟩

end Sys2Proof.Machine
end

section
/-! PROOFS, of the statements of 20_memory.md about reserved and read-only offsets, reads, and the accesses the bus
supports. -/

namespace Sys2Proof.Machine

/-! ### Offsets that nothing is at -/

/-- The reserved offsets, and those above a buffer's capacity inside its window (R43, R46, R52). -/
def ReservedOffset (off : Nat) : Prop :=
  (0x48 ≤ off ∧ off < 0x400) ∨ (0x500 ≤ off ∧ off < 0x800) ∨ (0x900 ≤ off ∧ off < 0xC00) ∨
    (0xD00 ≤ off ∧ off < 0x1000) ∨ (0x1200 ≤ off ∧ off < 0x1400) ∨ (0x1440 ≤ off ∧ off < 0x2000)

theorem targetAt_of_reservedOffset {off : Nat} (h : ReservedOffset off) : targetAt off = .nothing := by
  unfold ReservedOffset at h
  refine targetAt_nothing (by omega) fun b => Bool.eq_false_iff.2 fun hb => ?_
  rw [Buffer.holds_iff] at hb
  have := b.bounds
  omega

/-- Where nothing is, a read gives 0 and draws nothing, whatever BUSY is (R43, R52). -/
theorem loadValue_of_nothing {off : Nat} (h : targetAt off = .nothing) (s : State) : s.loadValue off = 0 := by
  simp [State.loadValue, h, State.readTarget, Target.definedWhileBusy]

theorem load_of_nothing {off : Nat} (h : targetAt off = .nothing) (s : State) : s.load off = s.answered (.data 0) := by
  simp [State.load, h, loadValue_of_nothing h, State.afterReadTarget, Target.definedWhileBusy, State.answered]

/-- Settles O35: such an offset has no target, which reads 0 and ignores writes. -/
theorem reservedOffsetsReadZeroIgnoreWrites : Obligations.ReservedOffsetsReadZeroIgnoreWrites := by
  intro off v s h
  have ht := targetAt_of_reservedOffset h
  exact ⟨loadValue_of_nothing ht s, load_of_nothing ht s, store_of_ignoresWrites (by rw [ht]; rfl) v s⟩

/-- Settles O36: the read-only registers ignore writes, and so does everything from OUT's window on. -/
theorem readOnlyWritesAreIgnored : Obligations.ReadOnlyWritesAreIgnored := by
  intro off v s h
  have registers : ∀ o ∈ [0x018, 0x01C, 0x030, 0x034, 0x038, 0x03C, 0x040, 0x044],
      (targetAt o).ignoresWrites = true := by decide
  refine store_of_ignoresWrites ?_ v s
  rcases h with h | ⟨h, -⟩
  · exact registers off h
  · exact ignoresWrites_targetAt (.inr h)

/-! ### Reads while a command is pending -/

/-- A read that is not defined while a command is pending gives the next free word (R57). -/
theorem loadValue_of_undefinedWhileBusy {off : Nat} {s : State} (hp : s.pending ≠ none)
    (hd : (targetAt off).definedWhileBusy = false) : s.loadValue off = Config.freeWord s.wordDraws := by
  simp [State.loadValue, State.readTarget, busy_of_pending_ne_none hp, hd]

theorem load_of_undefinedWhileBusy {off : Nat} {s : State} (hp : s.pending ≠ none)
    (hd : (targetAt off).definedWhileBusy = false) :
    s.load off = { s with response := some (.data (s.loadValue off)), wordDraws := s.wordDraws + 1 } := by
  simp [State.load, State.afterReadTarget, busy_of_pending_ne_none hp, hd]

/-- Settles O38: the registers and buffer words of R57's list are undefined while BUSY = 1, the others are not. -/
theorem busyReadsAreFreeDraws : Obligations.BusyReadsAreFreeDraws := by
  intro off s hp
  have read (r : Reg) (hd : (Target.reg r).definedWhileBusy = true) : s.loadValue r.offset = s.regWord r :=
    loadValue_of_definedWhileBusy r _ rfl hd s
  refine ⟨fun h => ?_, read .ctrl rfl, read .status rfl, read .param0 rfl, read .param1 rfl, read .param2 rfl,
    fun h => loadValue_of_nothing (targetAt_of_reservedOffset (by unfold ReservedOffset; omega)) s⟩
  have registers : ∀ o ∈ [0x008, 0x00C, 0x010, 0x014, 0x018, 0x01C, 0x020, 0x024, 0x028, 0x02C, 0x030, 0x034, 0x038],
      (targetAt o).definedWhileBusy = false := by decide
  have hd : (targetAt off).definedWhileBusy = false := by
    rcases h with h | ⟨b, hb⟩
    · exact registers off h
    · rw [targetAt_of_holds hb]
      rfl
  exact ⟨loadValue_of_undefinedWhileBusy hp hd, load_of_undefinedWhileBusy hp hd⟩

/-! ### Reads have no side effect -/

/-- A read of an idle block's register, of nothing or of written bytes leaves all but the host's answer (R53). -/
theorem load_eq_answered {off : Nat} {s : State} (hp : s.pending = none)
    (h : off < 0x400 ∨ ∀ k, k < 4 → (Memory.get s.mem (off + k)).isSome = true) :
    s.load off = s.answered (.data (s.loadValue off)) := by
  cases ht : targetAt off with
  | reg r =>
    have ho := targetAt_reg_offset ht
    rw [loadValue_register r off ho.symm hp, load_register r off ho.symm hp]
  | nothing => rw [loadValue_of_nothing ht, load_of_nothing ht]
  | word b i =>
    obtain ⟨hb, rfl⟩ := targetAt_word_holds ht
    rw [Buffer.holds_iff] at hb
    have := b.bounds
    rw [load_word b i (by omega) hp, afterRead_of_written (h.resolve_left (by omega))]

/-- The host's last answer is not read. -/
theorem loadValue_answered (off : Nat) (r : Response) (s : State) : (s.answered r).loadValue off = s.loadValue off := by
  rw [State.loadValue, State.loadValue]
  cases targetAt off with
  | reg q => simp [State.readTarget, State.busy]
  | _ => rfl

/-- Settles O39: a read changes counts of draws only, and none where every byte read is written. -/
theorem readsHaveNoSideEffect : Obligations.ReadsHaveNoSideEffect := by
  refine fun off s => ⟨load_frame off s, fun hp h => ?_⟩
  rw [load_eq_answered hp h, loadValue_answered]

/-! ### Written and unwritten bytes -/

/-- An unwritten byte is read as the free draw after those of the unwritten bytes before it (R44). -/
theorem bytes_getElem?_of_unwritten (m : Memory) (a n k i : Nat) (hi : i < n) (h : Memory.get m (a + i) = none) :
    (Memory.bytes m a n k)[i]? = some (Config.freeByte (k + Memory.unwritten m a i)) := by
  induction n generalizing a k i with
  | zero => omega
  | succ n ih =>
    cases i with
    | zero =>
      rw [Nat.add_zero] at h
      simp [Memory.bytes, Memory.unwritten, h]
    | succ i =>
      have h' : Memory.get m (a + 1 + i) = none := by rwa [show a + 1 + i = a + (i + 1) by omega]
      cases hg : Memory.get m a with
      | none => simp [Memory.bytes, Memory.unwritten, hg, ih (a + 1) _ i (by omega) h', Nat.add_assoc]
      | some v => simp [Memory.bytes, Memory.unwritten, hg, ih (a + 1) _ i (by omega) h']

theorem bytesAt_length (a n : Nat) (s : State) : (s.bytesAt a n).length = n := Memory.bytes_length ..

/-- Lane `k` of the word read is byte `k` of the read (R51). -/
theorem getElem?_of_laneWord {bs : List Byte} (h : bs.length = 4) {k : Nat} (hk : k < 4) :
    bs[k]? = some ((laneWord bs).extractLsb' (8 * k) 8) := by
  have hl : laneBytes (laneWord bs) = bs := laneBytes_laneWord_of_length h
  have hk' : k < (laneBytes (laneWord bs)).length := by rwa [laneBytes_length]
  rw [← laneBytes_getElem _ k hk', ← List.getElem?_eq_getElem hk', hl]

/-- Settles O45: the bytes of a read one by one, and the idle host's word read as such a read of four bytes. -/
theorem writtenBytesAreRead : Obligations.WrittenBytesAreRead := by
  intro a n s
  refine ⟨bytesAt_length a n s, fun i v hi h => Memory.bytes_getElem? _ _ _ _ i v hi h,
    fun i hi h => bytes_getElem?_of_unwritten _ _ _ _ i hi h, rfl, afterRead_of_written, fun b j hp hj => ?_⟩
  have hv := loadValue_word b (4 * j) hj hp
  refine ⟨hv, fun k hk => ?_, load_word b (4 * j) hj hp⟩
  rw [hv]
  exact getElem?_of_laneWord (bytesAt_length ..) hk

/-! ### Supported accesses -/

/-- A supported read access is a load (R48, R49). -/
theorem hostAccess_read {off : Nat} (h : off < Config.windowSize) (ha : off % 4 = 0) (s : State) :
    hostAccess ⟨.word, Config.base + off, .read⟩ s = .next (s.load off) := by
  simp [hostAccess, windowOffset_base off h, Access.supported, ha]

/-- A step at a host access makes the access. -/
theorem step_hostAccess (a : Access) (es : List Event) {s : State} (hf : s.hostFault = false) :
    step ({ s with schedule := .hostAccess a :: es } : State) = hostAccess a ({ s with schedule := es } : State) :=
  step_of_schedule (s := { s with schedule := .hostAccess a :: es }) hf rfl

/-- Settles O60: the access is the load or the store, and a step makes the next event's access. -/
theorem supportedAccessesLoadAndStore : Obligations.SupportedAccessesLoadAndStore := by
  refine fun off v s h ha => ⟨hostAccess_read h ha s, hostAccess_write h ha v s, rfl, fun es hf => ⟨?_, ?_⟩⟩
  · exact (step_hostAccess _ es hf).trans (hostAccess_read h ha _)
  · exact (step_hostAccess _ es hf).trans (hostAccess_write h ha v _)

end Sys2Proof.Machine
end

section
/-! PROOFS, of the statements of 60_exceptions.md about every command's completion and the engine's turn. -/

namespace Sys2Proof.Machine

/-! ### What every command leaves -/

/-- No command writes a byte outside KEY, OUT and DIG (R34). -/
theorem exec_get_outside {i : Instr} {s t : State} (ht : exec i s = .next t) {a : Nat}
    (hkey : Buffer.key.holds a = false) (hout : Buffer.out.holds a = false) (hdig : Buffer.dig.holds a = false) :
    Memory.get t.mem a = Memory.get s.mem a := by
  have digest {d : List Byte} (hd : d.length = 20) (m : Memory) :
      Memory.get (Memory.setRun m Buffer.dig.base d) a = Memory.get m a :=
    Memory.get_setRun_buffer .dig d m a (by rw [hd]; decide) hdig
  cases i with
  | b32enc n =>
    obtain ⟨-, he⟩ | ⟨hn, he⟩ := execB32enc_cases n s <;> obtain rfl := Host.Outcome.next.inj (he.symm.trans ht)
    · rfl
    · exact Memory.get_setRun_buffer .out _ _ a ((encodedText_length n s).trans_le hn) hout
  | b32dec mode dest =>
    obtain ⟨-, he⟩ | ⟨-, ⟨-, he⟩ | ⟨bs, -, ⟨-, he⟩ | ⟨hl, he⟩⟩⟩ := execB32dec_cases mode dest s <;>
      obtain rfl := Host.Outcome.next.inj (he.symm.trans ht)
    · rfl
    · rfl
    · rfl
    · cases dest with
      | out => exact Memory.get_setRun_buffer .out bs _ a hl hout
      | key => exact Memory.get_setRun_buffer .key bs _ a hl hkey
  | hmac form =>
    obtain ⟨-, he⟩ | ⟨-, -, he⟩ := execHmac_cases form s <;> obtain rfl := Host.Outcome.next.inj (he.symm.trans ht)
    · rfl
    · have hd := hmacDigest_length s
      have hx : a < 0x1000 ∨ 0x1000 + 40 ≤ a := by
        have := mt (Buffer.holds_iff .out a).2 (by simp [hout])
        rw [show Buffer.out.base = 0x1000 by rfl, show Buffer.out.cap = 512 by rfl] at this
        omega
      rw [State.finish_mem, get_storeHex_outside hd _ (.inr hx)]
      exact digest hd _
  | trunc =>
    obtain ⟨-, he⟩ | ⟨-, he⟩ := execTrunc_cases s <;> obtain rfl := Host.Outcome.next.inj (he.symm.trans ht)
    · rfl
    · simp
  | hotp =>
    obtain ⟨-, he⟩ | ⟨-, he⟩ := execHotp_cases s <;> obtain rfl := Host.Outcome.next.inj (he.symm.trans ht)
    · rfl
    · exact digest (hotpDigest_length s) _
  | tstep source =>
    obtain rfl := Host.Outcome.next.inj ((exec_tstep source s).symm.trans ht)
    cases source <;> rfl

/-- Settles O8: every command finishes inside the command frame, with an error code other than E_ILLEGAL. -/
theorem everyCommandCompletes : Obligations.EveryCommandCompletes := by
  intro i s
  obtain ⟨u, c, he, hf⟩ := exec_finishes i s
  have herr : (u.finish c).err ≠ .illegal := (completesWith_of_exec he).err ▸ commandErrCode_ne_illegal i s
  exact ⟨_, he, rfl, rfl, herr, hf.ie, hf.ovr, hf.cmd, hf.txtLen, hf.msgLen, hf.schedule, hf.response, hf.hostFault,
    fun a => exec_get_outside he⟩

/-- E_DIGEST is TRUNC's alone (R135). -/
theorem commandErrCode_eq_digest_iff (i : Instr) (s : State) :
    commandErrCode s i = .digest ↔ i = .trunc ∧ s.digLen.toNat < 20 := by
  cases i with
  | b32dec mode dest =>
    rw [commandErrCode]
    repeat' split
    all_goals simp
  | _ => simp [commandErrCode, check_eq_error_iff]

/-- Settles O13: the error code of TRUNC is its one check's. -/
theorem digestErrorCases : Obligations.DigestErrorCases := by
  intro i s t ht
  rw [(completesWith_of_exec ht).err]
  exact commandErrCode_eq_digest_iff i s

/-! ### The engine's turn -/

theorem engineTurn_of_decode {s : State} {w : Word} {i : Instr} (hp : s.pending = some w) (hd : decode w = .ok i) :
    engineTurn s = exec i s := by
  simp [engineTurn, hp, hd]

theorem engineTurn_of_idle {s : State} (hp : s.pending = none) : engineTurn s = .next s := by
  simp [engineTurn, hp]

/-- With no event left the engine has its turn (log entry 10). -/
theorem step_of_schedule_nil {s : State} (hf : s.hostFault = false) (hs : s.schedule = []) : step s = engineTurn s := by
  simp [step, hf, runNext, hs]

/-- `withFetchWord` of a 32-bit word is the word's acceptance with the engine's turn next (log entry 9). -/
theorem withFetchWord_toNat (s : State) (w : Word) : s.withFetchWord 32 w.toNat = s.withCommand w := by
  rw [State.withFetchWord, Nat.mod_eq_of_lt w.isLt, BitVec.ofNat_toNat, BitVec.setWidth_eq]

/-- Settles O6: a step takes the engine's turn, which runs the decoded word or ends in E_ILLEGAL. -/
theorem stepRunsThePendingCommand : Obligations.StepRunsThePendingCommand := by
  refine ⟨fun s w i hf hp hd => ⟨fun hs => ?_, fun es hs => ?_⟩, fun s w es hf hp hw hs => ?_,
    fun s hf => ⟨step_of_schedule_nil hf, fun es hs => step_of_schedule hf hs⟩, fun s => engineTurn_of_idle,
    fun s w i hd => ?_⟩
  · exact (step_of_schedule_nil hf hs).trans (engineTurn_of_decode hp hd)
  · exact (step_of_schedule hf hs).trans (engineTurn_of_decode (s := { s with schedule := es }) hp hd)
  · obtain ⟨e, hd⟩ := decode_error_iff.2 hw
    exact (step_of_schedule hf hs).trans (engineTurn_of_decode_error (s := { s with schedule := es }) hp hd)
  · rw [withFetchWord_toNat]
    exact (step_of_schedule (s := s.withCommand w) rfl rfl).trans
      (engineTurn_of_decode (s := { s.accept w with hostFault := false }) rfl hd)

end Sys2Proof.Machine
end

section
/-! PROOFS, of the statements over every step: what a host access leaves of a pending command, the table of the flags,
the completion of an accepted command, and that only a bus error or an outside address stops the machine. -/

namespace Sys2Proof.Machine

/-! ### Host accesses while a command is pending -/

/-- The ungated writes of a busy block leave all but IE and OVR: a STATUS write finds DONE at 0 already (R56, R128). -/
theorem writeReg_frame_of_ungated {r : Reg} (hg : (Target.reg r).gatedWhileBusy = false) (v : Word) {s : State}
    (hd : s.done = false) :
    s.writeReg r v = { s with ie := (s.writeReg r v).ie, ovr := (s.writeReg r v).ovr } := by
  cases r with
  | status => simp [State.writeReg, State.clearStatus, hd]
  | ctrl | outLen | digLen | code | truncBin | truncOff | param0 | param1 | param2 => rfl
  | cmd | txtLen | keyLen | msgLen | counterLo | counterHi | tsLo | tsHi => exact nomatch hg

theorem writeWord_of_ungated {b : Buffer} {i : Nat} (hg : (Target.word b i).gatedWhileBusy = false) (v : Word)
    (s : State) : s.writeWord b i v = s := by
  cases b with
  | out | dig => rfl
  | txt | key | msg => exact nomatch hg

/-- A write while a command is pending changes IE, OVR and the host's answer only. -/
theorem store_frame_of_pending {s : State} (hp : s.pending ≠ none) (hd : s.done = false) (off : Nat) (v : Word) :
    s.store off v =
      { s with ie := (s.store off v).ie, ovr := (s.store off v).ovr, response := (s.store off v).response } := by
  have hw : s.writeTarget (targetAt off) v =
      { s with ie := (s.writeTarget (targetAt off) v).ie, ovr := (s.writeTarget (targetAt off) v).ovr } := by
    obtain ⟨-, -, he⟩ | ⟨hg, he⟩ := writeTarget_cases (targetAt off) v s
    · rw [he]
      rfl
    · have hg := hg.resolve_left (by simp [busy_of_pending_ne_none hp])
      obtain ⟨r, hr, he⟩ | ⟨b, i, hb, he⟩ | ⟨-, he⟩ := he
      · rw [he]
        exact writeReg_frame_of_ungated (hr ▸ hg) v hd
      · rw [he, writeWord_of_ungated (hb ▸ hg)]
      · rw [he]
  exact congrArg (State.answered .written) hw

/-- Settles O50: a read has no side effect, a write is gated or reaches CTRL or STATUS, and a bus error does nothing. -/
theorem pendingInputsAreFrozen : Obligations.PendingInputsAreFrozen := by
  intro s t a hp hd ht
  obtain ⟨off, -, ⟨-, -, rfl⟩ | ⟨-, v, -, rfl⟩ | ⟨-, rfl⟩⟩ := hostAccess_cases ht
  · rw [load_frame]
  · rw [store_frame_of_pending hp hd]
  · rfl

/-! ### The flags -/

/-- BUSY's pending word, ERR, DONE, OVR and IE: the flags of R41. -/
def State.flags (s : State) := (s.pending, s.err, s.done, s.ovr, s.ie)

/-- The offsets whose writes set OVR while BUSY = 1 (R56). -/
theorem offset_of_gatedWhileBusy {off : Nat} (h : (targetAt off).gatedWhileBusy = true) :
    off ∈ [0x008, 0x00C, 0x010, 0x014, 0x020, 0x024, 0x028, 0x02C] ∨ (0x400 ≤ off ∧ off < 0x500) ∨
      (0x800 ≤ off ∧ off < 0x900) ∨ (0xC00 ≤ off ∧ off < 0xD00) := by
  cases ht : targetAt off with
  | reg r =>
    rw [ht] at h
    rw [targetAt_reg_offset ht]
    left
    revert h
    cases r <;> decide
  | word b i =>
    rw [ht] at h
    have hb := (b.holds_iff off).1 (targetAt_word_holds ht).1
    rcases b.bounds with ⟨-, h1, h2⟩ | ⟨-, h1, h2⟩ | ⟨-, h1, h2⟩ | ⟨rfl, -⟩ | ⟨rfl, -⟩
    · omega
    · omega
    · omega
    · exact nomatch h
    · exact nomatch h
  | nothing => rw [ht] at h; exact nomatch h

/-- A register write that is no acceptance and reaches neither CTRL nor STATUS leaves the flags. -/
theorem writeReg_flags {r : Reg} (hcmd : r ≠ .cmd) (hstatus : r ≠ .status) (hctrl : r ≠ .ctrl) (v : Word) (s : State) :
    (s.writeReg r v).flags = s.flags := by
  cases r with
  | cmd => exact absurd rfl hcmd
  | status => exact absurd rfl hstatus
  | ctrl => exact absurd rfl hctrl
  | _ => rfl

theorem writeWord_flags (b : Buffer) (i : Nat) (v : Word) (s : State) : (s.writeWord b i v).flags = s.flags := by
  cases b <;> rfl

theorem load_flags (off : Nat) (s : State) : (s.load off).flags = s.flags := by
  rw [load_frame]
  rfl

/-- What a write does to the flags (R41, R56): OVR of a gated one, an acceptance, STATUS, CTRL, or nothing. -/
theorem store_flags (off : Nat) (v : Word) (s : State) :
    (s.pending ≠ none ∧ (targetAt off).gatedWhileBusy = true ∧ s.store off v = s.overrun.answered .written) ∨
      (s.pending = none ∧ off = 0x008 ∧ s.store off v = (s.accept v).answered .written) ∨
      (off = 0x004 ∧ s.store off v = (s.clearStatus v).answered .written) ∨
      (off = 0x000 ∧ s.store off v = (s.setCtrl v).answered .written) ∨
      (s.store off v).flags = s.flags := by
  have answered {u : State} (h : s.writeTarget (targetAt off) v = u) : s.store off v = u.answered .written :=
    congrArg (State.answered .written) h
  obtain ⟨hb, hg, he⟩ | ⟨hg, ⟨r, hr, he⟩ | ⟨b, i, -, he⟩ | ⟨-, he⟩⟩ := writeTarget_cases (targetAt off) v s
  · exact .inl ⟨Option.isSome_iff_ne_none.1 hb, hg, answered he⟩
  · have ho := targetAt_reg_offset hr
    by_cases hcmd : r = .cmd
    · subst hcmd
      have hp : s.busy = false := hg.resolve_right (by rw [hr]; decide)
      exact .inr (.inl ⟨Option.isNone_iff_eq_none.1 (by simpa [State.busy] using hp), ho, answered he⟩)
    by_cases hstatus : r = .status
    · subst hstatus
      exact .inr (.inr (.inl ⟨ho, answered he⟩))
    by_cases hctrl : r = .ctrl
    · subst hctrl
      exact .inr (.inr (.inr (.inl ⟨ho, answered he⟩)))
    · rw [answered he]
      exact .inr (.inr (.inr (.inr (writeReg_flags hcmd hstatus hctrl v s))))
  · rw [answered he]
    exact .inr (.inr (.inr (.inr (writeWord_flags b i v s))))
  · rw [answered he]
    exact .inr (.inr (.inr (.inr rfl)))

/-- A supported write inside the window, as the event it is (R45, R48). -/
theorem access_eq_of_supported {a : Access} {off : Nat} {v : Word} (ho : windowOffset a.addr = some off)
    (hs : a.supported off = true) (hk : a.kind = .write v) : a = ⟨.word, Config.base + off, .write v⟩ := by
  obtain ⟨size, addr, kind⟩ := a
  rw [Access.supported, Bool.and_eq_true, beq_iff_eq, beq_iff_eq] at hs
  obtain ⟨rfl, -⟩ := hs
  obtain rfl : kind = .write v := hk
  rw [windowOffset] at ho
  split at ho
  · rename_i hin
    obtain ⟨hbase, -⟩ : Config.base ≤ addr ∧ addr < Config.base + Config.windowSize := hin
    obtain rfl : addr - Config.base = off := Option.some.inj ho
    rw [Nat.add_sub_cancel' hbase]
  · exact nomatch ho

/-- A completion sets DONE and clears BUSY; with nothing pending the turn changes nothing (R129). -/
theorem engineTurn_flags {s t : State} (h : engineTurn s = .next t) :
    (s.pending ≠ none ∧ t.pending = none ∧ t.done = true ∧ t.ovr = s.ovr ∧ t.ie = s.ie) ∨ t.flags = s.flags := by
  by_cases hp : s.pending = none
  · obtain rfl := Host.Outcome.next.inj ((engineTurn_of_idle hp).symm.trans h)
    exact .inr rfl
  · obtain ⟨u, c, hu, hf⟩ := engineTurn_finishes hp
    obtain rfl := Host.Outcome.next.inj (hu.symm.trans h)
    exact .inl ⟨hp, rfl, rfl, hf.ovr, hf.ie⟩

/-- Only a supported write changes a flag; a read and a bus error leave them all (R50, R53). -/
theorem hostAccess_flags {a : Access} {s t : State} (h : hostAccess a s = .next t) :
    (∃ off v, a = ⟨.word, Config.base + off, .write v⟩ ∧ t = s.store off v) ∨ t.flags = s.flags := by
  obtain ⟨off, ho, ⟨-, -, rfl⟩ | ⟨hs, v, hk, rfl⟩ | ⟨-, rfl⟩⟩ := hostAccess_cases h
  · exact .inr (load_flags off s)
  · exact .inl ⟨off, v, access_eq_of_supported ho hs hk, rfl⟩
  · exact .inr rfl

/-- Settles O51: each event's effect on the flags is one row of R41's table. -/
theorem flagsChangeAsTheTableSays : Obligations.FlagsChangeAsTheTableSays := by
  intro s t ht
  by_cases same : t.flags = s.flags
  · iterate 6 right
    simpa only [State.flags, Prod.mk.injEq] using same
  obtain ⟨-, ⟨hs, he⟩ | ⟨e, es, hs, he⟩⟩ := step_cases ht
  · obtain ⟨hp, completion⟩ := (engineTurn_flags he).resolve_right same
    exact .inr (.inl ⟨hp, .inl hs, completion⟩)
  · cases e with
    | resetInput => exact .inl ⟨es, hs⟩
    | engineTurn =>
      obtain ⟨hp, completion⟩ := (engineTurn_flags he).resolve_right same
      exact .inr (.inl ⟨hp, .inr ⟨es, hs⟩, completion⟩)
    | hostAccess a =>
      obtain ⟨off, v, rfl, rfl⟩ := (hostAccess_flags he).resolve_right same
      obtain ⟨hp, hg, h⟩ | ⟨hp, rfl, h⟩ | ⟨rfl, h⟩ | ⟨rfl, h⟩ | h := store_flags off v { s with schedule := es }
      · rw [h]
        exact .inr (.inr (.inr (.inr (.inr (.inl
          ⟨off, v, es, hp, hs, offset_of_gatedWhileBusy hg, rfl, rfl, rfl, rfl, rfl⟩)))))
      · rw [h]
        exact .inr (.inr (.inl ⟨v, es, hp, hs, rfl, rfl, rfl, rfl, rfl, rfl⟩))
      · rw [h]
        exact .inr (.inr (.inr (.inl ⟨v, es, hs, rfl, rfl, rfl, rfl, rfl⟩)))
      · rw [h]
        exact .inr (.inr (.inr (.inr (.inl ⟨v, es, hs, rfl, rfl, rfl, rfl, rfl⟩))))
      · exact absurd h same

/-! ### Progress -/

@[simp] theorem load_schedule (off : Nat) (s : State) : (s.load off).schedule = s.schedule := by
  rw [load_frame]

@[simp] theorem store_schedule (off : Nat) (v : Word) (s : State) : (s.store off v).schedule = s.schedule := by
  change (s.writeTarget (targetAt off) v).schedule = s.schedule
  obtain ⟨-, -, h⟩ | ⟨-, ⟨r, -, h⟩ | ⟨b, i, -, h⟩ | ⟨-, h⟩⟩ := writeTarget_cases (targetAt off) v s
  · rw [h]; rfl
  · rw [h]; cases r <;> rfl
  · rw [h]; cases b <;> rfl
  · rw [h]

/-- The engine's turn always answers a next state, and is no access of the host. -/
theorem engineTurn_next (s : State) :
    ∃ t, engineTurn s = .next t ∧ t.schedule = s.schedule ∧ t.hostFault = s.hostFault := by
  by_cases hp : s.pending = none
  · exact ⟨s, engineTurn_of_idle hp, rfl, rfl⟩
  · obtain ⟨u, c, hu, hf⟩ := engineTurn_finishes hp
    exact ⟨_, hu, hf.schedule, hf.hostFault⟩

/-- An access inside the window answers a next state (R45, R48 to R50). -/
theorem hostAccess_next {a : Access} {off : Nat} (ho : windowOffset a.addr = some off) (s : State) :
    ∃ t, hostAccess a s = .next t := by
  simp only [hostAccess, ho]
  split
  · cases a.kind <;> exact ⟨_, rfl⟩
  · exact ⟨_, rfl⟩

/-- An event answers a next state, but for an access outside the window. -/
theorem runEvent_outcome (e : Event) (s : State) :
    (∃ t, runEvent e s = .next t) ∨
      (runEvent e s = .fault .outsideWindow ∧ ∃ a, e = .hostAccess a ∧ windowOffset a.addr = none) := by
  cases e with
  | hostAccess a =>
    cases ho : windowOffset a.addr with
    | none => exact .inr ⟨by simp [runEvent, hostAccess, ho], a, rfl, ho⟩
    | some off => exact .inl (hostAccess_next ho s)
  | engineTurn =>
    obtain ⟨t, ht, -⟩ := engineTurn_next s
    exact .inl ⟨t, ht⟩
  | resetInput => exact .inl ⟨_, rfl⟩

/-- What a step answers: a next state, or one of the two faults with its cause. -/
theorem step_outcome (s : State) :
    (s.hostFault = true ∧ step s = .fault .hostBusError) ∨ (∃ t, step s = .next t) ∨
      (step s = .fault .outsideWindow ∧ ∃ a es, s.schedule = .hostAccess a :: es ∧ windowOffset a.addr = none) := by
  cases hf : s.hostFault with
  | true => exact .inl ⟨rfl, step_of_hostFault hf⟩
  | false =>
    refine .inr ?_
    cases hs : s.schedule with
    | nil =>
      obtain ⟨t, ht, -⟩ := engineTurn_next s
      exact .inl ⟨t, (step_of_schedule_nil hf hs).trans ht⟩
    | cons e es =>
      rw [step_of_schedule hf hs]
      obtain h | ⟨h, a, rfl, ho⟩ := runEvent_outcome e { s with schedule := es }
      · exact .inl h
      · exact .inr ⟨h, a, es, rfl, ho⟩

theorem contract_iff (s : State) :
    s.contract = true ↔ s.hostFault = false ∧ ∀ e ∈ s.schedule, e.keepsContract = true := by
  simp [State.contract]

theorem keepsContract_hostAccess_iff (a : Access) :
    (Event.hostAccess a).keepsContract = true ↔ ∃ off, windowOffset a.addr = some off ∧ a.supported off = true := by
  rw [Event.keepsContract]
  cases windowOffset a.addr <;> simp

/-- A supported access leaves the schedule to come and records no fault. -/
theorem hostAccess_of_keepsContract {a : Access} (h : (Event.hostAccess a).keepsContract = true) (s : State) :
    ∃ t, hostAccess a s = .next t ∧ t.schedule = s.schedule ∧ t.hostFault = s.hostFault := by
  obtain ⟨off, ho, hs⟩ := (keepsContract_hostAccess_iff a).1 h
  obtain ⟨t, ht⟩ := hostAccess_next ho s
  refine ⟨t, ht, ?_⟩
  obtain ⟨off', ho', ⟨-, -, rfl⟩ | ⟨-, v, -, rfl⟩ | ⟨hn, -⟩⟩ := hostAccess_cases ht
  · exact ⟨load_schedule .., load_hostFault ..⟩
  · exact ⟨store_schedule .., store_hostFault ..⟩
  · obtain rfl := Option.some.inj (ho.symm.trans ho')
    exact absurd (hs.symm.trans hn) nofun

/-- An event that keeps the contract answers a next state, the schedule to come and the host fault as they were. -/
theorem runEvent_of_keepsContract {e : Event} (h : e.keepsContract = true) (s : State) :
    ∃ t, runEvent e s = .next t ∧ t.schedule = s.schedule ∧ t.hostFault = s.hostFault := by
  cases e with
  | hostAccess a => exact hostAccess_of_keepsContract h s
  | engineTurn => exact engineTurn_next s
  | resetInput => exact ⟨_, rfl, rfl, rfl⟩

/-- A step under the contract takes one event off the schedule, if there is one, and no fault comes. -/
theorem step_of_contract {s : State} (h : s.contract = true) :
    ∃ t, step s = .next t ∧ t.schedule = s.schedule.tail ∧ t.contract = true := by
  obtain ⟨hf, hall⟩ := (contract_iff s).1 h
  have rest {t : State} (hs : t.schedule = s.schedule.tail) (ht : t.hostFault = false) : t.contract = true :=
    (contract_iff t).2 ⟨ht, fun e he => hall e (List.mem_of_mem_tail (hs ▸ he))⟩
  cases hs : s.schedule with
  | nil =>
    obtain ⟨t, ht, hts, htf⟩ := engineTurn_next s
    have hts' : t.schedule = s.schedule.tail := by rw [hts, hs]; rfl
    exact ⟨t, (step_of_schedule_nil hf hs).trans ht, hts.trans hs, rest hts' (htf.trans hf)⟩
  | cons e es =>
    obtain ⟨t, ht, hts, htf⟩ := runEvent_of_keepsContract (hall e (by simp [hs])) { s with schedule := es }
    have hts' : t.schedule = s.schedule.tail := by rw [hts, hs]; rfl
    exact ⟨t, (step_of_schedule hf hs).trans ht, hts, rest hts' (htf.trans hf)⟩

/-- Settles O54: progress under the contract, and `step_outcome` for every other state. -/
theorem contractNeverStops : Obligations.ContractNeverStops := by
  refine ⟨fun s h => ?_, fun s => step_of_hostFault, fun s f h => ?_, fun s r h => ?_⟩
  · obtain ⟨t, ht, -, htc⟩ := step_of_contract h
    exact ⟨t, ht, htc⟩
  · obtain ⟨hf, he⟩ | ⟨t, he⟩ | ⟨he, hs⟩ := step_outcome s <;> rw [he] at h
    · exact .inl ⟨(Host.Outcome.fault.inj h).symm, hf⟩
    · exact nomatch h
    · exact .inr ⟨(Host.Outcome.fault.inj h).symm, hs⟩
  · obtain ⟨-, he⟩ | ⟨t, he⟩ | ⟨he, -⟩ := step_outcome s <;> rw [he] at h <;> exact nomatch h

/-! ### The completion of an accepted command -/

/-- While a command is pending a write leaves it pending: CMD is gated (R56). -/
theorem store_pending_of_busy {s : State} (hp : s.pending ≠ none) (off : Nat) (v : Word) :
    (s.store off v).pending = s.pending := by
  obtain ⟨-, -, h⟩ | ⟨hi, -⟩ | ⟨-, h⟩ | ⟨-, h⟩ | h := store_flags off v s
  · rw [h]; rfl
  · exact absurd hi hp
  · rw [h]; rfl
  · rw [h]; rfl
  · exact congrArg Prod.fst h

theorem hostAccess_pending_of_busy {a : Access} {s t : State} (hp : s.pending ≠ none) (h : hostAccess a s = .next t) :
    t.pending = s.pending := by
  obtain ⟨off, -, ⟨-, -, rfl⟩ | ⟨-, v, -, rfl⟩ | ⟨-, rfl⟩⟩ := hostAccess_cases h
  · exact congrArg Prod.fst (load_flags off s)
  · exact store_pending_of_busy hp off v
  · rfl

/-- Settles O53, by induction on the events to come: an access leaves the command pending, the engine's turn completes
it, and it has one when no event is left. -/
theorem acceptedCommandCompletes : Obligations.AcceptedCommandCompletes := by
  intro s hp hc hr
  obtain ⟨es, hs⟩ : ∃ es, s.schedule = es := ⟨_, rfl⟩
  induction es generalizing s with
  | nil =>
    obtain ⟨u, c, hu, -⟩ := engineTurn_finishes hp
    have ht := (step_of_schedule_nil ((contract_iff s).1 hc).1 hs).trans hu
    exact ⟨1, u.finish c, by simp [hs], run_succ_of_next ht 0, rfl, rfl⟩
  | cons e es ih =>
    obtain ⟨t, ht, hts, htc⟩ := step_of_contract hc
    rw [hs] at hts hr
    have hf := ((contract_iff s).1 hc).1
    cases e with
    | hostAccess a =>
      have access : hostAccess a { s with schedule := es } = .next t := (step_of_schedule hf hs).symm.trans ht
      have htp : t.pending = s.pending := hostAccess_pending_of_busy (s := { s with schedule := es }) hp access
      have noReset : t.schedule.all Event.isNotReset = true := by rw [hts]; exact hr
      obtain ⟨k, u, hk, hu, hup, hud⟩ := ih t (htp ▸ hp) htc noReset hts
      exact ⟨k + 1, u, by simpa [hs, hts] using hk, (run_succ_of_next ht k).trans hu, hup, hud⟩
    | engineTurn =>
      obtain ⟨w, hw⟩ := Option.ne_none_iff_exists'.1 hp
      obtain ⟨u, hu, hup, hud, -⟩ := step_engineTurn hf hs hw
      exact ⟨1, u, by omega, run_succ_of_next hu 0, hup, hud⟩
    | resetInput => exact nomatch hr

end Sys2Proof.Machine
end

section
/-! PROOFS, of the statements of 45_host_sequences.md: generated secrets, invalid keys, get_code and check_code. -/

namespace Sys2Proof.Machine

/-! ### generate_secret -/

/-- generate_secret reads the characters of the next 16 RNG values from OUT; the pretty form is made of them by the host
(R118, R119). -/
theorem generateSecret_eq {s : State} (hp : s.pending = none) :
    ∃ t, ∀ prettyForm : Bool, generateSecret prettyForm s =
      .done (if prettyForm then pretty ((s.rngValues 16).map encSymbol) else (s.rngValues 16).map encSymbol) t := by
  obtain ⟨t, ht, htp, hout⟩ := runB32enc_ten s hp
  have hl : ((s.rngValues 16).map encSymbol).length = 16 := by rw [List.length_map, rngValues_length]
  have hread : (rbuf 0x1000 16 t).1 = (s.rngValues 16).map encSymbol :=
    rbuf_written .out 4 _ t htp (by decide) hl fun k hk => hout k (hl ▸ hk)
  exact ⟨(rbuf 0x1000 16 t).2, fun prettyForm => by rw [generateSecret, ht, HostResult.done_andThen, hread]⟩

theorem userPrep_append (xs ys : List Byte) : userPrep (xs ++ ys) = userPrep xs ++ userPrep ys := by
  rw [userPrep, List.filter_append, List.map_append, userPrep, userPrep]

/-- The pre-pass takes the spaces of the pretty form away again (R84, R119). -/
theorem userPrep_pretty {secret : List Byte} (h : secret.length = 16) : userPrep (pretty secret) = userPrep secret := by
  have space : userPrep [0x20] = [] := rfl
  have groups : secret.take 4 ++ (secret.drop 4).take 4 ++ (secret.drop 8).take 4 ++ (secret.drop 12).take 4 = secret := by
    rw [← List.take_add, ← List.take_add (i := 8), ← List.take_add (i := 12), List.take_of_length_le h.le]
  rw [pretty, if_pos h]
  simp only [userPrep_append, space, List.append_nil]
  rw [← userPrep_append, ← userPrep_append, ← userPrep_append, groups]

/-- Settles O55: the pretty form decodes as the secret does, which is 16 encoded symbols. -/
theorem generatedSecretsDecode : Obligations.GeneratedSecretsDecode := by
  intro s hp
  obtain ⟨t, ht⟩ := generateSecret_eq hp
  have hl : ((s.rngValues 16).map encSymbol).length = 16 := by rw [List.length_map, rngValues_length]
  obtain ⟨k, hk, hkl, -⟩ := decodeText_encSymbols .user (s.rngValues 16)
  have hpretty : decodeText .user (pretty ((s.rngValues 16).map encSymbol)) = some k := by
    rw [← hk, decodeText, decodeText, prepare, prepare, userPrep_pretty hl]
  rw [rngValues_length] at hkl
  exact ⟨t, _, k, ht false, ht true, rfl, pretty_length hl, hk, hpretty, hkl⟩

/-! ### Key loading -/

/-- A text that fits and is no valid key ends key loading, and with it both sequences (R120, R121). -/
theorem loadKey_of_invalid {key : List Byte} {s : State} (hp : s.pending = none) (hl : key.length ≤ 256)
    (h : decodeText .user key = none ∨ ∃ k, decodeText .user key = some k ∧ k.length < 10) :
    ∃ t, loadKey key s = .invalidSecretKey key t ∧ LoadKeyFrame s t := by
  obtain ⟨t, hf, ⟨-, he⟩ | ⟨k, hk, -, -, he⟩⟩ := loadKey_cases key s hp hl
  · exact ⟨t, he, hf⟩
  · obtain hn | ⟨k', hk', hshort⟩ := h
    · exact nomatch hn.symm.trans hk
    · obtain rfl : k' = k := Option.some.inj (hk'.symm.trans hk)
      exact ⟨t, he.trans (if_pos hshort), hf⟩

/-- A valid key is loaded, the wall clock unread (R120). -/
theorem loadKey_of_valid {key k : List Byte} {s : State} (hp : s.pending = none) (hl : key.length ≤ 256)
    (hk : decodeText .user key = some k) (h10 : 10 ≤ k.length) :
    ∃ t, loadKey key s = .done () t ∧ t.KeyLoaded k ∧ k.length ≤ 160 ∧ t.clockValue = s.clockValue := by
  obtain ⟨t, hf, ⟨hn, -⟩ | ⟨k', hk', hload, h160, he⟩⟩ := loadKey_cases key s hp hl
  · exact nomatch hn.symm.trans hk
  · obtain rfl : k' = k := Option.some.inj (hk'.symm.trans hk)
    exact ⟨t, he.trans (if_neg h10.not_gt), hload, h160, hf.clockValue⟩

/-- Settles O56: an ending of key loading other than `done` is that of the sequences. -/
theorem invalidKeysShortCircuit : Obligations.InvalidKeysShortCircuit := by
  refine fun key s hp => ⟨fun hl h => ?_, fun hl => ?_⟩
  · obtain ⟨t, ht, hf⟩ := loadKey_of_invalid hp hl h
    exact ⟨t, ht, fun ts => by rw [getCode, ht, HostResult.invalidSecretKey_andThen],
      fun code ts => by rw [checkCode, ht, HostResult.invalidSecretKey_andThen],
      hf.counter, hf.digLen, hf.code, fun i _ => hf.mem _ (by omega)⟩
  · have hr := loadKey_refused s hl
    exact ⟨hr, fun ts => by rw [getCode, hr, HostResult.refused_andThen],
      fun code ts => by rw [checkCode, hr, HostResult.refused_andThen]⟩

/-! ### The counter of a timestamp -/

/-- The counter of a sample is its floor quotient by 30 (R111). -/
theorem counterOf_eq (t : DWord) : counterOf t = BitVec.ofNat 64 (t.toNat / 30) := rfl

/-- The counter of a given timestamp that 64 unsigned bits hold (R111, R122). -/
theorem counterOf_ofInt {ts : Nat} (h : ts < 2 ^ 64) :
    counterOf (BitVec.ofInt 64 ts) = BitVec.ofNat 64 (ts / 30) := by
  rw [BitVec.ofInt_natCast, counterOf_eq, BitVec.toNat_ofNat, Nat.mod_eq_of_lt h]

/-! ### get_code -/

/-- get_code after a loaded key and a set counter (R122). -/
theorem getCode_of_steps {key k : List Byte} {ts : Option Int} {s t u : State} (hload : loadKey key s = .done () t)
    (hset : setCounterFrom ts t = .done () u) (hu : u.KeyLoaded k) (hk : k.length ≤ 160) :
    ∃ v, getCode key ts s = .done (hotpCode k u.counter) v := by
  obtain ⟨v, hv, -⟩ := readHotp_eq hu hk
  exact ⟨v, by rw [getCode, hload, HostResult.done_andThen, hset, HostResult.done_andThen, hv]⟩

/-- Settles O57: the key is loaded, COUNTER is the timestamp's, and HOTP gives the code of both. -/
theorem getCodeIsTheTimestampsCode : Obligations.GetCodeIsTheTimestampsCode := by
  intro key k s hp hl hk h10
  obtain ⟨t, hload, hloaded, h160, hclock⟩ := loadKey_of_valid hp hl hk h10
  refine ⟨fun ts hts => ?_, ?_, fun ts hts => ?_⟩
  · obtain ⟨u, hset, hu, hc⟩ := setCounterFrom_some hloaded (ts := ts) (by omega) (by omega)
    rw [← counterOf_ofInt hts, ← hc]
    exact getCode_of_steps hload hset hu h160
  · obtain ⟨u, hset, hu, hc⟩ := setCounterFrom_none hloaded
    rw [← counterOf_eq, ← hclock, ← hc]
    exact getCode_of_steps hload hset hu h160
  · rw [getCode, hload, HostResult.done_andThen, setCounterFrom_refused t hts, HostResult.refused_andThen]

/-! ### check_code -/

/-- check_code after a loaded key and a set counter accepts exactly the codes of the counters around it (R123). -/
theorem checkCode_of_steps {key k : List Byte} (code : Int) {ts : Option Int} {s t u : State}
    (hload : loadKey key s = .done () t) (hset : setCounterFrom ts t = .done () u) (hu : u.KeyLoaded k)
    (hk : k.length ≤ 160) :
    ∃ (b : Bool) (v : State), checkCode code key ts s = .done b v ∧
      (b = true ↔ ∃ c ∈ windowCounters u.counter, (hotpCode k c : Int) = code) := by
  have hlo := load_register .counterLo 0x020 rfl hu.idle
  have hloV := loadValue_register .counterLo 0x020 rfl hu.idle
  have hread : (u.load 0x020).pending = none := by rw [hlo]; exact hu.idle
  have hhiV : (u.load 0x020).loadValue 0x024 = u.counterHi := by
    rw [loadValue_register .counterHi 0x024 rfl hread, hlo]
    rfl
  have hhi : ((u.load 0x020).load 0x024).KeyLoaded k := by
    rw [load_register .counterHi 0x024 rfl hread, hlo]
    exact ⟨hu.idle, hu.length, hu.bytes⟩
  obtain ⟨b, v, hv, hb⟩ := tryCounters_eq code hk (windowCounters u.counter) _ hhi
  refine ⟨b, v, ?_, hb⟩
  rw [checkCode, hload, HostResult.done_andThen, hset, HostResult.done_andThen]
  simp only [hloV, hhiV]
  exact hv

/-- The codes of the counters around `c`, said with numbers (R123, R124). -/
theorem exists_windowCounters_iff (k : List Byte) (code : Int) (c : DWord) :
    (∃ x ∈ windowCounters c, (hotpCode k x : Int) = code) ↔
      ∃ n : Nat, n < 2 ^ 64 ∧ n ≤ c.toNat + 1 ∧ c.toNat ≤ n + 1 ∧ (hotpCode k (BitVec.ofNat 64 n) : Int) = code := by
  constructor
  · rintro ⟨x, hx, hcode⟩
    obtain ⟨h1, h2⟩ := (mem_windowCounters c x).1 hx
    exact ⟨x.toNat, x.isLt, h1, h2, by rwa [BitVec.ofNat_toNat, BitVec.setWidth_eq]⟩
  · rintro ⟨n, hn, h1, h2, hcode⟩
    have hx : (BitVec.ofNat 64 n).toNat = n := by rw [BitVec.toNat_ofNat, Nat.mod_eq_of_lt hn]
    exact ⟨BitVec.ofNat 64 n, (mem_windowCounters c _).2 (by rw [hx]; exact ⟨h1, h2⟩), hcode⟩

/-- Settles O58: the counters tried are those at most one away from the timestamp's. -/
theorem checkCodeAcceptsTheWindow : Obligations.CheckCodeAcceptsTheWindow := by
  intro key k code s hp hl hk h10
  obtain ⟨t, hload, hloaded, h160, hclock⟩ := loadKey_of_valid hp hl hk h10
  refine ⟨fun ts hts => ?_, ?_, fun ts hts => ?_⟩
  · obtain ⟨u, hset, hu, hc⟩ := setCounterFrom_some hloaded (ts := ts) (by omega) (by omega)
    obtain ⟨b, v, hv, hb⟩ := checkCode_of_steps code hload hset hu h160
    have hn : u.counter.toNat = ts / 30 := by
      rw [hc, counterOf_ofInt hts, BitVec.toNat_ofNat, Nat.mod_eq_of_lt (by omega)]
    exact ⟨b, v, hv, by rw [hb, exists_windowCounters_iff, hn]⟩
  · obtain ⟨u, hset, hu, hc⟩ := setCounterFrom_none hloaded
    obtain ⟨b, v, hv, hb⟩ := checkCode_of_steps code hload hset hu h160
    have hn : u.counter.toNat = s.clockValue.toNat / 30 := by rw [hc, counterOf_toNat, hclock]
    exact ⟨b, v, hv, by rw [hb, exists_windowCounters_iff, hn]⟩
  · rw [checkCode, hload, HostResult.done_andThen, setCounterFrom_refused t hts, HostResult.refused_andThen]

end Sys2Proof.Machine
end
